-- ==== Sys2Proof/Word.lean ====
section
/-! DEFINITION. Bytes, words and the carrier of the numbers of type `F`. -/

namespace Sys2Proof

/-- A byte: 8 bits, bit 7 most significant (00_scope.md R11). -/
abbrev Byte := BitVec 8

/-- A word: 16 bits, bit 15 most significant (R11). -/
abbrev Word := BitVec 16

/-- A value of type `F`: the bit pattern of an IEEE 754 binary32 number, the default of `NUM` (R8, R15; log 4).
The arithmetic on it is Machine/Bin32.lean. -/
abbrev F := BitVec 32

end Sys2Proof
end

