-- ==== Sys2Proof/Config.lean ====
section
/-! DEFINITION. The configuration record `CFG` of 00_scope.md R8, the reset record `RST`, and the free values.
The values that the source gives the literals of R9 stand in Machine/Constants.lean, each on one line. -/

namespace Sys2Proof

/-- The direction sign of a channel, +1 or -1 (10_state.md R27). -/
inductive Direction where
  | plus
  | minus
  deriving DecidableEq, Repr

/-- Which checksum collaborator the instance is wired to (20_memory.md R72, R73).
`external` is the real device's: nothing is known of it (log 6). -/
inductive CkKind where
  | sum8
  | sum8Sync
  | external
  deriving DecidableEq, Repr

/-- The five parts of a checksum collaborator over accumulators numbered by naturals (R72; log 6). -/
structure Ck where
  init : Nat
  feed : Nat → Byte → Nat
  sync : Nat → Nat
  valid : Nat → Bool
  trailer : Nat → Byte
  deriving Inhabited

/-- The parameters of R8 to which the source gives a value, with the two numeric literals of R9 that R8 does not
name: 255.0 of the voltage encoder and 0.99 of the average. -/
structure Literals where
  /-- `TMO_CYCLE_DEFAULT` -/
  tmoCycleDefault : Nat
  /-- `TMO_PING_DEFAULT` -/
  tmoPingDefault : Nat
  /-- `DISABLE_ANGLE_DEFAULT` -/
  disableAngleDefault : F
  /-- `V_ENCODE_LIMIT` -/
  vEncodeLimit : F
  /-- the factor of the `SETV` payload (40_tx_encoder.md R123) -/
  magScale : F
  /-- `EMA_ALPHA` -/
  emaAlpha : F
  /-- the factor of the old average, written out by the source (44_statistics.md R212) -/
  emaKeep : F
  /-- `CSL_GAIN_POS` -/
  cslGainPos : F
  /-- `CSL_GAIN_NEG` -/
  cslGainNeg : F
  /-- `CSL_OUT_GAIN` -/
  cslOutGain : F
  /-- `POS_ZERO` -/
  posZero : Int
  /-- `POS_SCALE` -/
  posScale : F
  /-- `TEMP_DIV` -/
  tempDiv : F
  deriving DecidableEq, Repr

/-- The parameters of an instance (R8), constant for its life. `NUM` is binary32 in every instance (log 4), and `RST`
is the argument of `State.create`. -/
structure Cfg where
  /-- the parameters with a source value -/
  lit : Literals
  /-- `MOTOR_ID` -/
  motorId : Byte
  /-- `CK` -/
  ck : CkKind
  /-- `CURRENT_SCALE` -/
  currentScale : F
  /-- `VOLTAGE_SCALE` -/
  voltageScale : F
  /-- `NEGPART_NONPOS` -/
  negpartNonpos : Bool
  /-- `RXQ_CAP`; `none` is unbounded -/
  rxqCap : Option Nat
  deriving DecidableEq, Repr

/-- `RST`: the reset values the source does not give (70_reset_and_hazards.md R301, R302). -/
structure Rst where
  direction : Direction
  targetVoltage : F
  targetPosition : F
  targetCslMode : F
  targetCslFeedback : F
  limitLow : F
  limitHigh : F
  proportionalGain : F
  snapPosition : F
  snapCurrent : F
  snapBackEmfVoltage : F
  snapSupplyVoltage : F
  snapTemperatureC : F
  deriving DecidableEq, Repr

/-- The checksum of the real device: no value of it is known (93_implementation_defined.md U1; log 6). -/
opaque Config.externalCk : Ck

/-- `CURRENT_SCALE` of the instance that `State.reset` creates: OPEN (R8, D6; log 7). -/
opaque Config.currentScale : F

/-- `VOLTAGE_SCALE` of the instance that `State.reset` creates: OPEN (R8, D6; log 7). -/
opaque Config.voltageScale : F

/-- The `n`-th value drawn for `ANY_F` (R17; log 11). -/
opaque Config.anyF : Nat → F

/-- The value of a sum, of a product, of a quotient whose IEEE result is not finite (U7; log 5). -/
opaque Config.addOpen : F → F → F
@[inherit_doc Config.addOpen] opaque Config.mulOpen : F → F → F
@[inherit_doc Config.addOpen] opaque Config.divOpen : F → F → F

/-- The value of `toF` of an integer beyond the range of binary32 (U7; log 5). -/
opaque Config.ofIntOpen : Int → F

/-- The value of `clamp` outside its precondition, a lower bound above the upper one or a bound that is a NaN (R16;
log 27). -/
opaque Config.clampOpen : F → F → F → F

/-- The payload byte of `SETV` where the rounded magnitude fits no byte (40_tx_encoder.md R123 gives 0 to 128 for the
source's limit; log 27). -/
opaque Config.payloadOpen : Int → Byte

/-- The value of `round_hafz` outside its precondition, an argument that is not finite (R16; log 21). -/
opaque Config.roundOpen : F → Int

end Sys2Proof
end

