-- ==== Sys2Proof/Machine/Bin32.lean ====
section
/-! DEFINITION. The numeric type `F`: IEEE 754 binary32, round to nearest even, one rounding per operation
(00_scope.md R15; log 4), and the helper functions of R16.

Every finite binary32 number is an integer multiple of the smallest one, 2^-149. A number is measured in these units,
an operation computes the exact result as a quotient of units, and `rounded` rounds it once. Where the exact result
rounds beyond the largest finite number, or an operand is not finite, the spec states no value and the result is a
free value (10_state.md R38, 93_implementation_defined.md U7; log 5). -/

namespace Sys2Proof.Machine.Bin32

/-- The sign bit. -/
def sign (x : F) : Bool := x.msb

/-- The biased exponent, bits 30 to 23. -/
def expField (x : F) : Nat := x.toNat / 2 ^ 23 % 256

/-- The fraction, bits 22 to 0. -/
def fracField (x : F) : Nat := x.toNat % 2 ^ 23

/-- Neither an infinity nor a NaN. -/
def isFinite (x : F) : Bool := expField x != 255

/-- A NaN. -/
def isNaN (x : F) : Bool := expField x == 255 && fracField x != 0

/-- The magnitude of a finite number in units of 2^-149. -/
def units (x : F) : Nat :=
  match expField x with
  | 0 => fracField x
  | e + 1 => (2 ^ 23 + fracField x) * 2 ^ e

/-- The value of a finite number in units of 2^-149. -/
def value (x : F) : Int := if sign x then -(units x : Int) else (units x : Int)

/-- The magnitude bits (exponent and fraction) of the infinity. -/
def infBits : Nat := 0x7F800000

/-- `n` rounded to the nearest multiple of `d`, ties to even, as a number of multiples. -/
def nearestEven (n d : Nat) : Nat :=
  let q := n / d
  let r := n % d
  if 2 * r < d then q
  else if d < 2 * r then q + 1
  else q + q % 2

/-- The exponent shift at which a magnitude of `q` whole units is rounded: 24 significant bits are kept. -/
def roundShift (q : Nat) : Nat := if q < 2 ^ 24 then 0 else Nat.log2 q - 23

/-- The magnitude bits of `num / den` units rounded to nearest even, before the range test. -/
def roundBits (num den : Nat) : Nat :=
  roundShift (num / den) * 2 ^ 23 + nearestEven num (den * 2 ^ roundShift (num / den))

/-- A number from its sign and magnitude bits. -/
def pack (neg : Bool) (bits : Nat) : F := BitVec.ofNat 32 ((if neg then 2 ^ 31 else 0) + bits)

/-- The number `(-1)^neg * num / den` units, rounded once; the free value `other` beyond the largest finite number. -/
def rounded (neg : Bool) (num den : Nat) (other : F) : F :=
  if roundBits num den < infBits then pack neg (roundBits num den) else other

/-- `a + b`. An exact zero is +0.0 unless both operands are negative. -/
def add (a b : F) : F :=
  if isFinite a && isFinite b then
    let v := value a + value b
    rounded (if v = 0 then sign a && sign b else decide (v < 0)) v.natAbs 1 (Config.addOpen a b)
  else Config.addOpen a b

/-- `-x`: the sign flipped, exact (43_control_law.md, opening paragraph). -/
def neg (x : F) : F := x ^^^ 0x80000000

/-- `a - b`, the sum with the sign of `b` flipped. -/
def sub (a b : F) : F := add a (neg b)

/-- `a * b`. -/
def mul (a b : F) : F :=
  if isFinite a && isFinite b then
    rounded (sign a != sign b) (units a * units b) (2 ^ 149) (Config.mulOpen a b)
  else Config.mulOpen a b

/-- `a / b`; the block divides by 512.0 and 100.0 only (41_rx_decoder.md R150). -/
def div (a b : F) : F :=
  if isFinite a && isFinite b && units b != 0 then
    rounded (sign a != sign b) (units a * 2 ^ 149) (units b) (Config.divOpen a b)
  else Config.divOpen a b

/-- `toF(n)` (R15). -/
def toF (n : Int) : F := rounded (decide (n < 0)) (n.natAbs * 2 ^ 149) 1 (Config.ofIntOpen n)

/-- The `F` nearest to the decimal `num / den` (R15: "A decimal literal in pseudocode is the value of F nearest to
it"), by which the literals of Machine/Constants.lean are checked. -/
def decimal (num : Int) (den : Nat) : F :=
  rounded (decide (num < 0)) (num.natAbs * 2 ^ 149) den (Config.ofIntOpen num)

/-- `abs(x)` clears the sign (R15). -/
def abs (x : F) : F := x &&& 0x7FFFFFFF

/-- The magnitude bits with the sign of the number: the order of the numbers that are no NaN, -0.0 and +0.0 the same. -/
def key (x : F) : Int := if sign x then -((x.toNat % 2 ^ 31 : Nat) : Int) else ((x.toNat % 2 ^ 31 : Nat) : Int)

/-- `a < b`; false with a NaN (R15). -/
def lt (a b : F) : Bool := !isNaN a && !isNaN b && decide (key a < key b)

/-- `a <= b`; false with a NaN (R15). -/
def le (a b : F) : Bool := !isNaN a && !isNaN b && decide (key a ≤ key b)

/-- `clamp(x, lo, hi)` under its precondition `lo <= hi` (R16); a free value otherwise (DESIGN CHOICE; log 27). -/
def clamp (x lo hi : F) : F :=
  if le lo hi then (if lt hi x then hi else if lt x lo then lo else x) else Config.clampOpen x lo hi

/-- `pospart(x)` (R16). -/
def pospart (x : F) : F := if lt 0 x then x else 0

/-- `negpart(x)` with the parameter `NEGPART_NONPOS` (R16). -/
def negpart (nonpos : Bool) (x : F) : F :=
  if nonpos then (if lt x 0 then x else 0) else (if lt x 0 then sub 0 x else 0)

/-- `fmin(a, b)` (R16). -/
def fmin (a b : F) : F := if lt b a then b else a

/-- `fmax(a, b)` (R16). -/
def fmax (a b : F) : F := if lt a b then b else a

/-- The magnitude of a finite number rounded to the nearest integer, ties up. -/
def nearestUp (x : F) : Nat := (2 * units x + 2 ^ 149) / 2 ^ 150

/-- `round_hafz(x)`, the nearest integer, ties away from zero, for finite `x` (R16); a free value otherwise (log 21). -/
def roundHafz (x : F) : Int :=
  if isFinite x then (if sign x then -(nearestUp x : Int) else (nearestUp x : Int)) else Config.roundOpen x

end Sys2Proof.Machine.Bin32
end

