-- ==== Sys2Proof/Machine/Constants.lean ====
section
/-! DEFINITION. The literals of the source (00_scope.md R9), each a named constant of `Cfg` on one line. Those of the
frame format are the same in every instance, since the encodings print them as they are (30_encoding.md R91 to R98) and
R8 lists none of them as a parameter; those of the parameters are the source's values of `Cfg.lit`. A number of type `F`
is its binary32 bit pattern; Tests/Slice0.lean checks each against its decimal. -/

namespace Sys2Proof

/-- The sync byte (30_encoding.md R91). -/
def Cfg.syncByte : Byte := 0xFF
/-- `PING` command byte (R92). -/
def Cfg.cmdPing : Byte := 0xE0
/-- `DATAREQ` command byte (R93). -/
def Cfg.cmdDataReq : Byte := 0xC0
/-- `SETV` command byte, non-negative form (R94). -/
def Cfg.cmdSetVPos : Byte := 0xB0
/-- `SETV` command byte, negative form (R95). -/
def Cfg.cmdSetVNeg : Byte := 0xB1
/-- `TOGGLE` command byte (R96). -/
def Cfg.cmdToggle : Byte := 0xD0
/-- `STATE` command byte (R97). -/
def Cfg.cmdState : Byte := 0x80
/-- `PINGREPLY` command byte (R98). -/
def Cfg.cmdPingReply : Byte := 0xE1
/-- Bytes of a `STATE` body (R97). -/
def Cfg.stateLength : Nat := 13
/-- Bytes of a `PINGREPLY` body (R98). -/
def Cfg.pingReplyLength : Nat := 3

/-- The source's values of the parameters (00_scope.md R8, R9). -/
def Literals.source : Literals where
  tmoCycleDefault := 1000
  tmoPingDefault := 50
  disableAngleDefault := 0x3F666666 -- 0.90
  vEncodeLimit := 0x3F000000 -- 0.5
  magScale := 0x437F0000 -- 255.0
  emaAlpha := 0x3C23D70A -- 0.01
  emaKeep := 0x3F7D70A4 -- 0.99
  cslGainPos := 0x4019999A -- 2.4
  cslGainNeg := 0x41800000 -- 16.0
  cslOutGain := 0x3F400000 -- 0.75
  posZero := 512
  posScale := 0x44000000 -- 512.0
  tempDiv := 0x42C80000 -- 100.0

end Sys2Proof
end

