-- ==== Sys2Proof/Syntax.lean ====
section
/-! DEFINITION. The instructions: one constructor per row of spec/opcode_table.json, and the form in which one reaches
the block. -/

namespace Sys2Proof

/-- The three kinds of instruction of 30_encoding.md R90: frames sent (TXF), frames received (RXF), host
operations (HOP). `id` and `ck` are the identifier and checksum bytes of a frame (R91). -/
inductive Instr where
  /-- TXF `PINGREQ`: `FF FF E0 id ck` (R92) -/
  | pingreq (id ck : Byte)
  /-- TXF `DATAREQ`: `FF FF C0 id ck` (R93) -/
  | datareq (id ck : Byte)
  /-- TXF `SETV_POS`: `FF FF B0 id mag ck` (R94) -/
  | setvPos (id mag ck : Byte)
  /-- TXF `SETV_NEG`: `FF FF B1 id mag ck` (R95) -/
  | setvNeg (id mag ck : Byte)
  /-- TXF `TOGGLE`: `FF FF D0 id ck` (R96) -/
  | toggle (id ck : Byte)
  /-- RXF `STATE`: `FF FF 80 id w0 w1 w2 w3 w4 ck` (R97) -/
  | state (id : Byte) (w0 w1 w2 w3 w4 : Word) (ck : Byte)
  /-- RXF `PINGREPLY`: `FF FF E1 id ck` (R98) -/
  | pingreply (id ck : Byte)
  /-- RXF `RXUNK`: `FF FF cmd`, any other command byte (R99) -/
  | rxunk (cmd : Byte)
  /-- HOP 0x01 `PING timeout` (R103) -/
  | ping (timeout : Nat)
  /-- HOP 0x02 `RUNCYCLE timeout` (R103) -/
  | runcycle (timeout : Nat)
  /-- HOP 0x03 `EVALCTRL` (R103) -/
  | evalctrl
  /-- HOP 0x04 `GET r`, one constructor per register of 10_state.md R36 -/
  | getMode
  | getDir
  | getTargetVoltage
  | getTargetPosition
  | getTargetCslMode
  | getTargetCslFeedback
  | getLimitLow
  | getLimitHigh
  | getProportionalGain
  | getDisableAngle
  | getMotorId
  /-- HOP 0x05 `SET r, v`, one constructor per writable register of R36; the mode and the direction are any
  integer, legal or not (45_host_ops.md R231, R233) -/
  | setMode (m : Int)
  | setDir (d : Int)
  | setTargetVoltage (v : F)
  | setTargetPosition (v : F)
  | setTargetCslMode (v : F)
  | setTargetCslFeedback (v : F)
  | setLimitLow (v : F)
  | setLimitHigh (v : F)
  | setProportionalGain (v : F)
  | setDisableAngle (v : F)
  /-- HOP 0x06 `GETSNAPSHOT` (R103) -/
  | getsnapshot
  /-- HOP 0x07 `GETSTATS` (R103) -/
  | getstats
  /-- HOP 0x08 `RESETSTATS` (R103) -/
  | resetstats
  deriving DecidableEq, Repr

/-- The operand of a host operation, which has no encoding in the spec (R103: "not part of the encoding string";
log 17). -/
inductive Operand where
  /-- no operand -/
  | absent
  /-- an integer: a timeout, a mode or a direction -/
  | int (n : Int)
  /-- a number: a value of `F` -/
  | num (v : F)
  deriving DecidableEq, Repr

/-- What the decoder reads: the code bytes and the operand of a host operation, or the bytes of a frame row (R90). -/
inductive Request where
  | hop (code : List Byte) (operand : Operand)
  | txf (frame : List Byte)
  | rxf (frame : List Byte)
  deriving DecidableEq, Repr

/-- What HOST can ask of the block: a host operation and nothing else (00_scope.md R10; log 2, 17). -/
structure HostRequest where
  code : List Byte
  operand : Operand
  deriving DecidableEq, Repr

/-- A frame row of the opcode table executed on its own, which no agent of R10 asks for (log 1, 15, 16). -/
inductive FrameRow where
  | txf (frame : List Byte)
  | rxf (frame : List Byte)
  deriving DecidableEq, Repr

/-- A host request as the decoder reads it. -/
def HostRequest.request (r : HostRequest) : Request := .hop r.code r.operand

/-- A frame row as the decoder reads it. -/
def FrameRow.request : FrameRow → Request
  | .txf frame => .txf frame
  | .rxf frame => .rxf frame

end Sys2Proof
end

