-- ==== Sys2Proof/Machine/State.lean ====
section
/-! DEFINITION. The state of one motor channel (10_state.md R20) with its configuration, the collaborator's state that
the block's rules read, the environment's oracles, and what reset leaves. Plain data throughout. -/

namespace Sys2Proof.Machine

/-- The controller mode (10_state.md R26). -/
inductive Mode where
  | disabled
  | voltage
  | position
  | currentShapingLimiter
  deriving DecidableEq, Repr

/-- The parse state `PS`, the block's sequencer register (R30). -/
inductive ParseState where
  | awaitFirstSync
  | awaitSecondSync
  | processing
  | completed
  | invalid
  deriving DecidableEq, Repr

/-- `SNAP`, the sensor snapshot: six registers of type `F` (R21). `outputVoltage` has no writer and no value: every
read of it draws a free value instead (R23; log 11). -/
structure Snapshot where
  outputVoltage : F
  position : F
  current : F
  backEmfVoltage : F
  supplyVoltage : F
  temperatureC : F
  deriving DecidableEq, Repr

/-- `CTRL`: the eight tunables (R24) and the two pieces of controller memory (R25). -/
structure Ctrl where
  targetVoltage : F
  targetPosition : F
  targetCslMode : F
  targetCslFeedback : F
  limitLow : F
  limitHigh : F
  proportionalGain : F
  disableAngle : F
  integralError : F
  z : F
  deriving DecidableEq, Repr

/-- `STAT`, the cycle statistics (R34); the counters are unbounded naturals (D20; log 22). -/
structure Stat where
  errorCount : Nat
  timeoutCount : Nat
  lastResponseTimeMicros : Nat
  avgResponseTimeMicros : F
  maxResponseTimeMicros : Nat
  faulted : Bool
  deriving DecidableEq, Repr

/-- `STG`, the decoder's staging area (R43). -/
structure Staging where
  id : Byte
  w0 : Word
  w1 : Word
  w2 : Word
  w3 : Word
  w4 : Word
  deriving DecidableEq, Repr

/-- What the last instruction handed back (30_encoding.md R103; log 26). -/
inductive HostResult where
  /-- the operation has no result -/
  | none
  /-- of `PING` -/
  | bool (b : Bool)
  /-- of `RUNCYCLE` and `GETSTATS`, a copy -/
  | stats (s : Stat)
  /-- of `GETSNAPSHOT`, a copy -/
  | snapshot (s : Snapshot)
  /-- of `GET MODE` -/
  | mode (m : Mode)
  /-- of `GET DIR`, +1 or -1 -/
  | direction (d : Int)
  /-- of `GET` of a register of type `F` -/
  | num (v : F)
  /-- of `GET MOTOR_ID` -/
  | byte (b : Byte)
  /-- of a TXF row executed on its own: the frame that the encoder forms (40_tx_encoder.md R122; log 15) -/
  | frame (bytes : List Byte)
  /-- the error outcome `ConnectionLost(sent, wanted)` (60_exceptions.md R264; log 13) -/
  | connectionLost (sent wanted : Nat)
  deriving DecidableEq, Repr

/-- The machine. -/
structure State where
  /-- the parameters of the instance; no step writes them (00_scope.md R8, R44; log 8) -/
  cfg : Cfg
  /-- `SNAP` (R21) -/
  snap : Snapshot
  /-- `CTRL` (R24, R25) -/
  ctrl : Ctrl
  /-- `MODE` (R26) -/
  mode : Mode
  /-- `DIR` (R27) -/
  dir : Direction
  /-- `PS` (R30) -/
  ps : ParseState
  /-- `ELAPSED`, a count of waits (R32) -/
  elapsed : Nat
  /-- `STAT` (R34) -/
  stat : Stat
  /-- `CONNLOST` (R33) -/
  connLost : Bool
  /-- `STG` (R43) -/
  stg : Staging
  /-- `RXQ`, head first (R40) -/
  rxq : List Byte
  /-- `CKACC` (R41; log 6) -/
  ckAcc : Nat
  /-- `TXQ` (R42) -/
  txq : List Byte
  /-- `TXLOG`, oldest byte first (R42) -/
  txLog : List Byte
  /-- the model's own: host operations HOST has still to issue, next first (log 2) -/
  requests : List HostRequest
  /-- the model's own: frame rows to be executed on their own before HOST's next operation, next first; no step adds
  one (log 1, 2) -/
  frameRows : List FrameRow
  /-- the model's own: what the last instruction handed back (log 26) -/
  result : HostResult
  /-- the model's own: the bytes LINE appends at the coming calls of `Poll()` (42_wait_loop.md R176; log 3) -/
  lineChunks : List (List Byte)
  /-- the model's own: the counts LINE accepts at the coming calls of `TxSend()` (20_memory.md R69; log 3) -/
  lineAccepts : List Nat
  /-- the model's own: how many values of `ANY_F` have been drawn (00_scope.md R17; log 11) -/
  freeCount : Nat
  deriving DecidableEq, Repr

/-- Why the machine is stuck. -/
inductive Fault where
  /-- A queue primitive was called on an empty queue: the collaborator's contract gives no behaviour
  (20_memory.md R63, R84; 93_implementation_defined.md U10). Raised where a decode step would do so; every call is
  guarded, so no step raises it. Safe: the machine stops. -/
  | emptyQueue
  deriving DecidableEq, Repr

/-- Why a request is given no successor state (60_exceptions.md R265; log 12). All are safe: the machine stops. -/
inductive Refusal where
  /-- an arm of `exec` that has no meaning yet; none in this model -/
  | notModelled (mnemonic : String)
  /-- `PING` or `RUNCYCLE` while `CONNLOST` is set (45_host_ops.md R220) -/
  | connectionLost
  /-- `EVALCTRL` with `limitLow > limitHigh` (43_control_law.md R186) -/
  | limitsInverted
  /-- `SET` of a NaN, an infinity, a mode outside 0 to 3, a direction other than +1 and -1 (R231 to R233); raised by
  fetching where the mode or the direction is a value of `F` (log 17) -/
  | illegalValue
  /-- `GET` or `SET` of a register above 10 (R230, R242); raised by fetching -/
  | noSuchRegister
  /-- `SET MOTOR_ID` (R242); raised by fetching -/
  | readOnlyRegister
  /-- bytes that are no row of the opcode table, or an operand of the wrong kind (30_encoding.md R90; log 17, 25);
  raised by fetching -/
  | notAnInstruction
  deriving DecidableEq, Repr

/-- Reset: the creation of an instance with its configuration and `RST` as arguments (70_reset_and_hazards.md R300,
R301). `rxq` and `ckAcc` are the collaborator's, which reset does not touch. `PS`, `ELAPSED`, `STG` and
`SNAP.outputVoltage` are unspecified in R301: the values here are the model's (log 10). -/
def State.create (cfg : Cfg) (rst : Rst) (rxq : List Byte) (ckAcc : Nat) : State where
  cfg := cfg
  snap :=
    { outputVoltage := 0, position := rst.snapPosition, current := rst.snapCurrent,
      backEmfVoltage := rst.snapBackEmfVoltage, supplyVoltage := rst.snapSupplyVoltage,
      temperatureC := rst.snapTemperatureC }
  ctrl :=
    { targetVoltage := rst.targetVoltage, targetPosition := rst.targetPosition,
      targetCslMode := rst.targetCslMode, targetCslFeedback := rst.targetCslFeedback,
      limitLow := rst.limitLow, limitHigh := rst.limitHigh, proportionalGain := rst.proportionalGain,
      disableAngle := cfg.lit.disableAngleDefault, integralError := 0, z := 0 }
  mode := .disabled
  dir := rst.direction
  ps := .awaitFirstSync
  elapsed := 0
  stat :=
    { errorCount := 0, timeoutCount := 0, lastResponseTimeMicros := 0, avgResponseTimeMicros := 0,
      maxResponseTimeMicros := 0, faulted := false }
  connLost := false
  stg := { id := 0, w0 := 0, w1 := 0, w2 := 0, w3 := 0, w4 := 0 }
  rxq := rxq
  ckAcc := ckAcc
  txq := []
  txLog := []
  requests := []
  frameRows := []
  result := .none
  lineChunks := []
  lineAccepts := []
  freeCount := 0

/-- The configuration of the reset state: the source's literals, the conventions of 95_test_vectors.md section 0, the
two scale constants left open (log 7, 8). -/
def resetCfg : Cfg :=
  { lit := Literals.source, motorId := 0x07, ck := .sum8, currentScale := Config.currentScale,
    voltageScale := Config.voltageScale, negpartNonpos := false, rxqCap := none }

/-- `RST_TEST` of 70_reset_and_hazards.md R302: limits -0.8 and 0.8, gain 0.8, direction +1, the rest 0.0 (log 9). -/
def resetRst : Rst :=
  { direction := .plus, targetVoltage := 0, targetPosition := 0, targetCslMode := 0, targetCslFeedback := 0,
    limitLow := 0xBF4CCCCD, limitHigh := 0x3F4CCCCD, proportionalGain := 0x3F4CCCCD, snapPosition := 0,
    snapCurrent := 0, snapBackEmfVoltage := 0, snapSupplyVoltage := 0, snapTemperatureC := 0 }

/-- The machine right after reset. -/
def State.reset : State := State.create resetCfg resetRst [] 0

end Sys2Proof.Machine
end

