-- ==== Sys2Proof/Machine/Flags.lean ====
section
/-! DEFINITION. The block has no condition codes (10_state.md R33). What it computes in their place: the outcome of a
wait from the parse state, the `faulted` flag, the test of the safety disable, and the sign that picks a `SETV` form. -/

namespace Sys2Proof.Machine

/-- The outcomes of a wait loop (60_exceptions.md R260). -/
inductive WaitOutcome where
  | success
  | timeout
  | invalidFrame
  deriving DecidableEq, Repr

/-- The numeric codes of R260; no register stores one. -/
def WaitOutcome.code : WaitOutcome → Nat
  | .success => 0
  | .timeout => 1
  | .invalidFrame => 2

/-- The code of `ConnectionLost` (R260). -/
def connectionLostCode : Nat := 3

/-- Classification of the parse state a wait loop ended in (42_wait_loop.md R175). -/
def classify : ParseState → WaitOutcome
  | .completed => .success
  | .invalid => .invalidFrame
  | .awaitFirstSync => .timeout
  | .awaitSecondSync => .timeout
  | .processing => .timeout

/-- `PS` is terminal (10_state.md R30). -/
def ParseState.terminal : ParseState → Bool
  | .completed => true
  | .invalid => true
  | .awaitFirstSync => false
  | .awaitSecondSync => false
  | .processing => false

/-- `STAT.faulted`: "(timeout OR invalid) on the most recent cycle" (R33, 44_statistics.md R211). -/
def faultedOf (timedOut invalid : Bool) : Bool := timedOut || invalid

/-- The safety disable's condition, non-strict: `abs(p) >= disableAngle` (43_control_law.md R187). -/
def safetyDisable (p disableAngle : F) : Bool := Bin32.le disableAngle (Bin32.abs p)

/-- The test that selects the non-negative `SETV` form: `vp >= 0.0`, true of -0.0 (40_tx_encoder.md R123, R125). -/
def nonNegative (vp : F) : Bool := Bin32.le 0 vp

end Sys2Proof.Machine
end

