-- ==== Sys2Proof/Machine/Operands.lean ====
section
/-! DEFINITION. Operand forms: the readings of a 16-bit word, the conversion of the five words of a `STATE` frame, the
voltage operand of `SETV`, and the legal values of the setters. -/

namespace Sys2Proof.Machine

/-- `u16(w)` (00_scope.md R11). -/
def u16 (w : Word) : Int := (w.toNat : Int)

/-- `s16(w)`, two's complement (R11, D39). -/
def s16 (w : Word) : Int := if w.toNat < 32768 then (w.toNat : Int) else (w.toNat : Int) - 65536

/-- `DIR` as an integer, +1 or -1 (10_state.md R27). -/
def dirInt : Direction → Int
  | .plus => 1
  | .minus => -1

/-- `toF(DIR)` (R27). -/
def dirF (d : Direction) : F := Bin32.toF (dirInt d)

/-- The signed-centered transform `sc(w)`; the subtraction is on integers (41_rx_decoder.md R150). -/
def signedCentered (lit : Literals) (w : Word) : F := Bin32.div (Bin32.toF (u16 w - lit.posZero)) lit.posScale

/-- `new.position`, direction-corrected, one division by 512 (R150; 90_conflicts.md C10). -/
def newPosition (lit : Literals) (d : Direction) (w : Word) : F := Bin32.mul (signedCentered lit w) (dirF d)

/-- `new.current` (R150). -/
def newCurrent (cfg : Cfg) (w : Word) : F := Bin32.mul (Bin32.toF (u16 w)) cfg.currentScale

/-- `new.backEmf`; no direction is applied (R150). -/
def newBackEmf (lit : Literals) (w : Word) : F := signedCentered lit w

/-- `new.supply` (R150). -/
def newSupply (cfg : Cfg) (w : Word) : F := Bin32.mul (Bin32.toF (u16 w)) cfg.voltageScale

/-- `new.temperature` (R150). -/
def newTemperature (lit : Literals) (w : Word) : F := Bin32.div (Bin32.toF (s16 w)) lit.tempDiv

/-- The clamped, direction-corrected voltage `vp` of the encoder (40_tx_encoder.md R123). With a `V_ENCODE_LIMIT` below
0 the clamp's precondition fails and its value is free (DESIGN CHOICE; log 27). -/
def encodedVoltage (lit : Literals) (d : Direction) (v : F) : F :=
  Bin32.mul (Bin32.clamp v (Bin32.neg lit.vEncodeLimit) lit.vEncodeLimit) (dirF d)

/-- A rounded magnitude as a payload byte (R123: 0 to 128). One that fits no byte, which a `V_ENCODE_LIMIT` above 1.0
allows, has no payload in the spec: the byte is free (DESIGN CHOICE; log 27). -/
def payloadByte (mag : Int) : Byte :=
  if 0 ≤ mag ∧ mag ≤ 255 then BitVec.ofInt 8 mag else Config.payloadOpen mag

/-- The payload byte `mag` of a voltage `vp` (R123, R124). -/
def magOf (lit : Literals) (vp : F) : Byte :=
  payloadByte (Bin32.roundHafz (Bin32.mul (Bin32.abs vp) lit.magScale))

/-- The number of a mode (10_state.md R26, R36). -/
def modeNumber : Mode → Nat
  | .disabled => 0
  | .voltage => 1
  | .position => 2
  | .currentShapingLimiter => 3

/-- The mode a number stands for: the legal operands of `SET MODE` (45_host_ops.md R231). -/
def modeOfNumber (m : Int) : Option Mode :=
  if m = 0 then some .disabled
  else if m = 1 then some .voltage
  else if m = 2 then some .position
  else if m = 3 then some .currentShapingLimiter
  else none

/-- The legal operands of `SET DIR` (R233). -/
def dirOfInt (d : Int) : Option Direction :=
  if d = 1 then some .plus else if d = -1 then some .minus else none

/-- The legal operands of an `F`-valued setter: neither a NaN nor an infinity (R232). -/
def legalNum (v : F) : Bool := Bin32.isFinite v

end Sys2Proof.Machine
end

