-- ==== Sys2Proof/WellFormed.lean ====
section
/-! DEFINITION. Which terms of `Instr` stand for an encoding of the spec. -/

namespace Sys2Proof

/-- The checks of a well-formed instruction: the magnitude of a `SETV` frame is 0 to 128 (30_encoding.md R100), and
the command byte of an `RXUNK` is neither of the two legal ones (R99). Every other operand is free; an illegal value
of `SET MODE` or `SET DIR` is refused by the operation, not by its form (45_host_ops.md R231, R233). -/
def Instr.wellFormed : Instr → Bool
  | .setvPos _ mag _ => decide (mag.toNat ≤ 128)
  | .setvNeg _ mag _ => decide (mag.toNat ≤ 128)
  | .rxunk cmd => cmd != Cfg.cmdState && cmd != Cfg.cmdPingReply
  | .pingreq _ _ | .datareq _ _ | .toggle _ _ => true
  | .state _ _ _ _ _ _ _ | .pingreply _ _ => true
  | .ping _ | .runcycle _ | .evalctrl => true
  | .getMode | .getDir | .getMotorId => true
  | .getTargetVoltage | .getTargetPosition | .getTargetCslMode | .getTargetCslFeedback => true
  | .getLimitLow | .getLimitHigh | .getProportionalGain | .getDisableAngle => true
  | .setMode _ | .setDir _ => true
  | .setTargetVoltage _ | .setTargetPosition _ | .setTargetCslMode _ | .setTargetCslFeedback _ => true
  | .setLimitLow _ | .setLimitHigh _ | .setProportionalGain _ | .setDisableAngle _ => true
  | .getsnapshot | .getstats | .resetstats => true

/-- `i` is well formed. -/
abbrev Instr.WellFormed (i : Instr) : Prop := i.wellFormed = true

end Sys2Proof
end

