-- ==== Sys2Proof/Decode.lean ====
section
/-! DEFINITION. Reading and writing the encodings of 30_encoding.md: the decoder, total on any request, and the
encoder; and how a word of spec/opcode_table.json is laid out in bytes. -/

namespace Sys2Proof

/-- Why a request is no row of the opcode table. -/
inductive DecodeError where
  /-- no operation of R103 has this code -/
  | unknownOperation
  /-- `GET` or `SET` of a register number above 10 (45_host_ops.md R230, R242) -/
  | noSuchRegister
  /-- `SET` of register 10, `MOTOR_ID` (R242) -/
  | readOnlyRegister
  /-- `SET MODE` or `SET DIR` of a value of `F`, which is no mode and no direction (R231, R233, 60_exceptions.md R265;
  log 17) -/
  | illegalValue
  /-- the operand is of another kind than the operation takes, or a timeout below 0 (log 17) -/
  | badOperand
  /-- a frame that does not begin with the two sync bytes (R91) -/
  | noSync
  /-- an outbound frame with a command byte the block never emits (R102) -/
  | unknownCommand
  /-- a frame of another length than its command byte gives (R101) -/
  | badLength
  /-- a `SETV` frame whose magnitude is above 128 (R100; log 25) -/
  | magOutOfRange
  deriving DecidableEq, Repr

/-- `hi` and `lo` as one word, `hi` in the upper bits (00_scope.md R11; 20_memory.md R75). -/
def wordOf (hi lo : Byte) : Word := hi ++ lo

/-- The byte of a word that is sent first, bits 15 to 8 (R75). -/
def hiByte (w : Word) : Byte := w.extractLsb' 8 8

/-- The byte of a word that is sent second, bits 7 to 0 (R75). -/
def loByte (w : Word) : Byte := w.extractLsb' 0 8

/-- The bytes of a word on the wire, high byte first (R75). -/
def wordBytes (w : Word) : List Byte := [hiByte w, loByte w]

/-- A frame on the wire: the sync pair, then the body (R91). -/
def framed (body : List Byte) : List Byte := Cfg.syncByte :: Cfg.syncByte :: body

/-- The body of a `STATE` frame, thirteen bytes (R97). -/
def stateBody (id : Byte) (w0 w1 w2 w3 w4 : Word) (ck : Byte) : List Byte :=
  [Cfg.cmdState, id, hiByte w0, loByte w0, hiByte w1, loByte w1, hiByte w2, loByte w2, hiByte w3, loByte w3,
    hiByte w4, loByte w4, ck]

/-- The body of a `PINGREPLY` frame, three bytes (R98). -/
def pingReplyBody (id ck : Byte) : List Byte := [Cfg.cmdPingReply, id, ck]

/-- An outbound frame of five bytes: the command bytes without payload (R92, R93, R96). -/
def decodeTxPlain (cmd id ck : Byte) : Except DecodeError Instr :=
  if cmd = Cfg.cmdPing then .ok (.pingreq id ck)
  else if cmd = Cfg.cmdDataReq then .ok (.datareq id ck)
  else if cmd = Cfg.cmdToggle then .ok (.toggle id ck)
  else if cmd = Cfg.cmdSetVPos ∨ cmd = Cfg.cmdSetVNeg then .error .badLength
  else .error .unknownCommand

/-- An outbound frame of six bytes: the two `SETV` forms (R94, R95). -/
def decodeTxVoltage (cmd id mag ck : Byte) : Except DecodeError Instr :=
  if cmd = Cfg.cmdSetVPos then if mag.toNat ≤ 128 then .ok (.setvPos id mag ck) else .error .magOutOfRange
  else if cmd = Cfg.cmdSetVNeg then if mag.toNat ≤ 128 then .ok (.setvNeg id mag ck) else .error .magOutOfRange
  else if cmd = Cfg.cmdPing ∨ cmd = Cfg.cmdDataReq ∨ cmd = Cfg.cmdToggle then .error .badLength
  else .error .unknownCommand

/-- An outbound frame (R91 to R96). -/
def decodeTx : List Byte → Except DecodeError Instr
  | [s0, s1, cmd, id, ck] =>
    if s0 = Cfg.syncByte ∧ s1 = Cfg.syncByte then decodeTxPlain cmd id ck else .error .noSync
  | [s0, s1, cmd, id, mag, ck] =>
    if s0 = Cfg.syncByte ∧ s1 = Cfg.syncByte then decodeTxVoltage cmd id mag ck else .error .noSync
  | _ => .error .badLength

/-- The body of an inbound frame, kind and length told from the command byte alone (R97 to R99, R101). -/
def decodeRxBody (cmd : Byte) (rest : List Byte) : Except DecodeError Instr :=
  if cmd = Cfg.cmdState then
    match rest with
    | [id, p1, p0, c1, c0, b1, b0, v1, v0, t1, t0, ck] =>
      .ok (.state id (wordOf p1 p0) (wordOf c1 c0) (wordOf b1 b0) (wordOf v1 v0) (wordOf t1 t0) ck)
    | _ => .error .badLength
  else if cmd = Cfg.cmdPingReply then
    match rest with
    | [id, ck] => .ok (.pingreply id ck)
    | _ => .error .badLength
  else
    match rest with
    | [] => .ok (.rxunk cmd)
    | _ => .error .badLength

/-- An inbound frame (R91, R97 to R99). -/
def decodeRx : List Byte → Except DecodeError Instr
  | s0 :: s1 :: cmd :: rest =>
    if s0 = Cfg.syncByte ∧ s1 = Cfg.syncByte then decodeRxBody cmd rest else .error .noSync
  | _ => .error .badLength

/-- The timeout operand of `PING` and `RUNCYCLE`: any natural number (R103), with the default of R105 when absent. -/
def timeoutOperand (default : Nat) (mk : Nat → Instr) : Operand → Except DecodeError Instr
  | .absent => .ok (mk default)
  | .int (.ofNat n) => .ok (mk n)
  | .int (.negSucc _) => .error .badOperand
  | .num _ => .error .badOperand

/-- The mode operand of `SET MODE`: any integer, since a value outside 0 to 3 is refused by the operation
(45_host_ops.md R231); absent it reads 0 (log 17). -/
def modeOperand : Operand → Except DecodeError Instr
  | .absent => .ok (.setMode 0)
  | .int m => .ok (.setMode m)
  | .num _ => .error .illegalValue

/-- The direction operand of `SET DIR`: any integer, since a value other than +1 and -1 is refused by the operation
(R233); absent it reads +1 (log 17). -/
def dirOperand : Operand → Except DecodeError Instr
  | .absent => .ok (.setDir 1)
  | .int d => .ok (.setDir d)
  | .num _ => .error .illegalValue

/-- The operand of an `F`-valued setter (R103); absent it reads +0.0 (log 17). -/
def numOperand (mk : F → Instr) : Operand → Except DecodeError Instr
  | .absent => .ok (mk 0)
  | .num v => .ok (mk v)
  | .int _ => .error .badOperand

/-- An operation without operand (R103). -/
def noOperand (i : Instr) : Operand → Except DecodeError Instr
  | .absent => .ok i
  | .int _ => .error .badOperand
  | .num _ => .error .badOperand

/-- `GET r`, operation 0x04 followed by the register number (10_state.md R36, 45_host_ops.md R230). -/
def decodeGet (r : Byte) (op : Operand) : Except DecodeError Instr :=
  if r = 0x00 then noOperand .getMode op
  else if r = 0x01 then noOperand .getDir op
  else if r = 0x02 then noOperand .getTargetVoltage op
  else if r = 0x03 then noOperand .getTargetPosition op
  else if r = 0x04 then noOperand .getTargetCslMode op
  else if r = 0x05 then noOperand .getTargetCslFeedback op
  else if r = 0x06 then noOperand .getLimitLow op
  else if r = 0x07 then noOperand .getLimitHigh op
  else if r = 0x08 then noOperand .getProportionalGain op
  else if r = 0x09 then noOperand .getDisableAngle op
  else if r = 0x0A then noOperand .getMotorId op
  else .error .noSuchRegister

/-- `SET r, v`, operation 0x05 followed by the register number (R36, R231 to R242). -/
def decodeSet (r : Byte) (op : Operand) : Except DecodeError Instr :=
  if r = 0x00 then modeOperand op
  else if r = 0x01 then dirOperand op
  else if r = 0x02 then numOperand .setTargetVoltage op
  else if r = 0x03 then numOperand .setTargetPosition op
  else if r = 0x04 then numOperand .setTargetCslMode op
  else if r = 0x05 then numOperand .setTargetCslFeedback op
  else if r = 0x06 then numOperand .setLimitLow op
  else if r = 0x07 then numOperand .setLimitHigh op
  else if r = 0x08 then numOperand .setProportionalGain op
  else if r = 0x09 then numOperand .setDisableAngle op
  else if r = 0x0A then .error .readOnlyRegister
  else .error .noSuchRegister

/-- A host operation of one code byte (R103). -/
def decodeHop1 (lit : Literals) (c : Byte) (op : Operand) : Except DecodeError Instr :=
  if c = 0x01 then timeoutOperand lit.tmoPingDefault .ping op
  else if c = 0x02 then timeoutOperand lit.tmoCycleDefault .runcycle op
  else if c = 0x03 then noOperand .evalctrl op
  else if c = 0x06 then noOperand .getsnapshot op
  else if c = 0x07 then noOperand .getstats op
  else if c = 0x08 then noOperand .resetstats op
  else .error .unknownOperation

/-- A host operation (R103). -/
def decodeHop (lit : Literals) (code : List Byte) (op : Operand) : Except DecodeError Instr :=
  match code with
  | [c] => decodeHop1 lit c op
  | [c, r] =>
    if c = 0x04 then decodeGet r op
    else if c = 0x05 then decodeSet r op
    else .error .unknownOperation
  | _ => .error .unknownOperation

/-- The decoder: total, rejecting by name (R90). The default timeouts of R105 are parameters (00_scope.md R8). -/
def decode (lit : Literals) : Request → Except DecodeError Instr
  | .hop code op => decodeHop lit code op
  | .txf bytes => decodeTx bytes
  | .rxf bytes => decodeRx bytes

/-- The encoder: the request that stands for an instruction, written from R92 to R99 and R103. -/
def encode : Instr → Request
  | .pingreq id ck => .txf (framed [Cfg.cmdPing, id, ck])
  | .datareq id ck => .txf (framed [Cfg.cmdDataReq, id, ck])
  | .setvPos id mag ck => .txf (framed [Cfg.cmdSetVPos, id, mag, ck])
  | .setvNeg id mag ck => .txf (framed [Cfg.cmdSetVNeg, id, mag, ck])
  | .toggle id ck => .txf (framed [Cfg.cmdToggle, id, ck])
  | .state id w0 w1 w2 w3 w4 ck => .rxf (framed (stateBody id w0 w1 w2 w3 w4 ck))
  | .pingreply id ck => .rxf (framed (pingReplyBody id ck))
  | .rxunk cmd => .rxf (framed [cmd])
  | .ping t => .hop [0x01] (.int t)
  | .runcycle t => .hop [0x02] (.int t)
  | .evalctrl => .hop [0x03] .absent
  | .getMode => .hop [0x04, 0x00] .absent
  | .getDir => .hop [0x04, 0x01] .absent
  | .getTargetVoltage => .hop [0x04, 0x02] .absent
  | .getTargetPosition => .hop [0x04, 0x03] .absent
  | .getTargetCslMode => .hop [0x04, 0x04] .absent
  | .getTargetCslFeedback => .hop [0x04, 0x05] .absent
  | .getLimitLow => .hop [0x04, 0x06] .absent
  | .getLimitHigh => .hop [0x04, 0x07] .absent
  | .getProportionalGain => .hop [0x04, 0x08] .absent
  | .getDisableAngle => .hop [0x04, 0x09] .absent
  | .getMotorId => .hop [0x04, 0x0A] .absent
  | .setMode m => .hop [0x05, 0x00] (.int m)
  | .setDir d => .hop [0x05, 0x01] (.int d)
  | .setTargetVoltage v => .hop [0x05, 0x02] (.num v)
  | .setTargetPosition v => .hop [0x05, 0x03] (.num v)
  | .setTargetCslMode v => .hop [0x05, 0x04] (.num v)
  | .setTargetCslFeedback v => .hop [0x05, 0x05] (.num v)
  | .setLimitLow v => .hop [0x05, 0x06] (.num v)
  | .setLimitHigh v => .hop [0x05, 0x07] (.num v)
  | .setProportionalGain v => .hop [0x05, 0x08] (.num v)
  | .setDisableAngle v => .hop [0x05, 0x09] (.num v)
  | .getsnapshot => .hop [0x06] .absent
  | .getstats => .hop [0x07] .absent
  | .resetstats => .hop [0x08] .absent

/-- How many bytes the frame with this command byte has: told from the command byte alone (R80, R101). An `RXUNK`
counts three, its sync pair and command byte: nothing after it is read (R99). -/
def frameLength (cmd : Byte) : Nat :=
  if cmd = Cfg.cmdState then Cfg.stateLength + 2
  else if cmd = Cfg.cmdPingReply then Cfg.pingReplyLength + 2
  else if cmd = Cfg.cmdSetVPos ∨ cmd = Cfg.cmdSetVNeg then 6
  else if cmd = Cfg.cmdPing ∨ cmd = Cfg.cmdDataReq ∨ cmd = Cfg.cmdToggle then 5
  else 3

/-- Byte `k` counted from the byte at bits 7 to 0 of a number. -/
def numberByte (w k : Nat) : Byte := BitVec.ofNat 8 (w / 2 ^ (8 * k))

/-- The bytes of a frame from its table word: the fixed leading 24 bits stand first byte most significant
(30_encoding.md R106), and the bits from 24 up are the bytes after them (log 18). -/
def tableFrame (w : Nat) : List Byte :=
  [numberByte w 2, numberByte w 1, numberByte w 0] ++
    (List.range (frameLength (numberByte w 0) - 3)).map fun k => numberByte w (k + 3)

/-- A row's word as the decoder reads it (log 18): one or two code bytes of a host operation, first byte most
significant and its operand absent, else a frame, outbound for the command bytes the block emits (R102)
and inbound for the others. -/
def tableRequest (nbits w : Nat) : Request :=
  if nbits ≤ 8 then .hop [numberByte w 0] .absent
  else if nbits ≤ 16 then .hop [numberByte w 1, numberByte w 0] .absent
  else
    let cmd := numberByte w 0
    if cmd ∈ [Cfg.cmdPing, Cfg.cmdDataReq, Cfg.cmdSetVPos, Cfg.cmdSetVNeg, Cfg.cmdToggle] then
      .txf (tableFrame w)
    else .rxf (tableFrame w)

/-- The instruction the decoder reads from an instruction whose bits are `w`, numbered as the opcode table numbers
them (30_encoding.md R106; log 18). -/
def decodeTableWord (nbits w : Nat) : Option Instr :=
  match decode Literals.source (tableRequest nbits w) with
  | .ok i => some i
  | .error _ => none

end Sys2Proof
end

