-- ==== Sys2Proof/Machine/Checksum.lean ====
section
/-! DEFINITION. The checksum collaborators `CK` (20_memory.md R72, R73). -/

namespace Sys2Proof.Machine

/-- `CK_SUM8`: the byte sum, sync bytes outside it (R73). -/
def ckSum8 : Ck where
  init := 0
  feed acc b := (acc + b.toNat) % 256
  sync acc := acc
  valid acc := acc == 0
  trailer acc := BitVec.ofNat 8 (256 - acc % 256)

/-- `CK_SUM8_SYNC`: the same with the sync bytes fed (R73). -/
def ckSum8Sync : Ck where
  init := 0
  feed acc b := (acc + b.toNat) % 256
  sync acc := (acc + Cfg.syncByte.toNat) % 256
  valid acc := acc == 0
  trailer acc := BitVec.ofNat 8 (256 - acc % 256)

/-- The collaborator of an instance. The device's own is abstract (93_implementation_defined.md U1; log 6). -/
def ckOf : CkKind → Ck
  | .sum8 => ckSum8
  | .sum8Sync => ckSum8Sync
  | .external => Config.externalCk

/-- The accumulator after the bytes of `bs` are fed in order. -/
def ckFeedAll (c : Ck) (acc : Nat) (bs : List Byte) : Nat := bs.foldl c.feed acc

/-- The accumulator at the first body byte of every frame, "the constant CK.sync(CK.sync(CK.init))" (R72). -/
def ckBodyStart (c : Ck) : Nat := c.sync (c.sync c.init)

end Sys2Proof.Machine
end

