-- ==== Sys2Proof/Machine/Ops.lean ====
section
/-! DEFINITION. The named operations over the state: the eleven primitives of the byte-channel collaborator
(20_memory.md R60 to R71), the word read and the sync step built on them, the hand-over of a frame to the transport
with the block's one raising outcome, and the fetching of a request. A primitive with a precondition answers `none`
where it is broken (R63 to R65, R84; 93_implementation_defined.md U10). -/

namespace Sys2Proof.Machine

/-- The checksum collaborator of the instance. -/
def State.checksum (s : State) : Ck := ckOf s.cfg.ck

/-- `QEmpty()` (R61). -/
def qEmpty (s : State) : Bool := s.rxq.length == 0

/-- `QLen()` (R62). -/
def qLen (s : State) : Nat := s.rxq.length

/-- `QFront()`: peek, nothing changes (R63). -/
def qFront (s : State) : Option Byte := s.rxq.head?

/-- `QPop()`: the head is lost, `CKACC` is not touched (R64). -/
def qPop (s : State) : Option State :=
  match s.rxq with
  | [] => none
  | _ :: rest => some { s with rxq := rest }

/-- `QTake()`: the head is removed and fed to the accumulator (R65). -/
def qTake (s : State) : Option (Byte × State) :=
  match s.rxq with
  | [] => none
  | b :: rest => some (b, { s with rxq := rest, ckAcc := s.checksum.feed s.ckAcc b })

/-- `QTakeWord()`: two takes, the first byte high (R75). -/
def qTakeWord (s : State) : Option (Word × State) :=
  match qTake s with
  | none => none
  | some (hi, s1) =>
    match qTake s1 with
    | none => none
    | some (lo, s2) => some (wordOf hi lo, s2)

/-- `QSync()`: a matched sync byte is removed and `CK.sync` applied (41_rx_decoder.md R157). -/
def qSync (s : State) : Option State :=
  match s.rxq with
  | [] => none
  | _ :: rest => some { s with rxq := rest, ckAcc := s.checksum.sync s.ckAcc }

/-- `CkReset()` (R66). -/
def ckReset (s : State) : State := { s with ckAcc := s.checksum.init }

/-- `CkValid()`, a query (R67). -/
def ckValid (s : State) : Bool := s.checksum.valid s.ckAcc

/-- `TxEnqueue(bytes)` (R68). -/
def txEnqueue (bytes : List Byte) (s : State) : State := { s with txq := s.txq ++ bytes }

/-- The count LINE accepts at the next `TxSend()`: its choice, between 0 and `len(TXQ)` (R69), all bytes where the
oracle says nothing (30_encoding.md R104; log 3). -/
def sendCount (s : State) : Nat :=
  match s.lineAccepts with
  | [] => s.txq.length
  | n :: _ => min n s.txq.length

/-- `TxSend()`: the count of bytes LINE accepted, which go from `TXQ` to `TXLOG` in order (R69). -/
def txSend (s : State) : Nat × State :=
  (sendCount s,
    { s with
      txLog := s.txLog ++ s.txq.take (sendCount s)
      txq := s.txq.drop (sendCount s)
      lineAccepts := s.lineAccepts.tail })

/-- `Wait(n)`: no effect on this state (R70). -/
def wait (_n : Nat) (s : State) : State := s

/-- The bytes LINE appends at the next `Poll()`: the oracle's list, nothing where it is exhausted (R104; log 3), cut
to what the queue has room for (R71; 93_implementation_defined.md U5; log 20). -/
def pollChunk (s : State) : List Byte :=
  match s.cfg.rxqCap with
  | none => s.lineChunks.head?.getD []
  | some cap => (s.lineChunks.head?.getD []).take (cap - s.rxq.length)

/-- `Poll()`: the only place bytes enter `RXQ` (R71). -/
def poll (s : State) : State :=
  { s with rxq := s.rxq ++ pollChunk s, lineChunks := s.lineChunks.tail }

/-- `Frame(cmd, payload)`: sync pair, command, `MOTOR_ID`, payload, trailer over all of the body, with an accumulator
of its own (40_tx_encoder.md R122). -/
def frame (cfg : Cfg) (cmd : Byte) (payload : List Byte) : List Byte :=
  let body := [cmd, cfg.motorId] ++ payload
  [Cfg.syncByte, Cfg.syncByte] ++ body ++
    [(ckOf cfg.ck).trailer (ckFeedAll (ckOf cfg.ck) (ckBodyStart (ckOf cfg.ck)) body)]

/-- Raising `ConnectionLost(sent, wanted)`: the sticky flag is set and the error is the result of the host operation
(60_exceptions.md R264, 40_tx_encoder.md R128; log 13). The block's only raising outcome. -/
def raiseConnectionLost (sent wanted : Nat) (s : State) : State :=
  { s with connLost := true, result := .connectionLost sent wanted }

/-- How a send ended. -/
inductive SendResult where
  /-- the whole frame was accepted -/
  | sent (s : State)
  /-- `ConnectionLost` was raised; the host operation ends here -/
  | lost (s : State)
  deriving DecidableEq, Repr

/-- `SendFrame(bytes)` (R127, R128). -/
def sendFrame (bytes : List Byte) (s : State) : SendResult :=
  let (n, s1) := txSend (txEnqueue bytes s)
  if n = bytes.length then .sent s1 else .lost (raiseConnectionLost n bytes.length s1)

/-- The state after a send that may have raised. -/
def SendResult.state : SendResult → State
  | .sent s => s
  | .lost s => s

/-- Fetching: what is executed next and the state from which it runs. A frame row comes before HOST's operations; with
none, as after reset, it is HOST's next operation (00_scope.md R10, R311; log 2). -/
def fetch (s : State) : Option (Request × State) :=
  match s.frameRows with
  | row :: rest => some (row.request, { s with frameRows := rest })
  | [] =>
    match s.requests with
    | r :: rest => some (r.request, { s with requests := rest })
    | [] => none

/-- The refusal of a request that is no row of the opcode table (45_host_ops.md R230, R242; log 12). -/
def refusalOf : DecodeError → Refusal
  | .noSuchRegister => .noSuchRegister
  | .readOnlyRegister => .readOnlyRegister
  | .illegalValue => .illegalValue
  | .unknownOperation => .notAnInstruction
  | .badOperand => .notAnInstruction
  | .noSync => .notAnInstruction
  | .unknownCommand => .notAnInstruction
  | .badLength => .notAnInstruction
  | .magOutOfRange => .notAnInstruction

/-- What HOST does with a refused request: it is rejected "without changing state" (60_exceptions.md R265) and HOST
goes on to its next one. Not a step of the block (log 12). -/
def State.rejectRequest (s : State) : State :=
  match s.frameRows with
  | _ :: rest => { s with frameRows := rest }
  | [] => { s with requests := s.requests.tail }

end Sys2Proof.Machine
end

