-- ==== Sys2Proof/Machine/ControlLaw.lean ====
section
/-! DEFINITION. The control law evaluator (43_control_law.md). -/

namespace Sys2Proof.Machine

/-- The mode after the safety disable (R187). -/
def disabledMode (s : State) : Mode :=
  if safetyDisable s.snap.position s.ctrl.disableAngle then .disabled else s.mode

/-- The clamped csl selector `m` (R188). -/
def cslSelector (c : Ctrl) : F := Bin32.clamp c.targetCslMode c.limitLow c.limitHigh

/-- The position gain `gi` (R188). -/
def gainGi (cfg : Cfg) (c : Ctrl) : F :=
  let m := cslSelector c
  Bin32.add (Bin32.mul cfg.lit.cslGainPos (Bin32.pospart m))
    (Bin32.mul cfg.lit.cslGainNeg (Bin32.negpart cfg.negpartNonpos m))

/-- The feedback gain `gf` (R188). -/
def gainGf (c : Ctrl) : F := Bin32.mul c.targetCslFeedback (Bin32.pospart (cslSelector c))

/-- The Position law: the error moves the clamped integral and, alone, the output (R190). -/
def positionLaw (p : F) (c : Ctrl) : Ctrl :=
  let e := Bin32.sub c.targetPosition p
  { c with
    integralError := Bin32.clamp (Bin32.add c.integralError e) c.limitLow c.limitHigh
    targetVoltage := Bin32.mul c.proportionalGain e }

/-- The one-sided anti-windup clamps of `z` towards `gi * p` (R192). -/
def windupClamp (gip p : F) (c : Ctrl) : F :=
  let z1 := if Bin32.lt c.limitHigh p then Bin32.fmin c.z gip else c.z
  if Bin32.lt p c.limitLow then Bin32.fmax z1 gip else z1

/-- The control value `u` (R193). -/
def cslControl (gip z : F) (c : Ctrl) : F :=
  Bin32.clamp (Bin32.add (Bin32.neg gip) z) c.limitLow c.limitHigh

/-- The current-shaping-limiter law (R192 to R194). -/
def cslLaw (lit : Literals) (gi gf p : F) (c : Ctrl) : Ctrl :=
  let gip := Bin32.mul gi p
  let u := cslControl gip (windupClamp gip p c) c
  { c with
    z := Bin32.add gip (Bin32.mul gf u)
    targetVoltage := Bin32.mul lit.cslOutGain u }

/-- The Position part: its law in `Position` mode, else the integral is zeroed (R190, R191). -/
def positionPart (m : Mode) (p : F) (c : Ctrl) : Ctrl :=
  match m with
  | .position => positionLaw p c
  | .disabled => { c with integralError := 0 }
  | .voltage => { c with integralError := 0 }
  | .currentShapingLimiter => { c with integralError := 0 }

/-- The csl part: its law in csl mode, else `z` tracks `gi * p` (R192 to R195). -/
def cslPart (lit : Literals) (m : Mode) (gi gf p : F) (c : Ctrl) : Ctrl :=
  match m with
  | .currentShapingLimiter => cslLaw lit gi gf p c
  | .disabled => { c with z := Bin32.mul gi p }
  | .voltage => { c with z := Bin32.mul gi p }
  | .position => { c with z := Bin32.mul gi p }

/-- The evaluation past its precondition: safety disable, gains, Position part, csl part, in this order (R185). -/
def evalControl (s : State) : State :=
  let p := s.snap.position
  let m := disabledMode s
  let gi := gainGi s.cfg s.ctrl
  let gf := gainGf s.ctrl
  { s with mode := m, ctrl := cslPart s.cfg.lit m gi gf p (positionPart m p s.ctrl) }

/-- HOP `EVALCTRL` (R185); an empty interval of limits is refused (R186). -/
def execEvalctrl (s : State) : Host.Outcome State Fault Refusal :=
  if Bin32.le s.ctrl.limitLow s.ctrl.limitHigh then .next { evalControl s with result := .none }
  else .refused .limitsInverted

end Sys2Proof.Machine
end

