-- ==== Sys2Proof/Machine/Statistics.lean ====
section
/-! DEFINITION. The statistics accumulator (44_statistics.md). -/

namespace Sys2Proof.Machine

/-- The zero state of `STAT` (R214; 70_reset_and_hazards.md R301). -/
def zeroStat : Stat :=
  { errorCount := 0, timeoutCount := 0, lastResponseTimeMicros := 0, avgResponseTimeMicros := 0,
    maxResponseTimeMicros := 0, faulted := false }

/-- The next average: two products, then one sum, each rounded (R212). -/
def nextAverage (lit : Literals) (avg : F) (elapsed : Nat) : F :=
  Bin32.add (Bin32.mul lit.emaKeep avg) (Bin32.mul lit.emaAlpha (Bin32.toF elapsed))

/-- `StatsUpdate(elapsed, timedOut, invalid)` (R211). -/
def statsUpdate (lit : Literals) (elapsed : Nat) (timedOut invalid : Bool) (t : Stat) : Stat :=
  { errorCount := if invalid then t.errorCount + 1 else t.errorCount
    timeoutCount := if timedOut then t.timeoutCount + 1 else t.timeoutCount
    faulted := faultedOf timedOut invalid
    lastResponseTimeMicros := elapsed
    avgResponseTimeMicros := nextAverage lit t.avgResponseTimeMicros elapsed
    maxResponseTimeMicros := max t.maxResponseTimeMicros elapsed }

/-- HOP `RESETSTATS`: all of `STAT` to the zero state, accepted in every state (R214). -/
def execResetstats (s : State) : Host.Outcome State Fault Refusal :=
  .next { s with stat := zeroStat, result := .none }

end Sys2Proof.Machine
end

