-- ==== Sys2Proof/Machine/TxEncoder.lean ====
section
/-! DEFINITION. The outgoing command encoder (40_tx_encoder.md): the four frame kinds, and the meanings of the five
TXF rows. A TXF row is its encoder rule: it forms the frame, "Reads: `MOTOR_ID`; Writes: nothing" of the block. What
transmits a frame is `PING` and `RUNCYCLE` alone (R120, R121, R123: "Emitted by"; R126: "Emitted by: nothing"). The
identifier and the checksum byte of a row are what the encoder forms (30_encoding.md R100), not operands it reads
(R120: "Operands: none"); the magnitude of a `SETV` row is its payload (log 15). -/

namespace Sys2Proof.Machine

/-- `EncodePing()` (R120). -/
def encodePing (cfg : Cfg) : List Byte := frame cfg Cfg.cmdPing []

/-- `EncodeDataReq()` (R121). -/
def encodeDataReq (cfg : Cfg) : List Byte := frame cfg Cfg.cmdDataReq []

/-- `EncodeToggle()` (R126). -/
def encodeToggle (cfg : Cfg) : List Byte := frame cfg Cfg.cmdToggle []

/-- `EncodeSetV(v)`: clamp, direction, sign into the command byte, magnitude into the payload (R123). -/
def encodeSetV (cfg : Cfg) (d : Direction) (v : F) : List Byte :=
  let vp := encodedVoltage cfg.lit d v
  frame cfg (if nonNegative vp then Cfg.cmdSetVPos else Cfg.cmdSetVNeg) [magOf cfg.lit vp]

/-- A TXF row executed on its own: the frame it forms is handed back, and nothing of the block changes. That the frame
is the result, in place of the one before, is the model's choice (DESIGN CHOICE; log 15, 26). -/
def formFrame (bytes : List Byte) (s : State) : Host.Outcome State Fault Refusal :=
  .next { s with result := .frame bytes }

/-- TXF `PINGREQ` (R120). -/
def execPingreq (_id _ck : Byte) (s : State) : Host.Outcome State Fault Refusal :=
  formFrame (encodePing s.cfg) s

/-- TXF `DATAREQ` (R121). -/
def execDatareq (_id _ck : Byte) (s : State) : Host.Outcome State Fault Refusal :=
  formFrame (encodeDataReq s.cfg) s

/-- TXF `SETV_POS`, the non-negative form (R123, 30_encoding.md R94). -/
def execSetvPos (_id mag _ck : Byte) (s : State) : Host.Outcome State Fault Refusal :=
  formFrame (frame s.cfg Cfg.cmdSetVPos [mag]) s

/-- TXF `SETV_NEG`, the negative form (R123, 30_encoding.md R95). -/
def execSetvNeg (_id mag _ck : Byte) (s : State) : Host.Outcome State Fault Refusal :=
  formFrame (frame s.cfg Cfg.cmdSetVNeg [mag]) s

/-- TXF `TOGGLE`, which nothing emits (R126). -/
def execToggle (_id _ck : Byte) (s : State) : Host.Outcome State Fault Refusal :=
  formFrame (encodeToggle s.cfg) s

end Sys2Proof.Machine
end

