-- ==== Sys2Proof/Machine/RxDecoder.lean ====
section
/-! DEFINITION. The frame decoder (41_rx_decoder.md): the decode step with its sync states, the three cases of
`Processing`, the commit and the drain. -/

namespace Sys2Proof.Machine

/-- The result of a decode step (R140). -/
inductive Progress where
  /-- something was consumed and `PS` is not terminal -/
  | more
  /-- nothing can be done until more bytes arrive -/
  | pending
  /-- `PS` is terminal -/
  | done
  deriving DecidableEq, Repr

/-- `Commit()`: the five frame-derived fields of `SNAP` from `STG`, in one action (R151, values R150);
`SNAP.outputVoltage` is not among them. -/
def commit (s : State) : State :=
  { s with
    snap :=
      { s.snap with
        position := newPosition s.cfg.lit s.dir s.stg.w0
        current := newCurrent s.cfg s.stg.w1
        backEmfVoltage := newBackEmf s.cfg.lit s.stg.w2
        supplyVoltage := newSupply s.cfg s.stg.w3
        temperatureC := newTemperature s.cfg.lit s.stg.w4 } }

/-- The verdict on a consumed `STATE` body: commit and `Completed`, or `Invalid` with `SNAP` untouched (R151, R152). -/
def stateVerdict (s : State) : State :=
  if s.stg.id = s.cfg.motorId ∧ ckValid s = true then { commit s with ps := .completed }
  else { s with ps := .invalid }

/-- The thirteen takes of a `STATE` body into `STG` (R149). -/
def takeState (s : State) : Option State := do
  let (_, s) ← qTake s
  let (id, s) ← qTake s
  let (w0, s) ← qTakeWord s
  let (w1, s) ← qTakeWord s
  let (w2, s) ← qTakeWord s
  let (w3, s) ← qTakeWord s
  let (w4, s) ← qTakeWord s
  let (_, s) ← qTake s
  return { s with stg := { id := id, w0 := w0, w1 := w1, w2 := w2, w3 := w3, w4 := w4 } }

/-- The verdict on a consumed `PINGREPLY` body with identifier `id` (R154). -/
def pingReplyVerdict (id : Byte) (s : State) : State :=
  if id = s.cfg.motorId ∧ ckValid s = true then { s with ps := .completed } else { s with ps := .invalid }

/-- The three takes of a `PINGREPLY` body: its identifier and the state after (R153). -/
def takePingReply (s : State) : Option (Byte × State) := do
  let (_, s) ← qTake s
  let (id, s) ← qTake s
  let (_, s) ← qTake s
  return (id, s)

/-- `Processing` with command byte `c` at the head (R147 to R155). -/
def processCommand (c : Byte) (s : State) : Option (Progress × State) :=
  if c = Cfg.cmdState then
    if qLen s < Cfg.stateLength then some (.pending, s)
    else (takeState s).map fun s1 => (.done, stateVerdict s1)
  else if c = Cfg.cmdPingReply then
    if qLen s < Cfg.pingReplyLength then some (.pending, s)
    else (takePingReply s).map fun (id, s1) => (.done, pingReplyVerdict id s1)
  else some (.done, { s with ps := .invalid })

/-- `DecodeStep()` (R141). `none` where a primitive would be called on an empty queue (R84; log 14). -/
def decodeStep (s : State) : Option (Progress × State) :=
  match s.ps with
  | .awaitFirstSync =>
    if qEmpty s then some (.pending, s)
    else
      match qFront s with
      | none => none
      | some b =>
        if b = Cfg.syncByte then
          (qSync (ckReset s)).map fun s1 => (.more, { s1 with ps := .awaitSecondSync })
        else (qPop s).map fun s1 => (.more, s1)
  | .awaitSecondSync =>
    if qEmpty s then some (.pending, s)
    else
      match qFront s with
      | none => none
      | some b =>
        if b = Cfg.syncByte then (qSync s).map fun s1 => (.more, { s1 with ps := .processing })
        else (qPop s).map fun s1 => (.more, { s1 with ps := .awaitFirstSync })
  | .processing =>
    if qEmpty s then some (.pending, s)
    else
      match qFront s with
      | none => none
      | some c => processCommand c s
  | .completed => some (.done, s)
  | .invalid => some (.done, s)

/-- Decode steps until one is not `More`, at most `fuel` of which are followed by another. -/
def drainSteps : Nat → State → Option (Progress × State)
  | 0, s => decodeStep s
  | fuel + 1, s =>
    match decodeStep s with
    | some (.more, s1) => drainSteps fuel s1
    | r => r

/-- `Drain()` (R161): every `More` removes one byte of `RXQ`, so its length bounds the steps that answer `More`. -/
def drain (s : State) : Option (Progress × State) := drainSteps (qLen s) s

end Sys2Proof.Machine
end

