-- ==== Sys2Proof/Machine/WaitLoop.lean ====
section
/-! DEFINITION. The response wait loop and its timeout counter (42_wait_loop.md). -/

namespace Sys2Proof.Machine

/-- The start of a wait: `PS` and `ELAPSED`, nothing else (R171). -/
def startWait (s : State) : State := { s with ps := .awaitFirstSync, elapsed := 0 }

/-- One wait and its count (R174). -/
def countWait (s : State) : State :=
  let s1 := wait 1 s
  { s1 with elapsed := s1.elapsed + 1 }

/-- The loop of R172: poll, drain, terminal test, budget test, wait, count. The recursion is on the waits the budget
still permits, so "`ELAPSED >= timeout`" is `0` waits left. -/
def waitLoop : Nat → State → Option State
  | 0, s => (drain (poll s)).map fun r => r.2
  | left + 1, s =>
    match drain (poll s) with
    | none => none
    | some (.done, s1) => some s1
    | some (_, s1) => waitLoop left (countWait s1)

/-- `WaitResponse(timeout)`: the outcome and the state after, whose `ELAPSED` is the final count (R170, R172, R175). -/
def waitResponse (timeout : Nat) (s : State) : Option (WaitOutcome × State) :=
  (waitLoop timeout (startWait s)).map fun s1 => (classify s1.ps, s1)

end Sys2Proof.Machine
end

