-- ==== Sys2Proof/Machine/HostOps.lean ====
section
/-! DEFINITION. The host operations that use the line, and the records (45_host_ops.md). -/

namespace Sys2Proof.Machine

/-- The frame a cycle sends: `DATAREQ` in `Disabled` mode, else the target voltage (R222). -/
def cycleFrame (s : State) : List Byte :=
  match s.mode with
  | .disabled => encodeDataReq s.cfg
  | .voltage => encodeSetV s.cfg s.dir s.ctrl.targetVoltage
  | .position => encodeSetV s.cfg s.dir s.ctrl.targetVoltage
  | .currentShapingLimiter => encodeSetV s.cfg s.dir s.ctrl.targetVoltage

/-- The end of a cycle: the statistics update and the returned copy (R221). -/
def finishCycle (o : WaitOutcome) (s : State) : State :=
  let t := statsUpdate s.cfg.lit s.elapsed (o == .timeout) (o == .invalidFrame) s.stat
  { s with stat := t, result := .stats t }

/-- The end of a ping: its boolean (R224). -/
def finishPing (o : WaitOutcome) (s : State) : State := { s with result := .bool (o == .success) }

/-- A line operation: the `CONNLOST` gate, the send, the wait, the end (R220, R221, R223, R224). -/
def lineOperation (bytes : List Byte) (timeout : Nat) (finish : WaitOutcome → State → State) (s : State) :
    Host.Outcome State Fault Refusal :=
  if s.connLost then .refused .connectionLost
  else
    match sendFrame bytes s with
    | .lost s1 => .next s1
    | .sent s1 =>
      match waitResponse timeout s1 with
      | none => .fault .emptyQueue
      | some (o, s2) => .next (finish o s2)

/-- HOP `PING timeout` (R224). -/
def execPing (timeout : Nat) (s : State) : Host.Outcome State Fault Refusal :=
  lineOperation (encodePing s.cfg) timeout finishPing s

/-- HOP `RUNCYCLE timeout` (R221). -/
def execRuncycle (timeout : Nat) (s : State) : Host.Outcome State Fault Refusal :=
  lineOperation (cycleFrame s) timeout finishCycle s

/-- HOP `GETSNAPSHOT`: a copy of `SNAP`, `outputVoltage` drawn afresh (R243; log 11). -/
def execGetsnapshot (s : State) : Host.Outcome State Fault Refusal :=
  .next
    { s with
      result := .snapshot { s.snap with outputVoltage := Config.anyF s.freeCount }
      freeCount := s.freeCount + 1 }

/-- HOP `GETSTATS`: a copy of `STAT` (R244). -/
def execGetstats (s : State) : Host.Outcome State Fault Refusal :=
  .next { s with result := .stats s.stat }

end Sys2Proof.Machine
end

