-- ==== Sys2Proof/Machine/Reception.lean ====
section
/-! DEFINITION. The meanings of the three RXF rows. A frame reaches the decoder only as bytes that LINE appends at the
tail of `RXQ` in a `Poll()` of a wait loop (10_state.md R40; 20_memory.md R71; 42_wait_loop.md R176). A row executed on
its own is the shortest such loop, one of budget 0: the start of a wait, one poll whose chunk is the frame, one drain,
no wait. That a row stands for this loop is the model's choice (DESIGN CHOICE; log 16). -/

namespace Sys2Proof.Machine

/-- A wait loop of budget 0 at whose only poll LINE appends `bytes` (42_wait_loop.md R172; log 16). -/
def receive (bytes : List Byte) (s : State) : Host.Outcome State Fault Refusal :=
  match waitResponse 0 { s with lineChunks := bytes :: s.lineChunks } with
  | some (_, s1) => .next s1
  | none => .fault .emptyQueue

/-- RXF `STATE` (41_rx_decoder.md R148 to R152). -/
def execState (id : Byte) (w0 w1 w2 w3 w4 : Word) (ck : Byte) (s : State) : Host.Outcome State Fault Refusal :=
  receive (framed (stateBody id w0 w1 w2 w3 w4 ck)) s

/-- RXF `PINGREPLY` (R153, R154). -/
def execPingreply (id ck : Byte) (s : State) : Host.Outcome State Fault Refusal :=
  receive (framed (pingReplyBody id ck)) s

/-- RXF `RXUNK`: immediately `Invalid`, the command byte stays in the queue (R155). -/
def execRxunk (cmd : Byte) (s : State) : Host.Outcome State Fault Refusal :=
  receive (framed [cmd]) s

end Sys2Proof.Machine
end

