-- ==== Sys2Proof/Machine/Registers.lean ====
section
/-! DEFINITION. Register access: `GET r` and `SET r, v` (45_host_ops.md R230 to R242), one meaning per register of
10_state.md R36. -/

namespace Sys2Proof.Machine

/-- A read: the value is the result, nothing else changes (R230). -/
def answer (r : HostResult) (s : State) : Host.Outcome State Fault Refusal := .next { s with result := r }

/-- A write of a register of `CTRL`: finite values are taken exactly, others refused (R232). -/
def writeNum (v : F) (write : Ctrl → Ctrl) (s : State) : Host.Outcome State Fault Refusal :=
  if legalNum v then .next { s with ctrl := write s.ctrl, result := .none } else .refused .illegalValue

/-- HOP `GET MODE` (R230). -/
def execGetMode (s : State) : Host.Outcome State Fault Refusal := answer (.mode s.mode) s

/-- HOP `GET DIR`: +1 or -1 (R230). -/
def execGetDir (s : State) : Host.Outcome State Fault Refusal := answer (.direction (dirInt s.dir)) s

/-- HOP `GET targetVoltage` (R230). -/
def execGetTargetVoltage (s : State) : Host.Outcome State Fault Refusal := answer (.num s.ctrl.targetVoltage) s

/-- HOP `GET targetPosition` (R230). -/
def execGetTargetPosition (s : State) : Host.Outcome State Fault Refusal := answer (.num s.ctrl.targetPosition) s

/-- HOP `GET targetCslMode` (R230). -/
def execGetTargetCslMode (s : State) : Host.Outcome State Fault Refusal := answer (.num s.ctrl.targetCslMode) s

/-- HOP `GET targetCslFeedback` (R230). -/
def execGetTargetCslFeedback (s : State) : Host.Outcome State Fault Refusal := answer (.num s.ctrl.targetCslFeedback) s

/-- HOP `GET limitLow` (R230). -/
def execGetLimitLow (s : State) : Host.Outcome State Fault Refusal := answer (.num s.ctrl.limitLow) s

/-- HOP `GET limitHigh` (R230). -/
def execGetLimitHigh (s : State) : Host.Outcome State Fault Refusal := answer (.num s.ctrl.limitHigh) s

/-- HOP `GET proportionalGain` (R230). -/
def execGetProportionalGain (s : State) : Host.Outcome State Fault Refusal := answer (.num s.ctrl.proportionalGain) s

/-- HOP `GET disableAngle` (R230). -/
def execGetDisableAngle (s : State) : Host.Outcome State Fault Refusal := answer (.num s.ctrl.disableAngle) s

/-- HOP `GET MOTOR_ID` (R230). -/
def execGetMotorId (s : State) : Host.Outcome State Fault Refusal := answer (.byte s.cfg.motorId) s

/-- HOP `SET MODE, m`: nothing but `MODE` changes; a value outside 0 to 3, below or above, is
refused (R231). -/
def execSetMode (m : Int) (s : State) : Host.Outcome State Fault Refusal :=
  match modeOfNumber m with
  | some mode => .next { s with mode := mode, result := .none }
  | none => .refused .illegalValue

/-- HOP `SET DIR, d`: +1 or -1, else refused; stored values keep their sign (R233). -/
def execSetDir (d : Int) (s : State) : Host.Outcome State Fault Refusal :=
  match dirOfInt d with
  | some dir => .next { s with dir := dir, result := .none }
  | none => .refused .illegalValue

/-- HOP `SET targetVoltage, v` (R234). -/
def execSetTargetVoltage (v : F) (s : State) : Host.Outcome State Fault Refusal :=
  writeNum v (fun c => { c with targetVoltage := v }) s

/-- HOP `SET targetPosition, v` (R235). -/
def execSetTargetPosition (v : F) (s : State) : Host.Outcome State Fault Refusal :=
  writeNum v (fun c => { c with targetPosition := v }) s

/-- HOP `SET targetCslMode, v` (R236). -/
def execSetTargetCslMode (v : F) (s : State) : Host.Outcome State Fault Refusal :=
  writeNum v (fun c => { c with targetCslMode := v }) s

/-- HOP `SET targetCslFeedback, v` (R237). -/
def execSetTargetCslFeedback (v : F) (s : State) : Host.Outcome State Fault Refusal :=
  writeNum v (fun c => { c with targetCslFeedback := v }) s

/-- HOP `SET limitLow, v` (R238). -/
def execSetLimitLow (v : F) (s : State) : Host.Outcome State Fault Refusal :=
  writeNum v (fun c => { c with limitLow := v }) s

/-- HOP `SET limitHigh, v` (R239). -/
def execSetLimitHigh (v : F) (s : State) : Host.Outcome State Fault Refusal :=
  writeNum v (fun c => { c with limitHigh := v }) s

/-- HOP `SET proportionalGain, v` (R240). -/
def execSetProportionalGain (v : F) (s : State) : Host.Outcome State Fault Refusal :=
  writeNum v (fun c => { c with proportionalGain := v }) s

/-- HOP `SET disableAngle, v` (R241). -/
def execSetDisableAngle (v : F) (s : State) : Host.Outcome State Fault Refusal :=
  writeNum v (fun c => { c with disableAngle := v }) s

end Sys2Proof.Machine
end

