-- ==== Sys2Proof/Machine/Dispatch.lean ====
section
/-! DEFINITION. One arm per instruction: the meaning it calls. -/

namespace Sys2Proof.Machine

def exec (i : Instr) (s : State) : Host.Outcome State Fault Refusal :=
  match i with
  | .pingreq id ck => Sys2Proof.Machine.execPingreq id ck s
  | .datareq id ck => Sys2Proof.Machine.execDatareq id ck s
  | .setvPos id mag ck => Sys2Proof.Machine.execSetvPos id mag ck s
  | .setvNeg id mag ck => Sys2Proof.Machine.execSetvNeg id mag ck s
  | .toggle id ck => Sys2Proof.Machine.execToggle id ck s
  | .state id w0 w1 w2 w3 w4 ck => Sys2Proof.Machine.execState id w0 w1 w2 w3 w4 ck s
  | .pingreply id ck => Sys2Proof.Machine.execPingreply id ck s
  | .rxunk cmd => Sys2Proof.Machine.execRxunk cmd s
  | .ping t => Sys2Proof.Machine.execPing t s
  | .runcycle t => Sys2Proof.Machine.execRuncycle t s
  | .evalctrl => Sys2Proof.Machine.execEvalctrl s
  | .getMode => Sys2Proof.Machine.execGetMode s
  | .getDir => Sys2Proof.Machine.execGetDir s
  | .getTargetVoltage => Sys2Proof.Machine.execGetTargetVoltage s
  | .getTargetPosition => Sys2Proof.Machine.execGetTargetPosition s
  | .getTargetCslMode => Sys2Proof.Machine.execGetTargetCslMode s
  | .getTargetCslFeedback => Sys2Proof.Machine.execGetTargetCslFeedback s
  | .getLimitLow => Sys2Proof.Machine.execGetLimitLow s
  | .getLimitHigh => Sys2Proof.Machine.execGetLimitHigh s
  | .getProportionalGain => Sys2Proof.Machine.execGetProportionalGain s
  | .getDisableAngle => Sys2Proof.Machine.execGetDisableAngle s
  | .getMotorId => Sys2Proof.Machine.execGetMotorId s
  | .setMode m => Sys2Proof.Machine.execSetMode m s
  | .setDir d => Sys2Proof.Machine.execSetDir d s
  | .setTargetVoltage v => Sys2Proof.Machine.execSetTargetVoltage v s
  | .setTargetPosition v => Sys2Proof.Machine.execSetTargetPosition v s
  | .setTargetCslMode v => Sys2Proof.Machine.execSetTargetCslMode v s
  | .setTargetCslFeedback v => Sys2Proof.Machine.execSetTargetCslFeedback v s
  | .setLimitLow v => Sys2Proof.Machine.execSetLimitLow v s
  | .setLimitHigh v => Sys2Proof.Machine.execSetLimitHigh v s
  | .setProportionalGain v => Sys2Proof.Machine.execSetProportionalGain v s
  | .setDisableAngle v => Sys2Proof.Machine.execSetDisableAngle v s
  | .getsnapshot => Sys2Proof.Machine.execGetsnapshot s
  | .getstats => Sys2Proof.Machine.execGetstats s
  | .resetstats => Sys2Proof.Machine.execResetstats s

end Sys2Proof.Machine
end

