-- ==== Sys2Proof/Machine/Step.lean ====
section
/-! DEFINITION. One step: a frame row, or what HOST asks for next, is fetched, decoded and executed. With neither the
block is idle (70_reset_and_hazards.md R303). -/

namespace Sys2Proof.Machine

/-- One step of the machine (00_scope.md R10; log 1, 2). -/
def step (s : State) : Host.Outcome State Fault Refusal :=
  match fetch s with
  | none => .next s
  | some (r, s1) =>
    match decode s.cfg.lit r with
    | .ok i => exec i s1
    | .error e => .refused (refusalOf e)

/-- `s` with the instruction of a table word as what runs next (log 2, 18): a frame row before all others, a host
operation as HOST's next with no frame row before it. -/
def State.withFetchWord (s : State) (nbits w : Nat) : State :=
  match tableRequest nbits w with
  | .hop code operand =>
    { s with frameRows := [], requests := { code := code, operand := operand } :: s.requests }
  | .txf frame => { s with frameRows := .txf frame :: s.frameRows }
  | .rxf frame => { s with frameRows := .rxf frame :: s.frameRows }

end Sys2Proof.Machine
end

