-- ==== Sys2Proof/Safety.lean ====
section
/-! DEFINITION. What counts as a well-behaved run, in the terms the statements use. -/

namespace Sys2Proof.Machine

/-- `t` differs from `s` at most in what the decoder and the wait loop write: `SNAP`, `PS`, `ELAPSED`, `STG`, `RXQ`,
`CKACC`, and LINE's chunks consumed (45_host_ops.md R221, R224). -/
def OnlyReceives (s t : State) : Prop :=
  t =
    { s with
      snap := t.snap
      ps := t.ps
      elapsed := t.elapsed
      stg := t.stg
      rxq := t.rxq
      ckAcc := t.ckAcc
      lineChunks := t.lineChunks }

/-- LINE accepts all of the next `n` bytes sent (20_memory.md R69): its oracle is silent or names at least `n`. -/
def AcceptsAll (s : State) (n : Nat) : Prop := ∀ k ∈ s.lineAccepts.head?, n ≤ k

/-- The queue has room for `n` more bytes: LINE delivers that many whole (20_memory.md R71). -/
def HasRoom (s : State) (n : Nat) : Prop := ∀ cap ∈ s.cfg.rxqCap, s.rxq.length + n ≤ cap

/-- What LINE appended at successive polls, `delivered`, of what the oracle holds for them, `chunks`: whole chunks
with an unbounded queue, else the part of each that found room (20_memory.md R71; log 20). -/
def Delivers (cap : Option Nat) (chunks delivered : List (List Byte)) : Prop :=
  List.Forall₂ (fun d c => d <+: c) delivered chunks ∧ (cap = none → delivered = chunks)

/-- An instance whose parameters have the source's values (00_scope.md R8, R9). -/
def SourceLiterals (cfg : Cfg) : Prop := cfg.lit = Literals.source

/-- `s` after the frame `bytes` was enqueued on an empty `TXQ` and accepted whole (40_tx_encoder.md R127). -/
def afterSend (bytes : List Byte) (s : State) : State :=
  { s with txLog := s.txLog ++ bytes, lineAccepts := s.lineAccepts.tail }

/-- `TXQ` is empty unless `CONNLOST` is set (10_state.md R42). -/
def TxIdle (s : State) : Prop := s.connLost = false → s.txq = []

/-- The command bytes and payload lengths of the frames of 30_encoding.md R92 to R96; `TOGGLE` only where allowed. -/
def OwnKind (toggle : Bool) (cmd : Byte) (payload : List Byte) : Prop :=
  (payload.length = 0 ∧ (cmd = Cfg.cmdPing ∨ cmd = Cfg.cmdDataReq ∨ (toggle = true ∧ cmd = Cfg.cmdToggle))) ∨
    (payload.length = 1 ∧ (cmd = Cfg.cmdSetVPos ∨ cmd = Cfg.cmdSetVNeg))

/-- A byte sequence that is a concatenation of whole frames of this instance (R102). -/
inductive FrameLog (cfg : Cfg) (toggle : Bool) : List Byte → Prop where
  | nil : FrameLog cfg toggle []
  | snoc (log : List Byte) (cmd : Byte) (payload : List Byte) :
      FrameLog cfg toggle log → OwnKind toggle cmd payload → FrameLog cfg toggle (log ++ frame cfg cmd payload)

/-- What the block transmitted, together with what a partial send left in `TXQ`, is whole frames (R102); `TXQ` is
empty unless the connection is lost. -/
def TransportInv (s : State) : Prop := TxIdle s ∧ FrameLog s.cfg true (s.txLog ++ s.txq)

/-- "the last response time is at most the maximum" (10_state.md R35, 44_statistics.md R215). -/
def StatInv (s : State) : Prop := s.stat.lastResponseTimeMicros ≤ s.stat.maxResponseTimeMicros

/-- The tunables that only `SET` writes are finite (10_state.md R38). -/
def TunablesFinite (s : State) : Prop :=
  Bin32.isFinite s.ctrl.targetPosition = true ∧ Bin32.isFinite s.ctrl.targetCslMode = true ∧
    Bin32.isFinite s.ctrl.targetCslFeedback = true ∧ Bin32.isFinite s.ctrl.limitLow = true ∧
    Bin32.isFinite s.ctrl.limitHigh = true ∧ Bin32.isFinite s.ctrl.proportionalGain = true ∧
    Bin32.isFinite s.ctrl.disableAngle = true

/-- HOST's next operation is `r`, with no frame row before it. -/
def NextRequest (s : State) (r : HostRequest) : Prop := s.frameRows = [] ∧ s.requests.head? = some r

/-- The host operations that use the line (45_host_ops.md section 1). -/
def IsLineOperation (i : Instr) : Prop := (∃ t, i = .ping t) ∨ ∃ t, i = .runcycle t

/-- The host operations with an operand beside their code bytes (30_encoding.md R103). -/
def takesOperand : Instr → Bool
  | .ping _ | .runcycle _ | .setMode _ | .setDir _ => true
  | .setTargetVoltage _ | .setTargetPosition _ | .setTargetCslMode _ | .setTargetCslFeedback _ => true
  | .setLimitLow _ | .setLimitHigh _ | .setProportionalGain _ | .setDisableAngle _ => true
  | .pingreq _ _ | .datareq _ _ | .setvPos _ _ _ | .setvNeg _ _ _ | .toggle _ _ => false
  | .state _ _ _ _ _ _ _ | .pingreply _ _ | .rxunk _ => false
  | .evalctrl | .getMode | .getDir | .getMotorId => false
  | .getTargetVoltage | .getTargetPosition | .getTargetCslMode | .getTargetCslFeedback => false
  | .getLimitLow | .getLimitHigh | .getProportionalGain | .getDisableAngle => false
  | .getsnapshot | .getstats | .resetstats => false

/-- The three formats of the opcode table (30_encoding.md R90). -/
inductive Format where
  | txf
  | rxf
  | hop
  deriving DecidableEq, Repr

/-- The format of a row. -/
def formatOf : Instr → Format
  | .pingreq _ _ | .datareq _ _ | .setvPos _ _ _ | .setvNeg _ _ _ | .toggle _ _ => .txf
  | .state _ _ _ _ _ _ _ | .pingreply _ _ | .rxunk _ => .rxf
  | .ping _ | .runcycle _ | .evalctrl => .hop
  | .getMode | .getDir | .getMotorId => .hop
  | .getTargetVoltage | .getTargetPosition | .getTargetCslMode | .getTargetCslFeedback => .hop
  | .getLimitLow | .getLimitHigh | .getProportionalGain | .getDisableAngle => .hop
  | .setMode _ | .setDir _ => .hop
  | .setTargetVoltage _ | .setTargetPosition _ | .setTargetCslMode _ | .setTargetCslFeedback _ => .hop
  | .setLimitLow _ | .setLimitHigh _ | .setProportionalGain _ | .setDisableAngle _ => .hop
  | .getsnapshot | .getstats | .resetstats => .hop

/-- `CONNLOST` of the state a step goes to, set to `b`; a fault or a refusal as it is. -/
def withConnLost (b : Bool) : Host.Outcome State Fault Refusal → Host.Outcome State Fault Refusal
  | .next t => .next { t with connLost := b }
  | .fault f => .fault f
  | .refused r => .refused r

/-- The other sign. -/
def oppositeDir : Direction → Direction
  | .plus => .minus
  | .minus => .plus

/-- `m` of the control law's pseudocode (43_control_law.md R185). -/
def lawSelector (s : State) : F := Bin32.clamp s.ctrl.targetCslMode s.ctrl.limitLow s.ctrl.limitHigh

/-- `gi` of the pseudocode: `(CSL_GAIN_POS * pospart(m)) + (CSL_GAIN_NEG * negpart(m))` (R185, 00_scope.md R8). -/
def lawGi (s : State) : F :=
  Bin32.add (Bin32.mul s.cfg.lit.cslGainPos (Bin32.pospart (lawSelector s)))
    (Bin32.mul s.cfg.lit.cslGainNeg (Bin32.negpart s.cfg.negpartNonpos (lawSelector s)))

/-- `gf` of the pseudocode: `targetCslFeedback * pospart(m)` (R185). -/
def lawGf (s : State) : F := Bin32.mul s.ctrl.targetCslFeedback (Bin32.pospart (lawSelector s))

/-- The product `gi * p` of the pseudocode (R185). -/
def lawTrack (s : State) : F := Bin32.mul (lawGi s) s.snap.position

/-- `z` after the two one-sided clamps of the pseudocode (R192). -/
def lawFilter (s : State) : F :=
  let p := s.snap.position
  let z1 := if Bin32.lt s.ctrl.limitHigh p then Bin32.fmin s.ctrl.z (lawTrack s) else s.ctrl.z
  if Bin32.lt p s.ctrl.limitLow then Bin32.fmax z1 (lawTrack s) else z1

/-- The sum `(-(gi * p)) + z` of the pseudocode, before its clamp (R193). -/
def lawSum (s : State) : F := Bin32.add (Bin32.neg (lawTrack s)) (lawFilter s)

/-- `limitLow <= limitHigh`, the precondition of `EVALCTRL` (R186). -/
def LimitsOrdered (s : State) : Prop := Bin32.le s.ctrl.limitLow s.ctrl.limitHigh = true

/-- `abs(p) >= disableAngle`, the condition of the safety disable (R187). -/
def BeyondDisableAngle (s : State) : Prop := Bin32.le s.ctrl.disableAngle (Bin32.abs s.snap.position) = true

end Sys2Proof.Machine
end

