-- ==== Sys2Proof/Certificates/Slice0/Obligations.lean ====
section
/-! DEFINITION. The statements for the provers, from the numbered rules of spec/. A number of type `F` stands in them
as `Bin32.decimal`, its decimal literal. -/

open Sys2Proof Sys2Proof.Machine

/-! Encoding. -/

/-- Every well-formed instruction, with every operand, comes back from its encoding (30_encoding.md R92 to R99, R103;
the operand values of host operations are the model's, log 17), whatever the default timeouts. -/
def Obligations.DecodeInvertsEncode : Prop :=
  ∀ (lit : Literals) (i : Instr), i.WellFormed → decode lit (encode i) = .ok i

/-- No bytes decode to a term that stands for no encoding: no `SETV` magnitude above 128 (R100; log 25), no `RXUNK` with
a legal command byte (R99). -/
def Obligations.DecodedInstructionsAreWellFormed : Prop :=
  ∀ (lit : Literals) (r : Request) (i : Instr), decode lit r = .ok i → i.WellFormed

/-- One request for one instruction: two frames, or two host operations, that decode alike are alike (R90, R91). Left
out is only the absent operand of an operation that takes one, which stands for a default (R105; log 17). -/
def Obligations.InstructionDeterminesItsRequest : Prop :=
  ∀ (lit : Literals) (r : Request) (i : Instr), decode lit r = .ok i →
    (takesOperand i = true → ∀ code, r ≠ .hop code .absent) → encode i = r

/-- Words written out from the encoding strings of R92, R95, R97, R98, R99 and R103, and the default timeouts of R105
(the operand values are the model's, log 17). -/
def Obligations.WordsDecodeAsTheSpecWritesThem : Prop :=
  let decode := Sys2Proof.decode Literals.source
  decode (.txf [0xFF, 0xFF, 0xE0, 0x07, 0x19]) = .ok (.pingreq 0x07 0x19) ∧
  decode (.txf [0xFF, 0xFF, 0xB1, 0x07, 0x4D, 0xFB]) = .ok (.setvNeg 0x07 0x4D 0xFB) ∧
  decode (.rxf [0xFF, 0xFF, 0x80, 0x07, 0x03, 0x00, 0x00, 0x64, 0x02, 0x00, 0x03, 0xE8, 0x09, 0xC4, 0x58]) =
    .ok (.state 0x07 0x0300 0x0064 0x0200 0x03E8 0x09C4 0x58) ∧
  decode (.rxf [0xFF, 0xFF, 0xE1, 0x07, 0x18]) = .ok (.pingreply 0x07 0x18) ∧
  decode (.rxf [0xFF, 0xFF, 0xE0]) = .ok (.rxunk 0xE0) ∧
  decode (.hop [0x05, 0x06] (.num 0xBF4CCCCD)) = .ok (.setLimitLow 0xBF4CCCCD) ∧
  decode (.hop [0x02] (.int 1000)) = .ok (.runcycle 1000) ∧
  decode (.hop [0x01] .absent) = .ok (.ping 50) ∧ decode (.hop [0x02] .absent) = .ok (.runcycle 1000)

/-! The step. -/

/-- When HOST's next operation decodes to `i`, a step is `i` executed on the state without it (00_scope.md R10); when a
frame row stands before it, a step is that row executed (log 1, 2). There is nothing else a step adds. -/
def Obligations.StepRunsTheDecodedInstruction : Prop :=
  ∀ (s : State) (i : Instr),
    (∀ r, NextRequest s r → decode s.cfg.lit r.request = .ok i →
      step s = exec i { s with requests := s.requests.tail }) ∧
    (∀ row rest, s.frameRows = row :: rest → decode s.cfg.lit row.request = .ok i →
      step s = exec i { s with frameRows := rest })

/-- With nothing to execute the block does nothing (70_reset_and_hazards.md R303). -/
def Obligations.IdleBlockDoesNothing : Prop :=
  ∀ s : State, s.frameRows = [] → s.requests = [] → step s = .next s

/-- `SET` of register 10 is refused as read-only; `SET` above 10 as no register (45_host_ops.md R242, R230). -/
def Obligations.IdentifierIsReadOnly : Prop :=
  ∀ (s : State) (r : Byte) (op : Operand),
    (NextRequest s ⟨[0x05, 0x0A], op⟩ → step s = .refused .readOnlyRegister) ∧
    (10 < r.toNat → NextRequest s ⟨[0x05, r], op⟩ → step s = .refused .noSuchRegister)

/-- No step faults: every primitive is called on a queue that holds the byte (20_memory.md R84; the fault is log 14). -/
def Obligations.NoStepFaults : Prop :=
  ∀ (s : State) (f : Fault), step s ≠ .fault f

/-- No step changes the configuration, `MOTOR_ID` included (10_state.md R27, R44), and a step takes one instruction of
what is to be executed and adds none: after a run of HOST's operations alone no frame row is left or begun (log 2). -/
def Obligations.StepKeepsTheConfiguration : Prop :=
  ∀ s t : State, step s = .next t →
    t.cfg = s.cfg ∧ t.frameRows = s.frameRows.tail ∧
      t.requests = if s.frameRows = [] then s.requests.tail else s.requests

/-! Frames sent. -/

/-- `Frame(cmd, payload)` (40_tx_encoder.md R122). -/
def Obligations.FrameIsSyncBodyTrailer : Prop :=
  ∀ (cfg : Cfg) (cmd : Byte) (payload : List Byte),
    let c := ckOf cfg.ck
    let body := cmd :: cfg.motorId :: payload
    frame cfg cmd payload = [0xFF, 0xFF] ++ body ++ [c.trailer (body.foldl c.feed (c.sync (c.sync c.init)))]

/-- `EncodeSetV(v)` (R123), for an instance with the source's literals: one payload byte, and for a voltage that is no
NaN it is the rounded magnitude. -/
def Obligations.SetVEncodesClampedVoltage : Prop :=
  ∀ (cfg : Cfg) (d : Direction) (v : F), SourceLiterals cfg →
    let vc := Bin32.clamp v (Bin32.decimal (-5) 10) (Bin32.decimal 5 10)
    let vp := Bin32.mul vc (Bin32.toF (if d = .plus then 1 else -1))
    let mag := Bin32.roundHafz (Bin32.mul (Bin32.abs vp) (Bin32.decimal 255 1))
    let cmd : Byte := if Bin32.le (Bin32.decimal 0 1) vp then 0xB0 else 0xB1
    (∃ payload, encodeSetV cfg d v = frame cfg cmd [payload]) ∧
      (Bin32.isNaN v = false → encodeSetV cfg d v = frame cfg cmd [BitVec.ofInt 8 mag])

/-- With the source's literals the payload of every voltage that is no NaN is 0 to 128, and its byte is that number
(R124, 30_encoding.md R100). -/
def Obligations.SetVPayloadIsAtMost128 : Prop :=
  ∀ (d : Direction) (v : F), Bin32.isNaN v = false →
    let vp := Bin32.mul (Bin32.clamp v (Bin32.decimal (-5) 10) (Bin32.decimal 5 10))
      (Bin32.toF (if d = .plus then 1 else -1))
    let mag := Bin32.roundHafz (Bin32.mul (Bin32.abs vp) (Bin32.decimal 255 1))
    0 ≤ mag ∧ mag ≤ 128 ∧ ((magOf Literals.source (encodedVoltage Literals.source d v)).toNat : Int) = mag

/-- "`EncodeSetV(v)` and `EncodeSetV(-v)` with opposite `DIR` give the same frame" (R129 (d)), with the source's
literals. -/
def Obligations.SetVIsSymmetricInDirection : Prop :=
  ∀ (cfg : Cfg) (d : Direction) (v : F), SourceLiterals cfg → Bin32.isNaN v = false →
    encodeSetV cfg d v = encodeSetV cfg (oppositeDir d) (Bin32.neg v)

/-- The five TXF rows, each executed on its own, in every state: the frame is formed and the block does not change (R120
to R126: "Writes: nothing"). That such a row is a step, with the instance's identifier and trailer, and that the frame
is its result, is the model's (log 1, 15). -/
def Obligations.OutboundRowsFormTheirFrame : Prop :=
  ∀ (s : State) (id mag ck : Byte),
    let formed (bytes : List Byte) : State := { s with result := .frame bytes }
    exec (.pingreq id ck) s = .next (formed (frame s.cfg 0xE0 [])) ∧
    exec (.datareq id ck) s = .next (formed (frame s.cfg 0xC0 [])) ∧
    exec (.setvPos id mag ck) s = .next (formed (frame s.cfg 0xB0 [mag])) ∧
    exec (.setvNeg id mag ck) s = .next (formed (frame s.cfg 0xB1 [mag])) ∧
    exec (.toggle id ck) s = .next (formed (frame s.cfg 0xD0 []))

/-- The transmitter's invariant (30_encoding.md R102, 10_state.md R42): `TXLOG` with what `TXQ` still holds is whole
frames of R92 to R96, and `TXQ` is empty while the connection stands. -/
def Obligations.StepKeepsTransportInv : Prop :=
  ∀ s t : State, TransportInv s → step s = .next t → TransportInv t

/-- Nothing ever sends a `TOGGLE` frame (40_tx_encoder.md R126), and nothing but `PING` and `RUNCYCLE` sends at all
(R120, R121, R130). -/
def Obligations.NothingSendsAToggle : Prop :=
  ∀ (i : Instr) (s t : State), exec i s = .next t →
    (TxIdle s → FrameLog s.cfg false (s.txLog ++ s.txq) → FrameLog t.cfg false (t.txLog ++ t.txq)) ∧
    (t.txLog ≠ s.txLog ∨ t.txq ≠ s.txq → IsLineOperation i)

/-- `CK_SUM8` and `CK_SUM8_SYNC` accept exactly the bodies whose bytes, with two sync bytes for the second, sum to 0
modulo 256, and the trailer of any body makes it one (20_memory.md R73). -/
def Obligations.Sum8TrailerValidates : Prop :=
  ∀ body : List Byte,
    let total (bs : List Byte) : Nat := (bs.map BitVec.toNat).sum
    (ckSum8.valid (ckFeedAll ckSum8 (ckBodyStart ckSum8) body) = true ↔ total body % 256 = 0) ∧
    (ckSum8Sync.valid (ckFeedAll ckSum8Sync (ckBodyStart ckSum8Sync) body) = true ↔ (total body + 0x1FE) % 256 = 0) ∧
    (∀ c ∈ [ckSum8, ckSum8Sync],
      c.valid (c.feed (ckFeedAll c (ckBodyStart c) body) (c.trailer (ckFeedAll c (ckBodyStart c) body))) = true)

/-! Frames received. -/

/-- The two sync states (41_rx_decoder.md R142 to R145). -/
def Obligations.SyncSearchFollowsItsRules : Prop :=
  ∀ (s : State) (b : Byte) (rest : List Byte),
    (s.ps = .awaitFirstSync → s.rxq = [] → decodeStep s = some (.pending, s)) ∧
    (s.ps = .awaitFirstSync → s.rxq = b :: rest → b ≠ 0xFF → decodeStep s = some (.more, { s with rxq := rest })) ∧
    (s.ps = .awaitFirstSync → s.rxq = 0xFF :: rest →
      decodeStep s =
        some (.more,
          { s with
            rxq := rest
            ps := .awaitSecondSync
            ckAcc := (ckOf s.cfg.ck).sync (ckOf s.cfg.ck).init })) ∧
    (s.ps = .awaitSecondSync → s.rxq = [] → decodeStep s = some (.pending, s)) ∧
    (s.ps = .awaitSecondSync → s.rxq = 0xFF :: rest →
      decodeStep s =
        some (.more, { s with rxq := rest, ps := .processing, ckAcc := (ckOf s.cfg.ck).sync s.ckAcc })) ∧
    (s.ps = .awaitSecondSync → s.rxq = b :: rest → b ≠ 0xFF →
      decodeStep s = some (.more, { s with rxq := rest, ps := .awaitFirstSync }))

/-- A `STATE` body in `Processing`: pending while short, else consumed whole into `STG`, with all five registers
committed at once or none (R148 to R152; the constants are parameters of 00_scope.md R8). -/
def Obligations.StateBodyIsCommittedOrRejected : Prop :=
  ∀ (s : State) (short rest : List Byte) (id ck : Byte) (w0 w1 w2 w3 w4 : Word), s.ps = .processing →
    (s.rxq = 0x80 :: short → short.length + 1 < 13 → decodeStep s = some (.pending, s)) ∧
    (s.rxq = stateBody id w0 w1 w2 w3 w4 ck ++ rest →
      let c := ckOf s.cfg.ck
      let a := ckFeedAll c s.ckAcc (stateBody id w0 w1 w2 w3 w4 ck)
      let taken : State :=
        { s with rxq := rest, ckAcc := a, stg := { id := id, w0 := w0, w1 := w1, w2 := w2, w3 := w3, w4 := w4 } }
      let dir := Bin32.toF (if s.dir = .plus then 1 else -1)
      let sc (w : Word) : F := Bin32.div (Bin32.toF ((w.toNat : Int) - s.cfg.lit.posZero)) s.cfg.lit.posScale
      (id = s.cfg.motorId ∧ c.valid a = true →
        decodeStep s =
          some (.done,
            { taken with
              ps := .completed
              snap :=
                { s.snap with
                  position := Bin32.mul (sc w0) dir
                  current := Bin32.mul (Bin32.toF w1.toNat) s.cfg.currentScale
                  backEmfVoltage := sc w2
                  supplyVoltage := Bin32.mul (Bin32.toF w3.toNat) s.cfg.voltageScale
                  temperatureC := Bin32.div (Bin32.toF w4.toInt) s.cfg.lit.tempDiv } })) ∧
      (¬(id = s.cfg.motorId ∧ c.valid a = true) → decodeStep s = some (.done, { taken with ps := .invalid })))

/-- A `PINGREPLY` body in `Processing` (R153, R154). -/
def Obligations.PingReplyBodyIsJudged : Prop :=
  ∀ (s : State) (short rest : List Byte) (id ck : Byte), s.ps = .processing →
    (s.rxq = 0xE1 :: short → short.length + 1 < 3 → decodeStep s = some (.pending, s)) ∧
    (s.rxq = 0xE1 :: id :: ck :: rest →
      let c := ckOf s.cfg.ck
      let a := c.feed (c.feed (c.feed s.ckAcc 0xE1) id) ck
      decodeStep s =
        some (.done,
          { s with
            rxq := rest
            ckAcc := a
            ps := if id = s.cfg.motorId ∧ c.valid a = true then .completed else .invalid }))

/-- `Processing` on an empty queue (R146), an unrecognised command byte (R155), and the terminal states (R156). -/
def Obligations.ParseEndsAsTheRulesSay : Prop :=
  ∀ (s : State) (b : Byte) (rest : List Byte),
    (s.ps = .processing → s.rxq = [] → decodeStep s = some (.pending, s)) ∧
    (s.ps = .processing → s.rxq = b :: rest → b ≠ 0x80 → b ≠ 0xE1 →
      decodeStep s = some (.done, { s with ps := .invalid })) ∧
    (s.ps = .completed ∨ s.ps = .invalid → decodeStep s = some (.done, s))

/-- The three RXF rows, each executed on its own. In every state a row is the wait loop of budget 0 at whose poll LINE
delivers the frame (42_wait_loop.md R172, R176); behind a queue without FF, with room for it, the frame is taken and
judged (R165). That such a row is a step is the model's (log 1, 16). -/
def Obligations.InboundRowsRunTheDecoder : Prop :=
  (∀ (s : State) (i : Instr) (bytes : List Byte), encode i = .rxf bytes →
    ∃ o t, waitResponse 0 { s with lineChunks := bytes :: s.lineChunks } = some (o, t) ∧ exec i s = .next t) ∧
  ∀ (s : State) (id ck cmd : Byte) (w0 w1 w2 w3 w4 : Word), (∀ b ∈ s.rxq, b ≠ 0xFF) →
    let c := ckOf s.cfg.ck
    let a := ckFeedAll c (ckBodyStart c) (stateBody id w0 w1 w2 w3 w4 ck)
    let b := ckFeedAll c (ckBodyStart c) (pingReplyBody id ck)
    let taken : State :=
      { s with rxq := [], elapsed := 0, ckAcc := a, stg := { id := id, w0 := w0, w1 := w1, w2 := w2, w3 := w3, w4 := w4 } }
    (HasRoom s 15 → id = s.cfg.motorId ∧ c.valid a = true →
      exec (.state id w0 w1 w2 w3 w4 ck) s =
        .next
          { taken with
            ps := .completed
            snap :=
              { s.snap with
                position := newPosition s.cfg.lit s.dir w0
                current := newCurrent s.cfg w1
                backEmfVoltage := newBackEmf s.cfg.lit w2
                supplyVoltage := newSupply s.cfg w3
                temperatureC := newTemperature s.cfg.lit w4 } }) ∧
    (HasRoom s 15 → ¬(id = s.cfg.motorId ∧ c.valid a = true) →
      exec (.state id w0 w1 w2 w3 w4 ck) s = .next { taken with ps := .invalid }) ∧
    (HasRoom s 5 → exec (.pingreply id ck) s =
      .next
        { s with
          rxq := []
          elapsed := 0
          ckAcc := b
          ps := if id = s.cfg.motorId ∧ c.valid b = true then .completed else .invalid }) ∧
    (HasRoom s 3 → cmd ≠ 0x80 → cmd ≠ 0xE1 →
      exec (.rxunk cmd) s = .next { s with rxq := [cmd], elapsed := 0, ckAcc := ckBodyStart c, ps := .invalid })

/-- A drain always ends, never with `More`; `Done` is a terminal state, and a `Pending` outside `Processing` has
emptied the queue; bytes leave at the head only (R161). -/
def Obligations.DrainAlwaysEnds : Prop :=
  ∀ s : State, ∃ p t, drain s = some (p, t) ∧ p ≠ .more ∧
    (p = .done ↔ t.ps = .completed ∨ t.ps = .invalid) ∧
    (p = .pending → t.ps = .processing ∨ t.rxq = []) ∧
    ∃ taken, s.rxq = taken ++ t.rxq

/-- Bytes other than 0xFF in front of a frame cost nothing but themselves (R142, R165). -/
def Obligations.GarbageBeforeAFrameIsDiscarded : Prop :=
  ∀ (s : State) (garbage rest : List Byte), s.ps = .awaitFirstSync → (∀ b ∈ garbage, b ≠ 0xFF) →
    s.rxq = garbage ++ rest → drain s = drain { s with rxq := rest }

/-- How the stream is cut into chunks does not matter (20_memory.md R76): draining two chunks delivered together is
draining the first, and then, if it did not end the parse, the rest with the second behind it. -/
def Obligations.FragmentationDoesNotMatter : Prop :=
  ∀ (s : State) (later : List Byte),
    (∀ t, drain s = some (.done, t) →
      drain { s with rxq := s.rxq ++ later } = some (.done, { t with rxq := t.rxq ++ later })) ∧
    (∀ t, drain s = some (.pending, t) →
      drain { s with rxq := s.rxq ++ later } = drain { t with rxq := t.rxq ++ later })

/-- `sc(w)` with the source's literals is exact for every word (41_rx_decoder.md R150): finite, and 512 times its value
is `w - 512`. -/
def Obligations.SignedCenteredIsExact : Prop :=
  ∀ w : Word, Bin32.isFinite (signedCentered Literals.source w) = true ∧
    512 * Bin32.value (signedCentered Literals.source w) = ((w.toNat : Int) - 512) * 2 ^ 149

/-! The wait loop. -/

/-- A wait always ends; its outcome reads the parse state; it polls once more than it waits, within the budget, and
uses the whole budget when it times out (42_wait_loop.md R175). The initial queue followed by what LINE delivered is
what was consumed followed by what is left, in order (R178, 10_state.md R40, 45_host_ops.md R227), within the capacity of
the queue (20_memory.md R71; that a chunk without room loses its end is the model's, log 20). -/
def Obligations.WaitEndsWithinItsBudget : Prop :=
  ∀ (timeout : Nat) (s : State), ∃ o t, waitResponse timeout s = some (o, t) ∧
    (o = .success ↔ t.ps = .completed) ∧ (o = .invalidFrame ↔ t.ps = .invalid) ∧
    (o = .timeout ↔ t.ps = .awaitFirstSync ∨ t.ps = .awaitSecondSync ∨ t.ps = .processing) ∧
    t.elapsed ≤ timeout ∧ (o = .timeout → t.elapsed = timeout) ∧
    t.lineChunks = s.lineChunks.drop (t.elapsed + 1) ∧ OnlyReceives s t ∧
    (∃ delivered consumed, Delivers s.cfg.rxqCap (s.lineChunks.take (t.elapsed + 1)) delivered ∧
      s.rxq ++ delivered.flatten = consumed ++ t.rxq) ∧
    ∀ cap ∈ s.cfg.rxqCap, t.rxq.length ≤ max cap s.rxq.length

/-- Silence (R180): the whole budget is waited and nothing but `PS` and `ELAPSED` has changed. -/
def Obligations.SilenceTimesOut : Prop :=
  ∀ (timeout : Nat) (s : State), s.rxq = [] → (∀ chunk ∈ s.lineChunks.take (timeout + 1), chunk = []) →
    waitResponse timeout s =
      some (.timeout,
        { s with ps := .awaitFirstSync, elapsed := timeout, lineChunks := s.lineChunks.drop (timeout + 1) })

/-- A good frame at poll `k` of an otherwise silent line ends the wait with `ELAPSED = k`, also at the last permitted
poll, `k = timeout` (R173): a ping reply, or a state frame, whose words are then committed. -/
def Obligations.ReplyAtPollKEndsTheWait : Prop :=
  ∀ (timeout k : Nat) (s : State) (ck : Byte) (w0 w1 w2 w3 w4 : Word) (later : List (List Byte)), k ≤ timeout →
    s.rxq = [] →
    let c := ckOf s.cfg.ck
    let id := s.cfg.motorId
    let a := ckFeedAll c (ckBodyStart c) (pingReplyBody id ck)
    let b := ckFeedAll c (ckBodyStart c) (stateBody id w0 w1 w2 w3 w4 ck)
    (HasRoom s 5 → s.lineChunks = List.replicate k [] ++ framed (pingReplyBody id ck) :: later → c.valid a = true →
      waitResponse timeout s =
        some (.success, { s with ps := .completed, elapsed := k, ckAcc := a, lineChunks := later })) ∧
    (HasRoom s 15 → s.lineChunks = List.replicate k [] ++ framed (stateBody id w0 w1 w2 w3 w4 ck) :: later →
      c.valid b = true →
      waitResponse timeout s =
        some (.success,
          { s with
            ps := .completed
            elapsed := k
            ckAcc := b
            lineChunks := later
            stg := { id := id, w0 := w0, w1 := w1, w2 := w2, w3 := w3, w4 := w4 }
            snap :=
              { s.snap with
                position := newPosition s.cfg.lit s.dir w0
                current := newCurrent s.cfg w1
                backEmfVoltage := newBackEmf s.cfg.lit w2
                supplyVoltage := newSupply s.cfg w3
                temperatureC := newTemperature s.cfg.lit w4 } }))

/-! The host operations that use the line. -/

/-- `PING`: refused after a lost connection, ended by a raising send, else one `PING` frame, one wait, and its boolean;
nothing but what a wait writes and the log of sent bytes changes (45_host_ops.md R224). -/
def Obligations.PingSendsAndWaits : Prop :=
  ∀ (timeout : Nat) (s : State),
    (s.connLost = true → exec (.ping timeout) s = .refused .connectionLost) ∧
    (∀ t, s.connLost = false → sendFrame (frame s.cfg 0xE0 []) s = .lost t → exec (.ping timeout) s = .next t) ∧
    (s.connLost = false → s.txq = [] → AcceptsAll s 5 →
      let sent : State := { s with txLog := s.txLog ++ frame s.cfg 0xE0 [], lineAccepts := s.lineAccepts.tail }
      ∃ o t, waitResponse timeout sent = some (o, t) ∧ OnlyReceives sent t ∧
        exec (.ping timeout) s = .next { t with result := .bool (decide (o = .success)) })

/-- `RUNCYCLE`: refused after a lost connection, ended by a raising send, else the frame of R222, one wait, and the
statistics update of R211, returned as a copy (45_host_ops.md R221; the two factors of the average are literals of
00_scope.md R9). -/
def Obligations.RuncycleSendsWaitsAndCounts : Prop :=
  ∀ (timeout : Nat) (s : State),
    let bytes := if s.mode = .disabled then frame s.cfg 0xC0 [] else encodeSetV s.cfg s.dir s.ctrl.targetVoltage
    (s.connLost = true → exec (.runcycle timeout) s = .refused .connectionLost) ∧
    (∀ t, s.connLost = false → sendFrame bytes s = .lost t → exec (.runcycle timeout) s = .next t) ∧
    (s.connLost = false → s.txq = [] → AcceptsAll s bytes.length →
      let sent : State := { s with txLog := s.txLog ++ bytes, lineAccepts := s.lineAccepts.tail }
      ∃ o t, waitResponse timeout sent = some (o, t) ∧ OnlyReceives sent t ∧
        let stat : Stat :=
          { errorCount := s.stat.errorCount + (if o = .invalidFrame then 1 else 0)
            timeoutCount := s.stat.timeoutCount + (if o = .timeout then 1 else 0)
            faulted := decide (o = .timeout ∨ o = .invalidFrame)
            lastResponseTimeMicros := t.elapsed
            avgResponseTimeMicros :=
              Bin32.add (Bin32.mul s.cfg.lit.emaKeep s.stat.avgResponseTimeMicros)
                (Bin32.mul s.cfg.lit.emaAlpha (Bin32.toF t.elapsed))
            maxResponseTimeMicros := max s.stat.maxResponseTimeMicros t.elapsed }
        exec (.runcycle timeout) s = .next { t with stat := stat, result := .stats stat })

/-- A partial send inside `PING` or `RUNCYCLE` (R223): the flag, the bytes accepted in the log, the rest queued, the
error as the result, and nothing else. -/
def Obligations.PartialSendRaisesConnectionLost : Prop :=
  ∀ (timeout n : Nat) (s : State), s.connLost = false → s.txq = [] → s.lineAccepts.head? = some n →
    let lost (bytes : List Byte) : State :=
      { s with
        connLost := true
        result := .connectionLost n bytes.length
        txLog := s.txLog ++ bytes.take n
        txq := bytes.drop n
        lineAccepts := s.lineAccepts.tail }
    let bytes := if s.mode = .disabled then frame s.cfg 0xC0 [] else encodeSetV s.cfg s.dir s.ctrl.targetVoltage
    (n < 5 → exec (.ping timeout) s = .next (lost (frame s.cfg 0xE0 []))) ∧
    (n < bytes.length → exec (.runcycle timeout) s = .next (lost bytes))

/-- The gate of 45_host_ops.md R220: the two line operations are refused, every other operation works the same whatever
`CONNLOST` holds, and no step clears it or sends a byte while it is set. That frame rows are executed on their own, and
so stand among "every other", is the model's choice (log 1, 15, 16). -/
def Obligations.LostConnectionGatesTheLineOperations : Prop :=
  (∀ (timeout : Nat) (s : State), s.connLost = true →
    exec (.ping timeout) s = .refused .connectionLost ∧ exec (.runcycle timeout) s = .refused .connectionLost) ∧
  (∀ (i : Instr) (s : State) (b : Bool), ¬IsLineOperation i →
    exec i { s with connLost := b } = withConnLost b (exec i s)) ∧
  (∀ s t : State, step s = .next t → s.connLost = true →
    t.connLost = true ∧ t.txLog = s.txLog ∧ t.txq = s.txq)

/-- A valid frame of the other kind, at any permitted poll `k` of an otherwise silent line (R226): a cycle that gets a
ping reply succeeds and keeps `SNAP`; a ping that gets a state frame is true and commits it. -/
def Obligations.FrameOfTheOtherKindIsAccepted : Prop :=
  ∀ (timeout k : Nat) (s : State) (ck : Byte) (w0 w1 w2 w3 w4 : Word) (later : List (List Byte)), k ≤ timeout →
    s.connLost = false → s.txq = [] → s.rxq = [] →
    let c := ckOf s.cfg.ck
    let id := s.cfg.motorId
    (AcceptsAll s 6 → HasRoom s 5 → s.lineChunks = List.replicate k [] ++ framed (pingReplyBody id ck) :: later →
      c.valid (ckFeedAll c (ckBodyStart c) (pingReplyBody id ck)) = true →
      ∃ t, exec (.runcycle timeout) s = .next t ∧ t.stat.faulted = false ∧ t.stat.lastResponseTimeMicros = k ∧
        t.snap = s.snap ∧ t.result = .stats t.stat) ∧
    (AcceptsAll s 5 → HasRoom s 15 →
      s.lineChunks = List.replicate k [] ++ framed (stateBody id w0 w1 w2 w3 w4 ck) :: later →
      c.valid (ckFeedAll c (ckBodyStart c) (stateBody id w0 w1 w2 w3 w4 ck)) = true →
      ∃ t, exec (.ping timeout) s = .next t ∧ t.result = .bool true ∧ t.elapsed = k ∧
        t.snap =
          { s.snap with
            position := newPosition s.cfg.lit s.dir w0
            current := newCurrent s.cfg w1
            backEmfVoltage := newBackEmf s.cfg.lit w2
            supplyVoltage := newSupply s.cfg w3
            temperatureC := newTemperature s.cfg.lit w4 })

/-- `SNAP` changes only where the decoder runs, in `PING`, `RUNCYCLE` or an RXF row, and only to the values of an
accepted `STATE` body, one of this motor's whose checksum validates, all five fields together, the position corrected by the
direction (10_state.md R22, 41_rx_decoder.md R151, R152). A row executed on its own is behind what the queue holds, so
that any of the three may complete a `STATE` frame begun there (log 16). -/
def Obligations.SnapshotHasOneWriter : Prop :=
  ∀ (i : Instr) (s t : State), exec i s = .next t → t.snap ≠ s.snap →
    (IsLineOperation i ∨ formatOf i = .rxf) ∧
    t.ps = .completed ∧ t.stg.id = s.cfg.motorId ∧ (ckOf s.cfg.ck).valid t.ckAcc = true ∧
    t.snap =
      { s.snap with
        position := newPosition s.cfg.lit s.dir t.stg.w0
        current := newCurrent s.cfg t.stg.w1
        backEmfVoltage := newBackEmf s.cfg.lit t.stg.w2
        supplyVoltage := newSupply s.cfg t.stg.w3
        temperatureC := newTemperature s.cfg.lit t.stg.w4 }

/-! The statistics. -/

/-- `RESETSTATS` (44_statistics.md R214). -/
def Obligations.ResetstatsZeroesTheRecord : Prop :=
  ∀ s : State, exec .resetstats s =
    .next
      { s with
        stat :=
          { errorCount := 0, timeoutCount := 0, lastResponseTimeMicros := 0,
            avgResponseTimeMicros := Bin32.decimal 0 1, maxResponseTimeMicros := 0, faulted := false }
        result := .none }

/-- A cycle that ran counts one failure exactly when it leaves `faulted` set, and records its waits (R215 (b), R213). -/
def Obligations.CycleCountsItsOutcome : Prop :=
  ∀ (timeout : Nat) (s t : State), exec (.runcycle timeout) s = .next t → t.connLost = false →
    t.stat.errorCount + t.stat.timeoutCount =
      s.stat.errorCount + s.stat.timeoutCount + (if t.stat.faulted then 1 else 0) ∧
    (t.stat.faulted = false ↔ t.ps = .completed) ∧
    t.stat.lastResponseTimeMicros = t.elapsed ∧ t.elapsed ≤ timeout ∧ t.result = .stats t.stat

/-- Only `RUNCYCLE` and `RESETSTATS` write `STAT`, and but for `RESETSTATS` no counter and no maximum ever decreases
(R215 (a), (e)). -/
def Obligations.StatisticsOnlyGrow : Prop :=
  ∀ (i : Instr) (s t : State), exec i s = .next t → i ≠ .resetstats →
    (t.stat ≠ s.stat → ∃ n, i = .runcycle n) ∧
    s.stat.errorCount ≤ t.stat.errorCount ∧ s.stat.timeoutCount ≤ t.stat.timeoutCount ∧
    s.stat.maxResponseTimeMicros ≤ t.stat.maxResponseTimeMicros

/-- `lastResponseTimeMicros <= maxResponseTimeMicros` is kept by every step (R215 (c)). -/
def Obligations.StepKeepsStatInv : Prop :=
  ∀ s t : State, StatInv s → step s = .next t → StatInv t

/-! The registers. -/

/-- `GET r`: the register's value, and nothing else changes; above 10 there is none (45_host_ops.md R230). -/
def Obligations.GetAnswersTheRegister : Prop :=
  ∀ s : State,
    exec .getMode s = .next { s with result := .mode s.mode } ∧
    exec .getDir s = .next { s with result := .direction (if s.dir = .plus then 1 else -1) } ∧
    exec .getTargetVoltage s = .next { s with result := .num s.ctrl.targetVoltage } ∧
    exec .getTargetPosition s = .next { s with result := .num s.ctrl.targetPosition } ∧
    exec .getTargetCslMode s = .next { s with result := .num s.ctrl.targetCslMode } ∧
    exec .getTargetCslFeedback s = .next { s with result := .num s.ctrl.targetCslFeedback } ∧
    exec .getLimitLow s = .next { s with result := .num s.ctrl.limitLow } ∧
    exec .getLimitHigh s = .next { s with result := .num s.ctrl.limitHigh } ∧
    exec .getProportionalGain s = .next { s with result := .num s.ctrl.proportionalGain } ∧
    exec .getDisableAngle s = .next { s with result := .num s.ctrl.disableAngle } ∧
    exec .getMotorId s = .next { s with result := .byte s.cfg.motorId } ∧
    (∀ (r : Byte) (op : Operand), 10 < r.toNat → NextRequest s ⟨[0x04, r], op⟩ → step s = .refused .noSuchRegister)

/-- `SET` of registers 2 to 9 (R232): a finite value is taken exactly, a NaN or an infinity is refused. -/
def Obligations.SetTakesFiniteValues : Prop :=
  ∀ (s : State) (v : F),
    let put (c : Ctrl) : State := { s with ctrl := c, result := .none }
    (Bin32.isFinite v = true →
      exec (.setTargetVoltage v) s = .next (put { s.ctrl with targetVoltage := v }) ∧
      exec (.setTargetPosition v) s = .next (put { s.ctrl with targetPosition := v }) ∧
      exec (.setTargetCslMode v) s = .next (put { s.ctrl with targetCslMode := v }) ∧
      exec (.setTargetCslFeedback v) s = .next (put { s.ctrl with targetCslFeedback := v }) ∧
      exec (.setLimitLow v) s = .next (put { s.ctrl with limitLow := v }) ∧
      exec (.setLimitHigh v) s = .next (put { s.ctrl with limitHigh := v }) ∧
      exec (.setProportionalGain v) s = .next (put { s.ctrl with proportionalGain := v }) ∧
      exec (.setDisableAngle v) s = .next (put { s.ctrl with disableAngle := v })) ∧
    (Bin32.isFinite v = false →
      ∀ i ∈ [Instr.setTargetVoltage v, .setTargetPosition v, .setTargetCslMode v, .setTargetCslFeedback v,
          .setLimitLow v, .setLimitHigh v, .setProportionalGain v, .setDisableAngle v],
        exec i s = .refused .illegalValue)

/-- `SET MODE, m` (R231) and `SET DIR, d` (R233). The last two clauses say the same of HOST's next operation, whose
operand form is the model's (log 17). -/
def Obligations.SetModeAndSetDirTakeLegalValues : Prop :=
  ∀ (s : State) (m d : Int),
    exec (.setMode 0) s = .next { s with mode := .disabled, result := .none } ∧
    exec (.setMode 1) s = .next { s with mode := .voltage, result := .none } ∧
    exec (.setMode 2) s = .next { s with mode := .position, result := .none } ∧
    exec (.setMode 3) s = .next { s with mode := .currentShapingLimiter, result := .none } ∧
    (m < 0 ∨ 3 < m → exec (.setMode m) s = .refused .illegalValue) ∧
    exec (.setDir 1) s = .next { s with dir := .plus, result := .none } ∧
    exec (.setDir (-1)) s = .next { s with dir := .minus, result := .none } ∧
    (d ≠ 1 → d ≠ -1 → exec (.setDir d) s = .refused .illegalValue) ∧
    (∀ op, NextRequest s ⟨[0x05, 0x00], op⟩ → (op = .int m ∧ (m < 0 ∨ 3 < m)) ∨ (∃ v, op = .num v) →
      step s = .refused .illegalValue) ∧
    (∀ op, NextRequest s ⟨[0x05, 0x01], op⟩ → (op = .int d ∧ d ≠ 1 ∧ d ≠ -1) ∨ (∃ v, op = .num v) →
      step s = .refused .illegalValue)

/-- `GETSNAPSHOT` (R243): the five committed fields as they are, `outputVoltage` some value, of which nothing is said;
the count of drawn values is the model's own (log 11). `GETSTATS` (R244). -/
def Obligations.RecordsAreCopied : Prop :=
  ∀ s : State,
    (∃ v : F, exec .getsnapshot s =
      .next
        { s with
          result :=
            .snapshot
              { outputVoltage := v, position := s.snap.position, current := s.snap.current,
                backEmfVoltage := s.snap.backEmfVoltage, supplyVoltage := s.snap.supplyVoltage,
                temperatureC := s.snap.temperatureC }
          freeCount := s.freeCount + 1 }) ∧
    exec .getstats s = .next { s with result := .stats s.stat }

/-! The control law. -/

/-- `EVALCTRL` is refused exactly on inverted limits, and otherwise touches nothing but `MODE`, `targetVoltage`,
`integralError` and `z` (43_control_law.md R186, R197 (a), (f)). -/
def Obligations.EvalctrlTouchesFourRegisters : Prop :=
  ∀ s : State,
    (¬LimitsOrdered s → exec .evalctrl s = .refused .limitsInverted) ∧
    (LimitsOrdered s → ∃ m v e z, (m = s.mode ∨ m = .disabled) ∧
      exec .evalctrl s =
        .next
          { s with
            mode := m
            ctrl := { s.ctrl with targetVoltage := v, integralError := e, z := z }
            result := .none })

/-- Safety disable (R187): at or beyond the angle the mode is forced to `Disabled`, the voltage kept, the integral
zeroed, the filter re-seeded. -/
def Obligations.SafetyDisableForcesDisabled : Prop :=
  ∀ s : State, LimitsOrdered s → BeyondDisableAngle s →
    exec .evalctrl s =
      .next
        { s with
          mode := .disabled
          ctrl := { s.ctrl with integralError := Bin32.decimal 0 1, z := lawTrack s }
          result := .none }

/-- `Voltage` and `Disabled` modes compute no voltage (R189). -/
def Obligations.VoltageAndDisabledKeepTheTarget : Prop :=
  ∀ s : State, LimitsOrdered s → ¬BeyondDisableAngle s → s.mode = .voltage ∨ s.mode = .disabled →
    exec .evalctrl s =
      .next
        { s with
          ctrl := { s.ctrl with integralError := Bin32.decimal 0 1, z := lawTrack s }
          result := .none }

/-- The Position law (R190), with the filter tracking (R195). -/
def Obligations.PositionLawIsProportional : Prop :=
  ∀ s : State, LimitsOrdered s → ¬BeyondDisableAngle s → s.mode = .position →
    let e := Bin32.sub s.ctrl.targetPosition s.snap.position
    exec .evalctrl s =
      .next
        { s with
          ctrl :=
            { s.ctrl with
              integralError := Bin32.clamp (Bin32.add s.ctrl.integralError e) s.ctrl.limitLow s.ctrl.limitHigh
              targetVoltage := Bin32.mul s.ctrl.proportionalGain e
              z := lawTrack s }
          result := .none }

/-- The current-shaping-limiter law (R192 to R194), with the source's literals. -/
def Obligations.CslLawFollowsItsRules : Prop :=
  ∀ s : State, SourceLiterals s.cfg → LimitsOrdered s → ¬BeyondDisableAngle s → s.mode = .currentShapingLimiter →
    let u := Bin32.clamp (lawSum s) s.ctrl.limitLow s.ctrl.limitHigh
    exec .evalctrl s =
      .next
        { s with
          ctrl :=
            { s.ctrl with
              integralError := Bin32.decimal 0 1
              z := Bin32.add (lawTrack s) (Bin32.mul (lawGf s) u)
              targetVoltage := Bin32.mul (Bin32.decimal 75 100) u }
          result := .none }

/-- Controller memory of an inactive mode is reset at every evaluation: the integral to 0 outside `Position`, the
filter to `gi * p` outside csl (R191, R195). -/
def Obligations.InactiveMemoryIsReset : Prop :=
  ∀ s t : State, exec .evalctrl s = .next t →
    (t.mode ≠ .position → t.ctrl.integralError = Bin32.decimal 0 1) ∧
    (t.mode ≠ .currentShapingLimiter → t.ctrl.z = lawTrack s)

/-- After an evaluation that ends in `Position` the integral lies within the limits (R197 (b), 10_state.md R29), unless
the sum was a NaN, which only a sum beyond the numbers of type `F` can be (log 5). -/
def Obligations.IntegralStaysWithinLimits : Prop :=
  ∀ s t : State, exec .evalctrl s = .next t → t.mode = .position →
    Bin32.isNaN (Bin32.add s.ctrl.integralError (Bin32.sub s.ctrl.targetPosition s.snap.position)) = false →
    Bin32.le s.ctrl.limitLow t.ctrl.integralError = true ∧ Bin32.le t.ctrl.integralError s.ctrl.limitHigh = true

/-- After an evaluation that ends in csl the voltage lies between `0.75 * lo` and `0.75 * hi` as computed (R197 (d)),
for finite limits and a control value that is no NaN before its clamp (log 5), with the source's literals. -/
def Obligations.CslVoltageStaysWithinLimits : Prop :=
  ∀ s t : State, SourceLiterals s.cfg → exec .evalctrl s = .next t → t.mode = .currentShapingLimiter →
    Bin32.isFinite s.ctrl.limitLow = true → Bin32.isFinite s.ctrl.limitHigh = true →
    Bin32.isNaN (lawSum s) = false →
    Bin32.le (Bin32.mul (Bin32.decimal 75 100) s.ctrl.limitLow) t.ctrl.targetVoltage = true ∧
    Bin32.le t.ctrl.targetVoltage (Bin32.mul (Bin32.decimal 75 100) s.ctrl.limitHigh) = true

/-- Re-entering csl after an evaluation outside it, at an unchanged position, commands zero voltage (R195), with the
source's literals. -/
def Obligations.ReenteringCslDoesNotKick : Prop :=
  ∀ s t : State, SourceLiterals s.cfg → exec .evalctrl s = .next t → t.mode ≠ .currentShapingLimiter →
    ¬BeyondDisableAngle s → Bin32.isFinite (lawTrack s) = true →
    Bin32.le s.ctrl.limitLow (Bin32.decimal 0 1) = true → Bin32.le (Bin32.decimal 0 1) s.ctrl.limitHigh = true →
    ∃ u, exec .evalctrl { t with mode := .currentShapingLimiter } = .next u ∧
      u.mode = .currentShapingLimiter ∧ u.ctrl.targetVoltage = Bin32.decimal 0 1

/-- The controller memory is read and written by `EVALCTRL` alone (10_state.md R25): no other instruction changes it. -/
def Obligations.ControllerMemoryHasOneWriter : Prop :=
  ∀ (i : Instr) (s t : State), exec i s = .next t →
    t.ctrl.integralError ≠ s.ctrl.integralError ∨ t.ctrl.z ≠ s.ctrl.z → i = .evalctrl

/-! The whole machine. -/

/-- `MODE` is written by `SET MODE`, and by `EVALCTRL` to `Disabled` only, at or beyond the angle (10_state.md R26). -/
def Obligations.ModeHasTwoWriters : Prop :=
  ∀ (i : Instr) (s t : State), exec i s = .next t → t.mode ≠ s.mode →
    (∃ m, i = .setMode m ∧ 0 ≤ m ∧ m ≤ 3) ∨ (i = .evalctrl ∧ t.mode = .disabled ∧ BeyondDisableAngle s)

/-- A host operation that does not use the line leaves the line, the decoder, `SNAP` and everything else but its own
registers alone (45_host_ops.md R245, 40_tx_encoder.md R130). -/
def Obligations.OtherOperationsLeaveTheLineAlone : Prop :=
  ∀ (i : Instr) (s t : State), formatOf i = .hop → ¬IsLineOperation i → exec i s = .next t →
    t =
      { s with
        ctrl := t.ctrl, mode := t.mode, dir := t.dir, stat := t.stat, result := t.result, freeCount := t.freeCount }

/-- Each tunable but `targetVoltage` is written by its own `SET` alone, `targetVoltage` also by `EVALCTRL`, and `DIR`
by `SET DIR` alone (10_state.md R24, R27). -/
def Obligations.TunablesHaveTheirOwnWriters : Prop :=
  ∀ (i : Instr) (s t : State), exec i s = .next t →
    (t.ctrl.targetVoltage ≠ s.ctrl.targetVoltage → i = .setTargetVoltage t.ctrl.targetVoltage ∨ i = .evalctrl) ∧
    (t.ctrl.targetPosition ≠ s.ctrl.targetPosition → i = .setTargetPosition t.ctrl.targetPosition) ∧
    (t.ctrl.targetCslMode ≠ s.ctrl.targetCslMode → i = .setTargetCslMode t.ctrl.targetCslMode) ∧
    (t.ctrl.targetCslFeedback ≠ s.ctrl.targetCslFeedback → i = .setTargetCslFeedback t.ctrl.targetCslFeedback) ∧
    (t.ctrl.limitLow ≠ s.ctrl.limitLow → i = .setLimitLow t.ctrl.limitLow) ∧
    (t.ctrl.limitHigh ≠ s.ctrl.limitHigh → i = .setLimitHigh t.ctrl.limitHigh) ∧
    (t.ctrl.proportionalGain ≠ s.ctrl.proportionalGain → i = .setProportionalGain t.ctrl.proportionalGain) ∧
    (t.ctrl.disableAngle ≠ s.ctrl.disableAngle → i = .setDisableAngle t.ctrl.disableAngle) ∧
    (t.dir ≠ s.dir → ∃ d, i = .setDir d)

/-- The tunables that only `SET` writes stay finite (10_state.md R38). -/
def Obligations.StepKeepsTunablesFinite : Prop :=
  ∀ s t : State, TunablesFinite s → step s = .next t → TunablesFinite t

/-- The reset state has the invariants of this file, and so has every new instance whose `RST` and default angle
are finite (70_reset_and_hazards.md R301, R302). -/
def Obligations.ResetHasTheInvariants : Prop :=
  (TransportInv State.reset ∧ StatInv State.reset ∧ TunablesFinite State.reset) ∧
  ∀ (cfg : Cfg) (rst : Rst) (rxq : List Byte) (ckAcc : Nat),
    let s := State.create cfg rst rxq ckAcc
    TransportInv s ∧ StatInv s ∧
    ((∀ v ∈ [rst.targetPosition, rst.targetCslMode, rst.targetCslFeedback, rst.limitLow, rst.limitHigh,
        rst.proportionalGain, cfg.lit.disableAngleDefault], Bin32.isFinite v = true) → TunablesFinite s)

/-- The reset values the spec gives, for every instance (R301). -/
def Obligations.ResetLeavesTheseValues : Prop :=
  ∀ (cfg : Cfg) (rst : Rst) (rxq : List Byte) (ckAcc : Nat),
    let s := State.create cfg rst rxq ckAcc
    s.mode = .disabled ∧ s.dir = rst.direction ∧ s.cfg = cfg ∧
    s.ctrl =
      { targetVoltage := rst.targetVoltage, targetPosition := rst.targetPosition,
        targetCslMode := rst.targetCslMode, targetCslFeedback := rst.targetCslFeedback,
        limitLow := rst.limitLow, limitHigh := rst.limitHigh, proportionalGain := rst.proportionalGain,
        disableAngle := cfg.lit.disableAngleDefault, integralError := Bin32.decimal 0 1, z := Bin32.decimal 0 1 } ∧
    (SourceLiterals cfg → s.ctrl.disableAngle = Bin32.decimal 90 100) ∧
    s.snap.position = rst.snapPosition ∧ s.snap.current = rst.snapCurrent ∧
    s.snap.backEmfVoltage = rst.snapBackEmfVoltage ∧ s.snap.supplyVoltage = rst.snapSupplyVoltage ∧
    s.snap.temperatureC = rst.snapTemperatureC ∧
    s.stat =
      { errorCount := 0, timeoutCount := 0, lastResponseTimeMicros := 0,
        avgResponseTimeMicros := Bin32.decimal 0 1, maxResponseTimeMicros := 0, faulted := false } ∧
    s.connLost = false ∧ s.txq = [] ∧ s.txLog = [] ∧ s.rxq = rxq ∧ s.ckAcc = ckAcc

/-- The literals as the source prints them (00_scope.md R8, R9): those of the frame format, and those an instance such
as the reset state's holds as parameters. -/
def Obligations.LiteralsAreTheSourcesNumbers : Prop :=
  [Cfg.syncByte, Cfg.cmdPing, Cfg.cmdDataReq, Cfg.cmdSetVPos, Cfg.cmdSetVNeg, Cfg.cmdToggle,
      Cfg.cmdState, Cfg.cmdPingReply] =
    [0xFF, 0xE0, 0xC0, 0xB0, 0xB1, 0xD0, 0x80, 0xE1] ∧
  Cfg.stateLength = 13 ∧ Cfg.pingReplyLength = 3 ∧
  SourceLiterals State.reset.cfg ∧
  Literals.source =
    { tmoCycleDefault := 1000, tmoPingDefault := 50, disableAngleDefault := Bin32.decimal 90 100,
      vEncodeLimit := Bin32.decimal 5 10, magScale := Bin32.decimal 255 1, emaAlpha := Bin32.decimal 1 100,
      emaKeep := Bin32.decimal 99 100, cslGainPos := Bin32.decimal 24 10, cslGainNeg := Bin32.decimal 16 1,
      cslOutGain := Bin32.decimal 75 100, posZero := 512, posScale := Bin32.decimal 512 1,
      tempDiv := Bin32.decimal 100 1 }
end

