-- ==== Sys2Proof/Laws/State.lean ====
section
/-! SUPPORT. The fields of every named update of the state, each true by unfolding: later proofs read a field of an
updated state by simp and never unfold the update. -/

namespace Sys2Proof.Machine

theorem State.with_snap_cfg (s : State) (x : Snapshot) :
    ({ s with snap := x } : State).cfg = s.cfg := rfl
theorem State.with_snap_ctrl (s : State) (x : Snapshot) :
    ({ s with snap := x } : State).ctrl = s.ctrl := rfl
theorem State.with_snap_mode (s : State) (x : Snapshot) :
    ({ s with snap := x } : State).mode = s.mode := rfl
theorem State.with_snap_dir (s : State) (x : Snapshot) :
    ({ s with snap := x } : State).dir = s.dir := rfl
theorem State.with_snap_ps (s : State) (x : Snapshot) :
    ({ s with snap := x } : State).ps = s.ps := rfl
theorem State.with_snap_elapsed (s : State) (x : Snapshot) :
    ({ s with snap := x } : State).elapsed = s.elapsed := rfl
theorem State.with_snap_stat (s : State) (x : Snapshot) :
    ({ s with snap := x } : State).stat = s.stat := rfl
theorem State.with_snap_connLost (s : State) (x : Snapshot) :
    ({ s with snap := x } : State).connLost = s.connLost := rfl
theorem State.with_snap_stg (s : State) (x : Snapshot) :
    ({ s with snap := x } : State).stg = s.stg := rfl
theorem State.with_snap_rxq (s : State) (x : Snapshot) :
    ({ s with snap := x } : State).rxq = s.rxq := rfl
theorem State.with_snap_ckAcc (s : State) (x : Snapshot) :
    ({ s with snap := x } : State).ckAcc = s.ckAcc := rfl
theorem State.with_snap_txq (s : State) (x : Snapshot) :
    ({ s with snap := x } : State).txq = s.txq := rfl
theorem State.with_snap_txLog (s : State) (x : Snapshot) :
    ({ s with snap := x } : State).txLog = s.txLog := rfl
theorem State.with_snap_requests (s : State) (x : Snapshot) :
    ({ s with snap := x } : State).requests = s.requests := rfl
theorem State.with_snap_frameRows (s : State) (x : Snapshot) :
    ({ s with snap := x } : State).frameRows = s.frameRows := rfl
theorem State.with_snap_result (s : State) (x : Snapshot) :
    ({ s with snap := x } : State).result = s.result := rfl
theorem State.with_snap_lineChunks (s : State) (x : Snapshot) :
    ({ s with snap := x } : State).lineChunks = s.lineChunks := rfl
theorem State.with_snap_lineAccepts (s : State) (x : Snapshot) :
    ({ s with snap := x } : State).lineAccepts = s.lineAccepts := rfl
theorem State.with_snap_freeCount (s : State) (x : Snapshot) :
    ({ s with snap := x } : State).freeCount = s.freeCount := rfl

theorem State.with_mode_ctrl_cfg (s : State) (m : Mode) (c : Ctrl) :
    ({ s with mode := m, ctrl := c } : State).cfg = s.cfg := rfl
theorem State.with_mode_ctrl_snap (s : State) (m : Mode) (c : Ctrl) :
    ({ s with mode := m, ctrl := c } : State).snap = s.snap := rfl
theorem State.with_mode_ctrl_dir (s : State) (m : Mode) (c : Ctrl) :
    ({ s with mode := m, ctrl := c } : State).dir = s.dir := rfl
theorem State.with_mode_ctrl_ps (s : State) (m : Mode) (c : Ctrl) :
    ({ s with mode := m, ctrl := c } : State).ps = s.ps := rfl
theorem State.with_mode_ctrl_elapsed (s : State) (m : Mode) (c : Ctrl) :
    ({ s with mode := m, ctrl := c } : State).elapsed = s.elapsed := rfl
theorem State.with_mode_ctrl_stat (s : State) (m : Mode) (c : Ctrl) :
    ({ s with mode := m, ctrl := c } : State).stat = s.stat := rfl
theorem State.with_mode_ctrl_connLost (s : State) (m : Mode) (c : Ctrl) :
    ({ s with mode := m, ctrl := c } : State).connLost = s.connLost := rfl
theorem State.with_mode_ctrl_stg (s : State) (m : Mode) (c : Ctrl) :
    ({ s with mode := m, ctrl := c } : State).stg = s.stg := rfl
theorem State.with_mode_ctrl_rxq (s : State) (m : Mode) (c : Ctrl) :
    ({ s with mode := m, ctrl := c } : State).rxq = s.rxq := rfl
theorem State.with_mode_ctrl_ckAcc (s : State) (m : Mode) (c : Ctrl) :
    ({ s with mode := m, ctrl := c } : State).ckAcc = s.ckAcc := rfl
theorem State.with_mode_ctrl_txq (s : State) (m : Mode) (c : Ctrl) :
    ({ s with mode := m, ctrl := c } : State).txq = s.txq := rfl
theorem State.with_mode_ctrl_txLog (s : State) (m : Mode) (c : Ctrl) :
    ({ s with mode := m, ctrl := c } : State).txLog = s.txLog := rfl
theorem State.with_mode_ctrl_requests (s : State) (m : Mode) (c : Ctrl) :
    ({ s with mode := m, ctrl := c } : State).requests = s.requests := rfl
theorem State.with_mode_ctrl_frameRows (s : State) (m : Mode) (c : Ctrl) :
    ({ s with mode := m, ctrl := c } : State).frameRows = s.frameRows := rfl
theorem State.with_mode_ctrl_result (s : State) (m : Mode) (c : Ctrl) :
    ({ s with mode := m, ctrl := c } : State).result = s.result := rfl
theorem State.with_mode_ctrl_lineChunks (s : State) (m : Mode) (c : Ctrl) :
    ({ s with mode := m, ctrl := c } : State).lineChunks = s.lineChunks := rfl
theorem State.with_mode_ctrl_lineAccepts (s : State) (m : Mode) (c : Ctrl) :
    ({ s with mode := m, ctrl := c } : State).lineAccepts = s.lineAccepts := rfl
theorem State.with_mode_ctrl_freeCount (s : State) (m : Mode) (c : Ctrl) :
    ({ s with mode := m, ctrl := c } : State).freeCount = s.freeCount := rfl

theorem State.with_stat_result_cfg (s : State) (t : Stat) (r : HostResult) :
    ({ s with stat := t, result := r } : State).cfg = s.cfg := rfl
theorem State.with_stat_result_snap (s : State) (t : Stat) (r : HostResult) :
    ({ s with stat := t, result := r } : State).snap = s.snap := rfl
theorem State.with_stat_result_ctrl (s : State) (t : Stat) (r : HostResult) :
    ({ s with stat := t, result := r } : State).ctrl = s.ctrl := rfl
theorem State.with_stat_result_mode (s : State) (t : Stat) (r : HostResult) :
    ({ s with stat := t, result := r } : State).mode = s.mode := rfl
theorem State.with_stat_result_dir (s : State) (t : Stat) (r : HostResult) :
    ({ s with stat := t, result := r } : State).dir = s.dir := rfl
theorem State.with_stat_result_ps (s : State) (t : Stat) (r : HostResult) :
    ({ s with stat := t, result := r } : State).ps = s.ps := rfl
theorem State.with_stat_result_elapsed (s : State) (t : Stat) (r : HostResult) :
    ({ s with stat := t, result := r } : State).elapsed = s.elapsed := rfl
theorem State.with_stat_result_connLost (s : State) (t : Stat) (r : HostResult) :
    ({ s with stat := t, result := r } : State).connLost = s.connLost := rfl
theorem State.with_stat_result_stg (s : State) (t : Stat) (r : HostResult) :
    ({ s with stat := t, result := r } : State).stg = s.stg := rfl
theorem State.with_stat_result_rxq (s : State) (t : Stat) (r : HostResult) :
    ({ s with stat := t, result := r } : State).rxq = s.rxq := rfl
theorem State.with_stat_result_ckAcc (s : State) (t : Stat) (r : HostResult) :
    ({ s with stat := t, result := r } : State).ckAcc = s.ckAcc := rfl
theorem State.with_stat_result_txq (s : State) (t : Stat) (r : HostResult) :
    ({ s with stat := t, result := r } : State).txq = s.txq := rfl
theorem State.with_stat_result_txLog (s : State) (t : Stat) (r : HostResult) :
    ({ s with stat := t, result := r } : State).txLog = s.txLog := rfl
theorem State.with_stat_result_requests (s : State) (t : Stat) (r : HostResult) :
    ({ s with stat := t, result := r } : State).requests = s.requests := rfl
theorem State.with_stat_result_frameRows (s : State) (t : Stat) (r : HostResult) :
    ({ s with stat := t, result := r } : State).frameRows = s.frameRows := rfl
theorem State.with_stat_result_lineChunks (s : State) (t : Stat) (r : HostResult) :
    ({ s with stat := t, result := r } : State).lineChunks = s.lineChunks := rfl
theorem State.with_stat_result_lineAccepts (s : State) (t : Stat) (r : HostResult) :
    ({ s with stat := t, result := r } : State).lineAccepts = s.lineAccepts := rfl
theorem State.with_stat_result_freeCount (s : State) (t : Stat) (r : HostResult) :
    ({ s with stat := t, result := r } : State).freeCount = s.freeCount := rfl

@[simp] theorem poll_cfg (s : State) : (poll s).cfg = s.cfg := rfl
@[simp] theorem poll_snap (s : State) : (poll s).snap = s.snap := rfl
@[simp] theorem poll_ctrl (s : State) : (poll s).ctrl = s.ctrl := rfl
@[simp] theorem poll_mode (s : State) : (poll s).mode = s.mode := rfl
@[simp] theorem poll_dir (s : State) : (poll s).dir = s.dir := rfl
@[simp] theorem poll_ps (s : State) : (poll s).ps = s.ps := rfl
@[simp] theorem poll_elapsed (s : State) : (poll s).elapsed = s.elapsed := rfl
@[simp] theorem poll_stat (s : State) : (poll s).stat = s.stat := rfl
@[simp] theorem poll_connLost (s : State) : (poll s).connLost = s.connLost := rfl
@[simp] theorem poll_stg (s : State) : (poll s).stg = s.stg := rfl
@[simp] theorem poll_rxq (s : State) : (poll s).rxq = s.rxq ++ pollChunk s := rfl
@[simp] theorem poll_ckAcc (s : State) : (poll s).ckAcc = s.ckAcc := rfl
@[simp] theorem poll_txq (s : State) : (poll s).txq = s.txq := rfl
@[simp] theorem poll_txLog (s : State) : (poll s).txLog = s.txLog := rfl
@[simp] theorem poll_requests (s : State) : (poll s).requests = s.requests := rfl
@[simp] theorem poll_frameRows (s : State) : (poll s).frameRows = s.frameRows := rfl
@[simp] theorem poll_result (s : State) : (poll s).result = s.result := rfl
@[simp] theorem poll_lineChunks (s : State) : (poll s).lineChunks = s.lineChunks.tail := rfl
@[simp] theorem poll_lineAccepts (s : State) : (poll s).lineAccepts = s.lineAccepts := rfl
@[simp] theorem poll_freeCount (s : State) : (poll s).freeCount = s.freeCount := rfl

@[simp] theorem ckReset_cfg (s : State) : (ckReset s).cfg = s.cfg := rfl
@[simp] theorem ckReset_snap (s : State) : (ckReset s).snap = s.snap := rfl
@[simp] theorem ckReset_ctrl (s : State) : (ckReset s).ctrl = s.ctrl := rfl
@[simp] theorem ckReset_mode (s : State) : (ckReset s).mode = s.mode := rfl
@[simp] theorem ckReset_dir (s : State) : (ckReset s).dir = s.dir := rfl
@[simp] theorem ckReset_ps (s : State) : (ckReset s).ps = s.ps := rfl
@[simp] theorem ckReset_elapsed (s : State) : (ckReset s).elapsed = s.elapsed := rfl
@[simp] theorem ckReset_stat (s : State) : (ckReset s).stat = s.stat := rfl
@[simp] theorem ckReset_connLost (s : State) : (ckReset s).connLost = s.connLost := rfl
@[simp] theorem ckReset_stg (s : State) : (ckReset s).stg = s.stg := rfl
@[simp] theorem ckReset_rxq (s : State) : (ckReset s).rxq = s.rxq := rfl
@[simp] theorem ckReset_ckAcc (s : State) : (ckReset s).ckAcc = s.checksum.init := rfl
@[simp] theorem ckReset_txq (s : State) : (ckReset s).txq = s.txq := rfl
@[simp] theorem ckReset_txLog (s : State) : (ckReset s).txLog = s.txLog := rfl
@[simp] theorem ckReset_requests (s : State) : (ckReset s).requests = s.requests := rfl
@[simp] theorem ckReset_frameRows (s : State) : (ckReset s).frameRows = s.frameRows := rfl
@[simp] theorem ckReset_result (s : State) : (ckReset s).result = s.result := rfl
@[simp] theorem ckReset_lineChunks (s : State) : (ckReset s).lineChunks = s.lineChunks := rfl
@[simp] theorem ckReset_lineAccepts (s : State) : (ckReset s).lineAccepts = s.lineAccepts := rfl
@[simp] theorem ckReset_freeCount (s : State) : (ckReset s).freeCount = s.freeCount := rfl

@[simp] theorem txEnqueue_cfg (bytes : List Byte) (s : State) : (txEnqueue bytes s).cfg = s.cfg := rfl
@[simp] theorem txEnqueue_snap (bytes : List Byte) (s : State) : (txEnqueue bytes s).snap = s.snap := rfl
@[simp] theorem txEnqueue_ctrl (bytes : List Byte) (s : State) : (txEnqueue bytes s).ctrl = s.ctrl := rfl
@[simp] theorem txEnqueue_mode (bytes : List Byte) (s : State) : (txEnqueue bytes s).mode = s.mode := rfl
@[simp] theorem txEnqueue_dir (bytes : List Byte) (s : State) : (txEnqueue bytes s).dir = s.dir := rfl
@[simp] theorem txEnqueue_ps (bytes : List Byte) (s : State) : (txEnqueue bytes s).ps = s.ps := rfl
@[simp] theorem txEnqueue_elapsed (bytes : List Byte) (s : State) : (txEnqueue bytes s).elapsed = s.elapsed := rfl
@[simp] theorem txEnqueue_stat (bytes : List Byte) (s : State) : (txEnqueue bytes s).stat = s.stat := rfl
@[simp] theorem txEnqueue_connLost (bytes : List Byte) (s : State) : (txEnqueue bytes s).connLost = s.connLost := rfl
@[simp] theorem txEnqueue_stg (bytes : List Byte) (s : State) : (txEnqueue bytes s).stg = s.stg := rfl
@[simp] theorem txEnqueue_rxq (bytes : List Byte) (s : State) : (txEnqueue bytes s).rxq = s.rxq := rfl
@[simp] theorem txEnqueue_ckAcc (bytes : List Byte) (s : State) : (txEnqueue bytes s).ckAcc = s.ckAcc := rfl
@[simp] theorem txEnqueue_txq (bytes : List Byte) (s : State) : (txEnqueue bytes s).txq = s.txq ++ bytes := rfl
@[simp] theorem txEnqueue_txLog (bytes : List Byte) (s : State) : (txEnqueue bytes s).txLog = s.txLog := rfl
@[simp] theorem txEnqueue_requests (bytes : List Byte) (s : State) : (txEnqueue bytes s).requests = s.requests := rfl
@[simp] theorem txEnqueue_frameRows (bytes : List Byte) (s : State) : (txEnqueue bytes s).frameRows = s.frameRows := rfl
@[simp] theorem txEnqueue_result (bytes : List Byte) (s : State) : (txEnqueue bytes s).result = s.result := rfl
@[simp] theorem txEnqueue_lineChunks (bytes : List Byte) (s : State) : (txEnqueue bytes s).lineChunks = s.lineChunks := rfl
@[simp] theorem txEnqueue_lineAccepts (bytes : List Byte) (s : State) : (txEnqueue bytes s).lineAccepts = s.lineAccepts := rfl
@[simp] theorem txEnqueue_freeCount (bytes : List Byte) (s : State) : (txEnqueue bytes s).freeCount = s.freeCount := rfl

@[simp] theorem raiseConnectionLost_cfg (n w : Nat) (s : State) : (raiseConnectionLost n w s).cfg = s.cfg := rfl
@[simp] theorem raiseConnectionLost_snap (n w : Nat) (s : State) : (raiseConnectionLost n w s).snap = s.snap := rfl
@[simp] theorem raiseConnectionLost_ctrl (n w : Nat) (s : State) : (raiseConnectionLost n w s).ctrl = s.ctrl := rfl
@[simp] theorem raiseConnectionLost_mode (n w : Nat) (s : State) : (raiseConnectionLost n w s).mode = s.mode := rfl
@[simp] theorem raiseConnectionLost_dir (n w : Nat) (s : State) : (raiseConnectionLost n w s).dir = s.dir := rfl
@[simp] theorem raiseConnectionLost_ps (n w : Nat) (s : State) : (raiseConnectionLost n w s).ps = s.ps := rfl
@[simp] theorem raiseConnectionLost_elapsed (n w : Nat) (s : State) : (raiseConnectionLost n w s).elapsed = s.elapsed := rfl
@[simp] theorem raiseConnectionLost_stat (n w : Nat) (s : State) : (raiseConnectionLost n w s).stat = s.stat := rfl
@[simp] theorem raiseConnectionLost_connLost (n w : Nat) (s : State) : (raiseConnectionLost n w s).connLost = true := rfl
@[simp] theorem raiseConnectionLost_stg (n w : Nat) (s : State) : (raiseConnectionLost n w s).stg = s.stg := rfl
@[simp] theorem raiseConnectionLost_rxq (n w : Nat) (s : State) : (raiseConnectionLost n w s).rxq = s.rxq := rfl
@[simp] theorem raiseConnectionLost_ckAcc (n w : Nat) (s : State) : (raiseConnectionLost n w s).ckAcc = s.ckAcc := rfl
@[simp] theorem raiseConnectionLost_txq (n w : Nat) (s : State) : (raiseConnectionLost n w s).txq = s.txq := rfl
@[simp] theorem raiseConnectionLost_txLog (n w : Nat) (s : State) : (raiseConnectionLost n w s).txLog = s.txLog := rfl
@[simp] theorem raiseConnectionLost_requests (n w : Nat) (s : State) : (raiseConnectionLost n w s).requests = s.requests := rfl
@[simp] theorem raiseConnectionLost_frameRows (n w : Nat) (s : State) : (raiseConnectionLost n w s).frameRows = s.frameRows := rfl
@[simp] theorem raiseConnectionLost_result (n w : Nat) (s : State) : (raiseConnectionLost n w s).result = .connectionLost n w := rfl
@[simp] theorem raiseConnectionLost_lineChunks (n w : Nat) (s : State) : (raiseConnectionLost n w s).lineChunks = s.lineChunks := rfl
@[simp] theorem raiseConnectionLost_lineAccepts (n w : Nat) (s : State) : (raiseConnectionLost n w s).lineAccepts = s.lineAccepts := rfl
@[simp] theorem raiseConnectionLost_freeCount (n w : Nat) (s : State) : (raiseConnectionLost n w s).freeCount = s.freeCount := rfl

@[simp] theorem startWait_cfg (s : State) : (startWait s).cfg = s.cfg := rfl
@[simp] theorem startWait_snap (s : State) : (startWait s).snap = s.snap := rfl
@[simp] theorem startWait_ctrl (s : State) : (startWait s).ctrl = s.ctrl := rfl
@[simp] theorem startWait_mode (s : State) : (startWait s).mode = s.mode := rfl
@[simp] theorem startWait_dir (s : State) : (startWait s).dir = s.dir := rfl
@[simp] theorem startWait_ps (s : State) : (startWait s).ps = .awaitFirstSync := rfl
@[simp] theorem startWait_elapsed (s : State) : (startWait s).elapsed = 0 := rfl
@[simp] theorem startWait_stat (s : State) : (startWait s).stat = s.stat := rfl
@[simp] theorem startWait_connLost (s : State) : (startWait s).connLost = s.connLost := rfl
@[simp] theorem startWait_stg (s : State) : (startWait s).stg = s.stg := rfl
@[simp] theorem startWait_rxq (s : State) : (startWait s).rxq = s.rxq := rfl
@[simp] theorem startWait_ckAcc (s : State) : (startWait s).ckAcc = s.ckAcc := rfl
@[simp] theorem startWait_txq (s : State) : (startWait s).txq = s.txq := rfl
@[simp] theorem startWait_txLog (s : State) : (startWait s).txLog = s.txLog := rfl
@[simp] theorem startWait_requests (s : State) : (startWait s).requests = s.requests := rfl
@[simp] theorem startWait_frameRows (s : State) : (startWait s).frameRows = s.frameRows := rfl
@[simp] theorem startWait_result (s : State) : (startWait s).result = s.result := rfl
@[simp] theorem startWait_lineChunks (s : State) : (startWait s).lineChunks = s.lineChunks := rfl
@[simp] theorem startWait_lineAccepts (s : State) : (startWait s).lineAccepts = s.lineAccepts := rfl
@[simp] theorem startWait_freeCount (s : State) : (startWait s).freeCount = s.freeCount := rfl

@[simp] theorem countWait_cfg (s : State) : (countWait s).cfg = s.cfg := rfl
@[simp] theorem countWait_snap (s : State) : (countWait s).snap = s.snap := rfl
@[simp] theorem countWait_ctrl (s : State) : (countWait s).ctrl = s.ctrl := rfl
@[simp] theorem countWait_mode (s : State) : (countWait s).mode = s.mode := rfl
@[simp] theorem countWait_dir (s : State) : (countWait s).dir = s.dir := rfl
@[simp] theorem countWait_ps (s : State) : (countWait s).ps = s.ps := rfl
@[simp] theorem countWait_elapsed (s : State) : (countWait s).elapsed = s.elapsed + 1 := rfl
@[simp] theorem countWait_stat (s : State) : (countWait s).stat = s.stat := rfl
@[simp] theorem countWait_connLost (s : State) : (countWait s).connLost = s.connLost := rfl
@[simp] theorem countWait_stg (s : State) : (countWait s).stg = s.stg := rfl
@[simp] theorem countWait_rxq (s : State) : (countWait s).rxq = s.rxq := rfl
@[simp] theorem countWait_ckAcc (s : State) : (countWait s).ckAcc = s.ckAcc := rfl
@[simp] theorem countWait_txq (s : State) : (countWait s).txq = s.txq := rfl
@[simp] theorem countWait_txLog (s : State) : (countWait s).txLog = s.txLog := rfl
@[simp] theorem countWait_requests (s : State) : (countWait s).requests = s.requests := rfl
@[simp] theorem countWait_frameRows (s : State) : (countWait s).frameRows = s.frameRows := rfl
@[simp] theorem countWait_result (s : State) : (countWait s).result = s.result := rfl
@[simp] theorem countWait_lineChunks (s : State) : (countWait s).lineChunks = s.lineChunks := rfl
@[simp] theorem countWait_lineAccepts (s : State) : (countWait s).lineAccepts = s.lineAccepts := rfl
@[simp] theorem countWait_freeCount (s : State) : (countWait s).freeCount = s.freeCount := rfl

@[simp] theorem commit_cfg (s : State) : (commit s).cfg = s.cfg :=
  State.with_snap_cfg s _
@[simp] theorem commit_snap (s : State) : (commit s).snap =
    { outputVoltage := s.snap.outputVoltage, position := newPosition s.cfg.lit s.dir s.stg.w0,
      current := newCurrent s.cfg s.stg.w1, backEmfVoltage := newBackEmf s.cfg.lit s.stg.w2,
      supplyVoltage := newSupply s.cfg s.stg.w3, temperatureC := newTemperature s.cfg.lit s.stg.w4 } := rfl
@[simp] theorem commit_ctrl (s : State) : (commit s).ctrl = s.ctrl :=
  State.with_snap_ctrl s _
@[simp] theorem commit_mode (s : State) : (commit s).mode = s.mode :=
  State.with_snap_mode s _
@[simp] theorem commit_dir (s : State) : (commit s).dir = s.dir :=
  State.with_snap_dir s _
@[simp] theorem commit_ps (s : State) : (commit s).ps = s.ps :=
  State.with_snap_ps s _
@[simp] theorem commit_elapsed (s : State) : (commit s).elapsed = s.elapsed :=
  State.with_snap_elapsed s _
@[simp] theorem commit_stat (s : State) : (commit s).stat = s.stat :=
  State.with_snap_stat s _
@[simp] theorem commit_connLost (s : State) : (commit s).connLost = s.connLost :=
  State.with_snap_connLost s _
@[simp] theorem commit_stg (s : State) : (commit s).stg = s.stg :=
  State.with_snap_stg s _
@[simp] theorem commit_rxq (s : State) : (commit s).rxq = s.rxq :=
  State.with_snap_rxq s _
@[simp] theorem commit_ckAcc (s : State) : (commit s).ckAcc = s.ckAcc :=
  State.with_snap_ckAcc s _
@[simp] theorem commit_txq (s : State) : (commit s).txq = s.txq :=
  State.with_snap_txq s _
@[simp] theorem commit_txLog (s : State) : (commit s).txLog = s.txLog :=
  State.with_snap_txLog s _
@[simp] theorem commit_requests (s : State) : (commit s).requests = s.requests :=
  State.with_snap_requests s _
@[simp] theorem commit_frameRows (s : State) : (commit s).frameRows = s.frameRows :=
  State.with_snap_frameRows s _
@[simp] theorem commit_result (s : State) : (commit s).result = s.result :=
  State.with_snap_result s _
@[simp] theorem commit_lineChunks (s : State) : (commit s).lineChunks = s.lineChunks :=
  State.with_snap_lineChunks s _
@[simp] theorem commit_lineAccepts (s : State) : (commit s).lineAccepts = s.lineAccepts :=
  State.with_snap_lineAccepts s _
@[simp] theorem commit_freeCount (s : State) : (commit s).freeCount = s.freeCount :=
  State.with_snap_freeCount s _

@[simp] theorem evalControl_cfg (s : State) : (evalControl s).cfg = s.cfg :=
  State.with_mode_ctrl_cfg s _ _
@[simp] theorem evalControl_snap (s : State) : (evalControl s).snap = s.snap :=
  State.with_mode_ctrl_snap s _ _
@[simp] theorem evalControl_ctrl (s : State) : (evalControl s).ctrl =
    cslPart s.cfg.lit (disabledMode s) (gainGi s.cfg s.ctrl) (gainGf s.ctrl) s.snap.position
      (positionPart (disabledMode s) s.snap.position s.ctrl) := rfl
@[simp] theorem evalControl_mode (s : State) : (evalControl s).mode = disabledMode s := rfl
@[simp] theorem evalControl_dir (s : State) : (evalControl s).dir = s.dir :=
  State.with_mode_ctrl_dir s _ _
@[simp] theorem evalControl_ps (s : State) : (evalControl s).ps = s.ps :=
  State.with_mode_ctrl_ps s _ _
@[simp] theorem evalControl_elapsed (s : State) : (evalControl s).elapsed = s.elapsed :=
  State.with_mode_ctrl_elapsed s _ _
@[simp] theorem evalControl_stat (s : State) : (evalControl s).stat = s.stat :=
  State.with_mode_ctrl_stat s _ _
@[simp] theorem evalControl_connLost (s : State) : (evalControl s).connLost = s.connLost :=
  State.with_mode_ctrl_connLost s _ _
@[simp] theorem evalControl_stg (s : State) : (evalControl s).stg = s.stg :=
  State.with_mode_ctrl_stg s _ _
@[simp] theorem evalControl_rxq (s : State) : (evalControl s).rxq = s.rxq :=
  State.with_mode_ctrl_rxq s _ _
@[simp] theorem evalControl_ckAcc (s : State) : (evalControl s).ckAcc = s.ckAcc :=
  State.with_mode_ctrl_ckAcc s _ _
@[simp] theorem evalControl_txq (s : State) : (evalControl s).txq = s.txq :=
  State.with_mode_ctrl_txq s _ _
@[simp] theorem evalControl_txLog (s : State) : (evalControl s).txLog = s.txLog :=
  State.with_mode_ctrl_txLog s _ _
@[simp] theorem evalControl_requests (s : State) : (evalControl s).requests = s.requests :=
  State.with_mode_ctrl_requests s _ _
@[simp] theorem evalControl_frameRows (s : State) : (evalControl s).frameRows = s.frameRows :=
  State.with_mode_ctrl_frameRows s _ _
@[simp] theorem evalControl_result (s : State) : (evalControl s).result = s.result :=
  State.with_mode_ctrl_result s _ _
@[simp] theorem evalControl_lineChunks (s : State) : (evalControl s).lineChunks = s.lineChunks :=
  State.with_mode_ctrl_lineChunks s _ _
@[simp] theorem evalControl_lineAccepts (s : State) : (evalControl s).lineAccepts = s.lineAccepts :=
  State.with_mode_ctrl_lineAccepts s _ _
@[simp] theorem evalControl_freeCount (s : State) : (evalControl s).freeCount = s.freeCount :=
  State.with_mode_ctrl_freeCount s _ _

@[simp] theorem finishPing_cfg (o : WaitOutcome) (s : State) : (finishPing o s).cfg = s.cfg := rfl
@[simp] theorem finishPing_snap (o : WaitOutcome) (s : State) : (finishPing o s).snap = s.snap := rfl
@[simp] theorem finishPing_ctrl (o : WaitOutcome) (s : State) : (finishPing o s).ctrl = s.ctrl := rfl
@[simp] theorem finishPing_mode (o : WaitOutcome) (s : State) : (finishPing o s).mode = s.mode := rfl
@[simp] theorem finishPing_dir (o : WaitOutcome) (s : State) : (finishPing o s).dir = s.dir := rfl
@[simp] theorem finishPing_ps (o : WaitOutcome) (s : State) : (finishPing o s).ps = s.ps := rfl
@[simp] theorem finishPing_elapsed (o : WaitOutcome) (s : State) : (finishPing o s).elapsed = s.elapsed := rfl
@[simp] theorem finishPing_stat (o : WaitOutcome) (s : State) : (finishPing o s).stat = s.stat := rfl
@[simp] theorem finishPing_connLost (o : WaitOutcome) (s : State) : (finishPing o s).connLost = s.connLost := rfl
@[simp] theorem finishPing_stg (o : WaitOutcome) (s : State) : (finishPing o s).stg = s.stg := rfl
@[simp] theorem finishPing_rxq (o : WaitOutcome) (s : State) : (finishPing o s).rxq = s.rxq := rfl
@[simp] theorem finishPing_ckAcc (o : WaitOutcome) (s : State) : (finishPing o s).ckAcc = s.ckAcc := rfl
@[simp] theorem finishPing_txq (o : WaitOutcome) (s : State) : (finishPing o s).txq = s.txq := rfl
@[simp] theorem finishPing_txLog (o : WaitOutcome) (s : State) : (finishPing o s).txLog = s.txLog := rfl
@[simp] theorem finishPing_requests (o : WaitOutcome) (s : State) : (finishPing o s).requests = s.requests := rfl
@[simp] theorem finishPing_frameRows (o : WaitOutcome) (s : State) : (finishPing o s).frameRows = s.frameRows := rfl
@[simp] theorem finishPing_result (o : WaitOutcome) (s : State) : (finishPing o s).result = .bool (o == .success) := rfl
@[simp] theorem finishPing_lineChunks (o : WaitOutcome) (s : State) : (finishPing o s).lineChunks = s.lineChunks := rfl
@[simp] theorem finishPing_lineAccepts (o : WaitOutcome) (s : State) : (finishPing o s).lineAccepts = s.lineAccepts := rfl
@[simp] theorem finishPing_freeCount (o : WaitOutcome) (s : State) : (finishPing o s).freeCount = s.freeCount := rfl

@[simp] theorem finishCycle_cfg (o : WaitOutcome) (s : State) : (finishCycle o s).cfg = s.cfg :=
  State.with_stat_result_cfg s _ _
@[simp] theorem finishCycle_snap (o : WaitOutcome) (s : State) : (finishCycle o s).snap = s.snap :=
  State.with_stat_result_snap s _ _
@[simp] theorem finishCycle_ctrl (o : WaitOutcome) (s : State) : (finishCycle o s).ctrl = s.ctrl :=
  State.with_stat_result_ctrl s _ _
@[simp] theorem finishCycle_mode (o : WaitOutcome) (s : State) : (finishCycle o s).mode = s.mode :=
  State.with_stat_result_mode s _ _
@[simp] theorem finishCycle_dir (o : WaitOutcome) (s : State) : (finishCycle o s).dir = s.dir :=
  State.with_stat_result_dir s _ _
@[simp] theorem finishCycle_ps (o : WaitOutcome) (s : State) : (finishCycle o s).ps = s.ps :=
  State.with_stat_result_ps s _ _
@[simp] theorem finishCycle_elapsed (o : WaitOutcome) (s : State) : (finishCycle o s).elapsed = s.elapsed :=
  State.with_stat_result_elapsed s _ _
@[simp] theorem finishCycle_stat (o : WaitOutcome) (s : State) : (finishCycle o s).stat = statsUpdate s.cfg.lit s.elapsed (o == .timeout) (o == .invalidFrame) s.stat := rfl
@[simp] theorem finishCycle_connLost (o : WaitOutcome) (s : State) : (finishCycle o s).connLost = s.connLost :=
  State.with_stat_result_connLost s _ _
@[simp] theorem finishCycle_stg (o : WaitOutcome) (s : State) : (finishCycle o s).stg = s.stg :=
  State.with_stat_result_stg s _ _
@[simp] theorem finishCycle_rxq (o : WaitOutcome) (s : State) : (finishCycle o s).rxq = s.rxq :=
  State.with_stat_result_rxq s _ _
@[simp] theorem finishCycle_ckAcc (o : WaitOutcome) (s : State) : (finishCycle o s).ckAcc = s.ckAcc :=
  State.with_stat_result_ckAcc s _ _
@[simp] theorem finishCycle_txq (o : WaitOutcome) (s : State) : (finishCycle o s).txq = s.txq :=
  State.with_stat_result_txq s _ _
@[simp] theorem finishCycle_txLog (o : WaitOutcome) (s : State) : (finishCycle o s).txLog = s.txLog :=
  State.with_stat_result_txLog s _ _
@[simp] theorem finishCycle_requests (o : WaitOutcome) (s : State) : (finishCycle o s).requests = s.requests :=
  State.with_stat_result_requests s _ _
@[simp] theorem finishCycle_frameRows (o : WaitOutcome) (s : State) : (finishCycle o s).frameRows = s.frameRows :=
  State.with_stat_result_frameRows s _ _
@[simp] theorem finishCycle_result (o : WaitOutcome) (s : State) : (finishCycle o s).result = .stats (statsUpdate s.cfg.lit s.elapsed (o == .timeout) (o == .invalidFrame) s.stat) := rfl
@[simp] theorem finishCycle_lineChunks (o : WaitOutcome) (s : State) : (finishCycle o s).lineChunks = s.lineChunks :=
  State.with_stat_result_lineChunks s _ _
@[simp] theorem finishCycle_lineAccepts (o : WaitOutcome) (s : State) : (finishCycle o s).lineAccepts = s.lineAccepts :=
  State.with_stat_result_lineAccepts s _ _
@[simp] theorem finishCycle_freeCount (o : WaitOutcome) (s : State) : (finishCycle o s).freeCount = s.freeCount :=
  State.with_stat_result_freeCount s _ _

@[simp] theorem afterSend_cfg (bytes : List Byte) (s : State) : (afterSend bytes s).cfg = s.cfg := rfl
@[simp] theorem afterSend_snap (bytes : List Byte) (s : State) : (afterSend bytes s).snap = s.snap := rfl
@[simp] theorem afterSend_ctrl (bytes : List Byte) (s : State) : (afterSend bytes s).ctrl = s.ctrl := rfl
@[simp] theorem afterSend_mode (bytes : List Byte) (s : State) : (afterSend bytes s).mode = s.mode := rfl
@[simp] theorem afterSend_dir (bytes : List Byte) (s : State) : (afterSend bytes s).dir = s.dir := rfl
@[simp] theorem afterSend_ps (bytes : List Byte) (s : State) : (afterSend bytes s).ps = s.ps := rfl
@[simp] theorem afterSend_elapsed (bytes : List Byte) (s : State) : (afterSend bytes s).elapsed = s.elapsed := rfl
@[simp] theorem afterSend_stat (bytes : List Byte) (s : State) : (afterSend bytes s).stat = s.stat := rfl
@[simp] theorem afterSend_connLost (bytes : List Byte) (s : State) : (afterSend bytes s).connLost = s.connLost := rfl
@[simp] theorem afterSend_stg (bytes : List Byte) (s : State) : (afterSend bytes s).stg = s.stg := rfl
@[simp] theorem afterSend_rxq (bytes : List Byte) (s : State) : (afterSend bytes s).rxq = s.rxq := rfl
@[simp] theorem afterSend_ckAcc (bytes : List Byte) (s : State) : (afterSend bytes s).ckAcc = s.ckAcc := rfl
@[simp] theorem afterSend_txq (bytes : List Byte) (s : State) : (afterSend bytes s).txq = s.txq := rfl
@[simp] theorem afterSend_txLog (bytes : List Byte) (s : State) : (afterSend bytes s).txLog = s.txLog ++ bytes := rfl
@[simp] theorem afterSend_requests (bytes : List Byte) (s : State) : (afterSend bytes s).requests = s.requests := rfl
@[simp] theorem afterSend_frameRows (bytes : List Byte) (s : State) : (afterSend bytes s).frameRows = s.frameRows := rfl
@[simp] theorem afterSend_result (bytes : List Byte) (s : State) : (afterSend bytes s).result = s.result := rfl
@[simp] theorem afterSend_lineChunks (bytes : List Byte) (s : State) : (afterSend bytes s).lineChunks = s.lineChunks := rfl
@[simp] theorem afterSend_lineAccepts (bytes : List Byte) (s : State) : (afterSend bytes s).lineAccepts = s.lineAccepts.tail := rfl
@[simp] theorem afterSend_freeCount (bytes : List Byte) (s : State) : (afterSend bytes s).freeCount = s.freeCount := rfl

theorem txSend_fst (s : State) : (txSend s).1 = sendCount s := rfl
@[simp] theorem txSend_cfg (s : State) : (txSend s).2.cfg = s.cfg := rfl
@[simp] theorem txSend_snap (s : State) : (txSend s).2.snap = s.snap := rfl
@[simp] theorem txSend_ctrl (s : State) : (txSend s).2.ctrl = s.ctrl := rfl
@[simp] theorem txSend_mode (s : State) : (txSend s).2.mode = s.mode := rfl
@[simp] theorem txSend_dir (s : State) : (txSend s).2.dir = s.dir := rfl
@[simp] theorem txSend_ps (s : State) : (txSend s).2.ps = s.ps := rfl
@[simp] theorem txSend_elapsed (s : State) : (txSend s).2.elapsed = s.elapsed := rfl
@[simp] theorem txSend_stat (s : State) : (txSend s).2.stat = s.stat := rfl
@[simp] theorem txSend_connLost (s : State) : (txSend s).2.connLost = s.connLost := rfl
@[simp] theorem txSend_stg (s : State) : (txSend s).2.stg = s.stg := rfl
@[simp] theorem txSend_rxq (s : State) : (txSend s).2.rxq = s.rxq := rfl
@[simp] theorem txSend_ckAcc (s : State) : (txSend s).2.ckAcc = s.ckAcc := rfl
@[simp] theorem txSend_txq (s : State) : (txSend s).2.txq = s.txq.drop (sendCount s) := rfl
@[simp] theorem txSend_txLog (s : State) : (txSend s).2.txLog = s.txLog ++ s.txq.take (sendCount s) := rfl
@[simp] theorem txSend_requests (s : State) : (txSend s).2.requests = s.requests := rfl
@[simp] theorem txSend_frameRows (s : State) : (txSend s).2.frameRows = s.frameRows := rfl
@[simp] theorem txSend_result (s : State) : (txSend s).2.result = s.result := rfl
@[simp] theorem txSend_lineChunks (s : State) : (txSend s).2.lineChunks = s.lineChunks := rfl
@[simp] theorem txSend_lineAccepts (s : State) : (txSend s).2.lineAccepts = s.lineAccepts.tail := rfl
@[simp] theorem txSend_freeCount (s : State) : (txSend s).2.freeCount = s.freeCount := rfl

@[simp] theorem rejectRequest_cfg (s : State) : (s.rejectRequest).cfg = s.cfg := by
  unfold State.rejectRequest; split <;> rfl
@[simp] theorem rejectRequest_snap (s : State) : (s.rejectRequest).snap = s.snap := by
  unfold State.rejectRequest; split <;> rfl
@[simp] theorem rejectRequest_ctrl (s : State) : (s.rejectRequest).ctrl = s.ctrl := by
  unfold State.rejectRequest; split <;> rfl
@[simp] theorem rejectRequest_mode (s : State) : (s.rejectRequest).mode = s.mode := by
  unfold State.rejectRequest; split <;> rfl
@[simp] theorem rejectRequest_dir (s : State) : (s.rejectRequest).dir = s.dir := by
  unfold State.rejectRequest; split <;> rfl
@[simp] theorem rejectRequest_ps (s : State) : (s.rejectRequest).ps = s.ps := by
  unfold State.rejectRequest; split <;> rfl
@[simp] theorem rejectRequest_elapsed (s : State) : (s.rejectRequest).elapsed = s.elapsed := by
  unfold State.rejectRequest; split <;> rfl
@[simp] theorem rejectRequest_stat (s : State) : (s.rejectRequest).stat = s.stat := by
  unfold State.rejectRequest; split <;> rfl
@[simp] theorem rejectRequest_connLost (s : State) : (s.rejectRequest).connLost = s.connLost := by
  unfold State.rejectRequest; split <;> rfl
@[simp] theorem rejectRequest_stg (s : State) : (s.rejectRequest).stg = s.stg := by
  unfold State.rejectRequest; split <;> rfl
@[simp] theorem rejectRequest_rxq (s : State) : (s.rejectRequest).rxq = s.rxq := by
  unfold State.rejectRequest; split <;> rfl
@[simp] theorem rejectRequest_ckAcc (s : State) : (s.rejectRequest).ckAcc = s.ckAcc := by
  unfold State.rejectRequest; split <;> rfl
@[simp] theorem rejectRequest_txq (s : State) : (s.rejectRequest).txq = s.txq := by
  unfold State.rejectRequest; split <;> rfl
@[simp] theorem rejectRequest_txLog (s : State) : (s.rejectRequest).txLog = s.txLog := by
  unfold State.rejectRequest; split <;> rfl
@[simp] theorem rejectRequest_result (s : State) : (s.rejectRequest).result = s.result := by
  unfold State.rejectRequest; split <;> rfl
@[simp] theorem rejectRequest_lineChunks (s : State) : (s.rejectRequest).lineChunks = s.lineChunks := by
  unfold State.rejectRequest; split <;> rfl
@[simp] theorem rejectRequest_lineAccepts (s : State) : (s.rejectRequest).lineAccepts = s.lineAccepts := by
  unfold State.rejectRequest; split <;> rfl
@[simp] theorem rejectRequest_freeCount (s : State) : (s.rejectRequest).freeCount = s.freeCount := by
  unfold State.rejectRequest; split <;> rfl

@[simp] theorem withFetchWord_cfg (s : State) (nbits w : Nat) : (s.withFetchWord nbits w).cfg = s.cfg := by
  unfold State.withFetchWord; split <;> rfl
@[simp] theorem withFetchWord_snap (s : State) (nbits w : Nat) : (s.withFetchWord nbits w).snap = s.snap := by
  unfold State.withFetchWord; split <;> rfl
@[simp] theorem withFetchWord_ctrl (s : State) (nbits w : Nat) : (s.withFetchWord nbits w).ctrl = s.ctrl := by
  unfold State.withFetchWord; split <;> rfl
@[simp] theorem withFetchWord_mode (s : State) (nbits w : Nat) : (s.withFetchWord nbits w).mode = s.mode := by
  unfold State.withFetchWord; split <;> rfl
@[simp] theorem withFetchWord_dir (s : State) (nbits w : Nat) : (s.withFetchWord nbits w).dir = s.dir := by
  unfold State.withFetchWord; split <;> rfl
@[simp] theorem withFetchWord_ps (s : State) (nbits w : Nat) : (s.withFetchWord nbits w).ps = s.ps := by
  unfold State.withFetchWord; split <;> rfl
@[simp] theorem withFetchWord_elapsed (s : State) (nbits w : Nat) : (s.withFetchWord nbits w).elapsed = s.elapsed := by
  unfold State.withFetchWord; split <;> rfl
@[simp] theorem withFetchWord_stat (s : State) (nbits w : Nat) : (s.withFetchWord nbits w).stat = s.stat := by
  unfold State.withFetchWord; split <;> rfl
@[simp] theorem withFetchWord_connLost (s : State) (nbits w : Nat) : (s.withFetchWord nbits w).connLost = s.connLost := by
  unfold State.withFetchWord; split <;> rfl
@[simp] theorem withFetchWord_stg (s : State) (nbits w : Nat) : (s.withFetchWord nbits w).stg = s.stg := by
  unfold State.withFetchWord; split <;> rfl
@[simp] theorem withFetchWord_rxq (s : State) (nbits w : Nat) : (s.withFetchWord nbits w).rxq = s.rxq := by
  unfold State.withFetchWord; split <;> rfl
@[simp] theorem withFetchWord_ckAcc (s : State) (nbits w : Nat) : (s.withFetchWord nbits w).ckAcc = s.ckAcc := by
  unfold State.withFetchWord; split <;> rfl
@[simp] theorem withFetchWord_txq (s : State) (nbits w : Nat) : (s.withFetchWord nbits w).txq = s.txq := by
  unfold State.withFetchWord; split <;> rfl
@[simp] theorem withFetchWord_txLog (s : State) (nbits w : Nat) : (s.withFetchWord nbits w).txLog = s.txLog := by
  unfold State.withFetchWord; split <;> rfl
@[simp] theorem withFetchWord_result (s : State) (nbits w : Nat) : (s.withFetchWord nbits w).result = s.result := by
  unfold State.withFetchWord; split <;> rfl
@[simp] theorem withFetchWord_lineChunks (s : State) (nbits w : Nat) : (s.withFetchWord nbits w).lineChunks = s.lineChunks := by
  unfold State.withFetchWord; split <;> rfl
@[simp] theorem withFetchWord_lineAccepts (s : State) (nbits w : Nat) : (s.withFetchWord nbits w).lineAccepts = s.lineAccepts := by
  unfold State.withFetchWord; split <;> rfl
@[simp] theorem withFetchWord_freeCount (s : State) (nbits w : Nat) : (s.withFetchWord nbits w).freeCount = s.freeCount := by
  unfold State.withFetchWord; split <;> rfl

@[simp] theorem wait_eq (n : Nat) (s : State) : wait n s = s := rfl

end Sys2Proof.Machine
end

