-- ==== Sys2Proof/Laws/Bin32.lean ====
section
/-! SUPPORT. The arithmetic of `F`: the order of magnitudes, exactness of representable results, and monotonicity of
rounding, which is all that the statements about the encoder and the control law need. -/

namespace Sys2Proof.Machine.Bin32

/-- The exponent and fraction bits of a number. -/
def magBits (x : F) : Nat := x.toNat % 2 ^ 31

/-- The magnitude that exponent and fraction bits stand for, in units. -/
def unitsOf (b : Nat) : Nat := if b < 2 ^ 23 then b else (2 ^ 23 + b % 2 ^ 23) * 2 ^ (b / 2 ^ 23 - 1)

theorem magBits_lt (x : F) : magBits x < 2 ^ 31 := Nat.mod_lt _ (by norm_num)

theorem expField_eq (x : F) : expField x = magBits x / 2 ^ 23 := by
  unfold expField magBits
  omega

theorem fracField_eq (x : F) : fracField x = magBits x % 2 ^ 23 := by
  unfold fracField magBits
  omega

theorem isFinite_iff (x : F) : isFinite x = true ↔ magBits x < infBits := by
  have := magBits_lt x
  unfold isFinite infBits
  rw [expField_eq]
  simp only [bne_iff_ne, ne_eq]
  omega

theorem isNaN_iff (x : F) : isNaN x = true ↔ infBits < magBits x := by
  have := magBits_lt x
  unfold isNaN infBits
  rw [expField_eq, fracField_eq]
  simp only [Bool.and_eq_true, beq_iff_eq, bne_iff_ne, ne_eq]
  omega

theorem isNaN_of_isFinite {x : F} (h : isFinite x = true) : isNaN x = false := by
  rw [isFinite_iff] at h
  rw [← Bool.not_eq_true, isNaN_iff]
  omega

theorem units_eq (x : F) : units x = unitsOf (magBits x) := by
  unfold units unitsOf
  rw [expField_eq, fracField_eq]
  by_cases h : magBits x < 2 ^ 23
  · have h0 : magBits x / 2 ^ 23 = 0 := by omega
    rw [if_pos h, h0, Nat.mod_eq_of_lt h]
  · obtain ⟨e, he⟩ : ∃ e, magBits x / 2 ^ 23 = e + 1 := ⟨magBits x / 2 ^ 23 - 1, by omega⟩
    rw [if_neg h, he, Nat.add_sub_cancel]

theorem unitsOf_succ_lt (b : Nat) : unitsOf b < unitsOf (b + 1) := by
  unfold unitsOf
  by_cases h : b + 1 < 2 ^ 23
  · rw [if_pos (by omega), if_pos h]
    omega
  · by_cases h' : b < 2 ^ 23
    · have hb : b + 1 = 2 ^ 23 := by omega
      rw [if_pos h', if_neg h, hb]
      norm_num
      omega
    · rw [if_neg h', if_neg h]
      by_cases hm : b % 2 ^ 23 = 2 ^ 23 - 1
      · have h1 : (b + 1) % 2 ^ 23 = 0 := by omega
        have h2 : (b + 1) / 2 ^ 23 - 1 = b / 2 ^ 23 - 1 + 1 := by omega
        have h3 : 2 ^ (b / 2 ^ 23 - 1 + 1) = 2 ^ (b / 2 ^ 23 - 1) * 2 := Nat.pow_succ ..
        rw [h1, h2, hm, h3]
        have := Nat.two_pow_pos (b / 2 ^ 23 - 1)
        generalize 2 ^ (b / 2 ^ 23 - 1) = c at this ⊢
        omega
      · have h1 : (b + 1) % 2 ^ 23 = b % 2 ^ 23 + 1 := by omega
        have h2 : (b + 1) / 2 ^ 23 = b / 2 ^ 23 := by omega
        rw [h1, h2]
        exact Nat.mul_lt_mul_of_pos_right (by omega) (Nat.two_pow_pos _)

/-- More magnitude bits, more magnitude. -/
theorem unitsOf_strictMono : StrictMono unitsOf := strictMono_nat_of_lt_succ unitsOf_succ_lt

theorem unitsOf_le_iff {a b : Nat} : unitsOf a ≤ unitsOf b ↔ a ≤ b := unitsOf_strictMono.le_iff_le

/-- Rounding to even is monotone. -/
theorem nearestEven_mono {n m d : Nat} (hd : 0 < d) (h : n ≤ m) : nearestEven n d ≤ nearestEven m d := by
  unfold nearestEven
  have hn := Nat.div_add_mod n d
  have hm := Nat.div_add_mod m d
  have hn' := Nat.mod_lt n hd
  have hm' := Nat.mod_lt m hd
  have hq : n / d ≤ m / d := Nat.div_le_div_right h
  simp only
  rcases Nat.lt_or_ge (n / d) (m / d) with hlt | hge
  · split <;> split <;> try split
    all_goals first | omega | (split <;> omega)
  · have he : n / d = m / d := Nat.le_antisymm hq hge
    rw [he] at hn ⊢
    have hr : n % d ≤ m % d := by omega
    split <;> split <;> try split
    all_goals first | omega | (split <;> omega)

theorem nearestEven_mul (n c d : Nat) (hc : 0 < c) : nearestEven (n * c) (d * c) = nearestEven n d := by
  unfold nearestEven
  have h1 : n * c / (d * c) = n / d := Nat.mul_div_mul_right n d hc
  have h2 : n * c % (d * c) = n % d * c := Nat.mul_mod_mul_right c n d
  simp only [h1, h2]
  have h3 : (2 * (n % d * c) < d * c) ↔ (2 * (n % d) < d) := by
    rw [← Nat.mul_assoc]; exact Nat.mul_lt_mul_right hc
  have h4 : (d * c < 2 * (n % d * c)) ↔ (d < 2 * (n % d)) := by
    rw [← Nat.mul_assoc]; exact Nat.mul_lt_mul_right hc
  simp only [h3, h4]

theorem nearestEven_exact (n d : Nat) (hd : 0 < d) : nearestEven (n * d) d = n := by
  unfold nearestEven
  simp only [Nat.mul_div_cancel n hd, Nat.mul_mod_left]
  rw [if_pos (by omega)]

theorem roundBits_mul (n c d : Nat) (hc : 0 < c) : roundBits (n * c) (d * c) = roundBits n d := by
  unfold roundBits
  rw [Nat.mul_div_mul_right n d hc, Nat.mul_right_comm, nearestEven_mul n c _ hc]

theorem roundShift_mono {p q : Nat} (h : p ≤ q) : roundShift p ≤ roundShift q := by
  unfold roundShift
  by_cases hp : p < 2 ^ 24
  · rw [if_pos hp]; exact Nat.zero_le _
  · rw [if_neg hp, if_neg (by omega)]
    have : Nat.log2 p ≤ Nat.log2 q := by
      rw [Nat.le_log2 (by omega)]
      exact (Nat.log2_self_le (by omega)).trans h
    omega

theorem lt_two_pow_roundShift (q : Nat) : q < 2 ^ (roundShift q + 24) := by
  unfold roundShift
  by_cases hp : q < 2 ^ 24
  · rw [if_pos hp]; exact hp
  · rw [if_neg hp]
    have h0 : q ≠ 0 := by omega
    have h24 : 24 ≤ Nat.log2 q := by rw [Nat.le_log2 h0]; omega
    have := Nat.lt_log2_self (n := q)
    have he : Nat.log2 q - 23 + 24 = Nat.log2 q + 1 := by omega
    rw [he]; exact this

theorem two_pow_roundShift_le {q : Nat} (h : roundShift q ≠ 0) : 2 ^ (roundShift q + 23) ≤ q := by
  unfold roundShift at *
  by_cases hp : q < 2 ^ 24
  · rw [if_pos hp] at h; exact absurd rfl h
  · rw [if_neg hp]
    have h0 : q ≠ 0 := by omega
    have h24 : 24 ≤ Nat.log2 q := by rw [Nat.le_log2 h0]; omega
    have he : Nat.log2 q - 23 + 23 = Nat.log2 q := by omega
    rw [he]; exact Nat.log2_self_le h0

theorem nearestEven_le_of_le {n d k : Nat} (hd : 0 < d) (h : n ≤ k * d) : nearestEven n d ≤ k :=
  (nearestEven_mono hd h).trans (nearestEven_exact k d hd).le

theorem le_nearestEven_of_le {n d k : Nat} (hd : 0 < d) (h : k * d ≤ n) : k ≤ nearestEven n d :=
  (nearestEven_exact k d hd).ge.trans (nearestEven_mono hd h)

/-- Rounding keeps the order of magnitudes over one denominator. -/
theorem roundBits_mono {n m d : Nat} (hd : 0 < d) (h : n ≤ m) : roundBits n d ≤ roundBits m d := by
  have hk : roundShift (n / d) ≤ roundShift (m / d) := roundShift_mono (Nat.div_le_div_right h)
  unfold roundBits
  rcases Nat.eq_or_lt_of_le hk with he | hlt
  · rw [he]
    exact Nat.add_le_add_left (nearestEven_mono (Nat.mul_pos hd (Nat.two_pow_pos _)) h) _
  · have hup : nearestEven n (d * 2 ^ roundShift (n / d)) ≤ 2 ^ 24 := by
      refine nearestEven_le_of_le (Nat.mul_pos hd (Nat.two_pow_pos _)) ?_
      have h1 := lt_two_pow_roundShift (n / d)
      have h2 := Nat.lt_mul_of_div_lt h1 hd
      rw [Nat.pow_add] at h2
      calc n ≤ 2 ^ roundShift (n / d) * 2 ^ 24 * d := h2.le
        _ = 2 ^ 24 * (d * 2 ^ roundShift (n / d)) := by ring
    have hlow : 2 ^ 23 ≤ nearestEven m (d * 2 ^ roundShift (m / d)) := by
      refine le_nearestEven_of_le (Nat.mul_pos hd (Nat.two_pow_pos _)) ?_
      have h1 := two_pow_roundShift_le (q := m / d) (by omega)
      have h2 := (Nat.le_div_iff_mul_le hd).mp h1
      rw [Nat.pow_add] at h2
      calc 2 ^ 23 * (d * 2 ^ roundShift (m / d)) = 2 ^ roundShift (m / d) * 2 ^ 23 * d := by ring
        _ ≤ m := h2
    have : (roundShift (n / d) + 1) * 2 ^ 23 ≤ roundShift (m / d) * 2 ^ 23 := Nat.mul_le_mul_right _ hlt
    omega

/-- A representable magnitude rounds to itself. -/
theorem roundBits_unitsOf (b : Nat) : roundBits (unitsOf b) 1 = b := by
  unfold roundBits unitsOf
  rw [Nat.div_one, Nat.one_mul]
  by_cases h : b < 2 ^ 23
  · have hs : roundShift b = 0 := by unfold roundShift; rw [if_pos (by omega)]
    rw [if_pos h, hs]
    have := nearestEven_exact b 1 (by norm_num)
    rw [Nat.mul_one] at this
    rw [Nat.pow_zero, this]
    omega
  · rw [if_neg h]
    obtain ⟨e, f, hf, hb⟩ : ∃ e f, f < 2 ^ 23 ∧ b = (e + 1) * 2 ^ 23 + f :=
      ⟨b / 2 ^ 23 - 1, b % 2 ^ 23, Nat.mod_lt _ (by norm_num), by omega⟩
    have h1 : b % 2 ^ 23 = f := by omega
    have h2 : b / 2 ^ 23 - 1 = e := by omega
    have hs : roundShift ((2 ^ 23 + f) * 2 ^ e) = e := by
      unfold roundShift
      cases e with
      | zero => rw [if_pos (by omega)]
      | succ e =>
        have hp := Nat.two_pow_pos e
        have hlow : 2 ^ (23 + (e + 1)) ≤ (2 ^ 23 + f) * 2 ^ (e + 1) := by
          rw [Nat.pow_add]; exact Nat.mul_le_mul_right _ (by omega)
        have hhigh : (2 ^ 23 + f) * 2 ^ (e + 1) < 2 ^ (23 + (e + 1) + 1) := by
          have : 2 ^ (23 + (e + 1) + 1) = 2 ^ 24 * 2 ^ (e + 1) := by rw [← Nat.pow_add]; congr 1; omega
          rw [this]
          exact Nat.mul_lt_mul_of_pos_right (by omega) (Nat.two_pow_pos _)
        have hne : (2 ^ 23 + f) * 2 ^ (e + 1) ≠ 0 := by
          have := Nat.two_pow_pos (23 + (e + 1)); omega
        have hlog : Nat.log2 ((2 ^ 23 + f) * 2 ^ (e + 1)) = 23 + (e + 1) :=
          (Nat.log2_eq_iff hne).mpr ⟨hlow, hhigh⟩
        rw [if_neg, hlog]
        · omega
        · have : 2 ^ 24 ≤ 2 ^ (23 + (e + 1)) := Nat.pow_le_pow_right (by norm_num) (by omega)
          omega
    rw [h1, h2, hs, nearestEven_exact _ _ (Nat.two_pow_pos e)]
    omega

theorem roundBits_zero {d : Nat} (hd : 0 < d) : roundBits 0 d = 0 := by
  have h : roundShift (0 / d) = 0 := by rw [Nat.zero_div]; rfl
  have := nearestEven_exact 0 (d * 2 ^ 0) (by omega)
  rw [Nat.zero_mul] at this
  rw [roundBits, h, this, Nat.zero_mul]

theorem pack_toNat {neg : Bool} {bits : Nat} (h : bits < 2 ^ 31) :
    (pack neg bits).toNat = (if neg then 2 ^ 31 else 0) + bits := by
  unfold pack
  rw [BitVec.toNat_ofNat]
  cases neg <;> simp <;> omega

theorem sign_eq (x : F) : sign x = decide (2 ^ 31 ≤ x.toNat) := by
  unfold sign
  rw [BitVec.msb_eq_decide]

theorem magBits_pack {neg : Bool} {bits : Nat} (h : bits < 2 ^ 31) : magBits (pack neg bits) = bits := by
  unfold magBits
  rw [pack_toNat h]
  cases neg
  · rw [if_neg (by simp)]; omega
  · rw [if_pos rfl]; omega

theorem sign_pack {neg : Bool} {bits : Nat} (h : bits < 2 ^ 31) : sign (pack neg bits) = neg := by
  rw [sign_eq, pack_toNat h]
  cases neg
  · exact decide_eq_false (by rw [if_neg (by simp)]; omega)
  · exact decide_eq_true (by rw [if_pos rfl]; omega)

/-- A number is its sign and its magnitude bits. -/
@[simp] theorem pack_sign_magBits (x : F) : pack (sign x) (magBits x) = x := by
  apply BitVec.eq_of_toNat_eq
  rw [pack_toNat (magBits_lt x), sign_eq]
  have := x.isLt
  unfold magBits
  by_cases h : 2 ^ 31 ≤ x.toNat
  · rw [decide_eq_true h, if_pos rfl]; omega
  · rw [decide_eq_false h, if_neg (by simp)]; omega

theorem eq_of_sign_magBits {x y : F} (h1 : sign x = sign y) (h2 : magBits x = magBits y) : x = y := by
  rw [← pack_sign_magBits x, ← pack_sign_magBits y, h1, h2]

@[simp] theorem sign_neg (x : F) : sign (neg x) = !sign x := by
  unfold sign neg
  rw [BitVec.msb_xor, show (0x80000000 : F).msb = true by decide, Bool.xor_true]

@[simp] theorem magBits_neg (x : F) : magBits (neg x) = magBits x := by
  unfold magBits neg
  rw [BitVec.toNat_xor, Nat.xor_mod_two_pow, show (0x80000000 : F).toNat % 2 ^ 31 = 0 by decide, Nat.xor_zero]

@[simp] theorem sign_abs (x : F) : sign (abs x) = false := by
  unfold sign abs
  rw [BitVec.msb_and, show (0x7FFFFFFF : F).msb = false by decide, Bool.and_false]

@[simp] theorem magBits_abs (x : F) : magBits (abs x) = magBits x := by
  unfold magBits abs
  rw [BitVec.toNat_and, show (0x7FFFFFFF : F).toNat = 2 ^ 31 - 1 by decide, Nat.and_two_pow_sub_one_eq_mod,
    Nat.mod_mod]

@[simp] theorem units_neg (x : F) : units (neg x) = units x := by rw [units_eq, units_eq, magBits_neg]

@[simp] theorem units_abs (x : F) : units (abs x) = units x := by rw [units_eq, units_eq, magBits_abs]

@[simp] theorem isFinite_neg (x : F) : isFinite (neg x) = isFinite x := by
  rw [Bool.eq_iff_iff, isFinite_iff, isFinite_iff, magBits_neg]

@[simp] theorem isFinite_abs (x : F) : isFinite (abs x) = isFinite x := by
  rw [Bool.eq_iff_iff, isFinite_iff, isFinite_iff, magBits_abs]

@[simp] theorem isNaN_neg (x : F) : isNaN (neg x) = isNaN x := by
  rw [Bool.eq_iff_iff, isNaN_iff, isNaN_iff, magBits_neg]

@[simp] theorem neg_neg (x : F) : neg (neg x) = x :=
  eq_of_sign_magBits (by simp) (by simp)

@[simp] theorem abs_neg (x : F) : abs (neg x) = abs x :=
  eq_of_sign_magBits (by simp) (by simp)

theorem key_eq (x : F) : key x = if sign x then -(magBits x : Int) else (magBits x : Int) := rfl

@[simp] theorem key_neg (x : F) : key (neg x) = -key x := by
  rw [key_eq, key_eq, sign_neg, magBits_neg]
  cases sign x <;> simp

@[simp] theorem value_neg (x : F) : value (neg x) = -value x := by
  unfold value
  rw [sign_neg, units_neg]
  cases sign x <;> simp

/-- The order of keys is the order of values. -/
theorem value_le_iff (x y : F) : value x ≤ value y ↔ key x ≤ key y := by
  unfold value
  rw [key_eq, key_eq, units_eq, units_eq]
  have h0 : unitsOf 0 = 0 := by decide
  have hx := unitsOf_le_iff (a := magBits x) (b := magBits y)
  have hy := unitsOf_le_iff (a := magBits y) (b := magBits x)
  have hx0 := unitsOf_le_iff (a := magBits x) (b := 0)
  have hy0 := unitsOf_le_iff (a := magBits y) (b := 0)
  rw [h0] at hx0 hy0
  cases sign x <;> cases sign y <;> simp <;> omega

theorem lt_iff (a b : F) : lt a b = true ↔ isNaN a = false ∧ isNaN b = false ∧ key a < key b := by
  unfold lt
  simp only [Bool.and_eq_true, Bool.not_eq_true', decide_eq_true_eq, and_assoc]

theorem le_iff (a b : F) : le a b = true ↔ isNaN a = false ∧ isNaN b = false ∧ key a ≤ key b := by
  unfold le
  simp only [Bool.and_eq_true, Bool.not_eq_true', decide_eq_true_eq, and_assoc]

theorem not_lt_of_le {a b : F} (h : le a b = true) : lt b a = false := by
  rw [← Bool.not_eq_true, lt_iff]
  rw [le_iff] at h
  omega

/-- Under its precondition a clamp is the nested comparison of 00_scope.md R16. -/
theorem clamp_of_le {x lo hi : F} (h : le lo hi = true) :
    clamp x lo hi = if lt hi x then hi else if lt x lo then lo else x := if_pos h

/-- What a clamp between ordered bounds answers for an argument that is no NaN (00_scope.md R16). -/
theorem clamp_mem {x lo hi : F} (h : le lo hi = true) (hx : isNaN x = false) :
    le lo (clamp x lo hi) = true ∧ le (clamp x lo hi) hi = true := by
  have hlh := (le_iff lo hi).mp h
  rw [clamp_of_le h]
  by_cases h1 : lt hi x = true
  · rw [if_pos h1]
    exact ⟨h, (le_iff hi hi).mpr ⟨hlh.2.1, hlh.2.1, le_refl _⟩⟩
  · rw [if_neg h1]
    rw [lt_iff] at h1
    by_cases h2 : lt x lo = true
    · rw [if_pos h2]
      exact ⟨(le_iff lo lo).mpr ⟨hlh.1, hlh.1, le_refl _⟩, h⟩
    · rw [if_neg h2]
      rw [lt_iff] at h2
      exact ⟨(le_iff _ _).mpr ⟨hlh.1, hx, by by_contra hc; exact h2 ⟨hx, hlh.1, by omega⟩⟩,
        (le_iff _ _).mpr ⟨hx, hlh.2.1, by by_contra hc; exact h1 ⟨hlh.2.1, hx, by omega⟩⟩⟩

/-- A number between two finite ones is finite. -/
theorem isFinite_of_le_of_le {x lo hi : F} (h1 : le lo x = true) (h2 : le x hi = true) (hlo : isFinite lo = true)
    (hhi : isFinite hi = true) : isFinite x = true := by
  rw [isFinite_iff] at *
  have k1 := ((le_iff _ _).mp h1).2.2
  have k2 := ((le_iff _ _).mp h2).2.2
  rw [key_eq, key_eq] at k1 k2
  cases hs : sign x <;> cases hl : sign lo <;> cases hh : sign hi <;> rw [hs, hl] at k1 <;> rw [hs, hh] at k2 <;>
    simp only [Bool.false_eq_true, if_false, if_true] at k1 k2 <;> omega

theorem rounded_eq_pack {neg : Bool} {num den : Nat} {other : F} (h : roundBits num den < infBits) :
    rounded neg num den other = pack neg (roundBits num den) := if_pos h

/-- A product of finite numbers that stays in range. -/
theorem mul_eq_pack {a b : F} (ha : isFinite a = true) (hb : isFinite b = true)
    (h : roundBits (units a * units b) (2 ^ 149) < infBits) :
    mul a b = pack (sign a != sign b) (roundBits (units a * units b) (2 ^ 149)) := by
  unfold mul
  rw [ha, hb, Bool.and_self, if_pos rfl, rounded_eq_pack h]

/-- Multiplication by a number of magnitude 1 is exact (40_tx_encoder.md R123). -/
theorem mul_unit {a b : F} (ha : isFinite a = true) (hb : isFinite b = true) (hu : units b = 2 ^ 149) :
    mul a b = if sign b then neg a else a := by
  have hm : roundBits (units a * units b) (2 ^ 149) = magBits a := by
    have := roundBits_mul (units a) (2 ^ 149) 1 (by norm_num)
    rw [Nat.one_mul] at this
    rw [hu, this, units_eq, roundBits_unitsOf]
  have hfin := (isFinite_iff a).mp ha
  rw [mul_eq_pack ha hb (by rw [hm]; exact hfin), hm]
  have hlt := magBits_lt a
  refine eq_of_sign_magBits ?_ ?_
  · rw [sign_pack hlt]
    cases hs : sign b <;> simp
  · rw [magBits_pack hlt]
    cases hs : sign b <;> simp

/-- Multiplication by a fixed non-negative number keeps the order, in range. -/
theorem mul_le_mul_left {c x y : F} (hc : isFinite c = true) (hs : sign c = false) (hx : isFinite x = true)
    (hy : isFinite y = true) (hrx : roundBits (units c * units x) (2 ^ 149) < infBits)
    (hry : roundBits (units c * units y) (2 ^ 149) < infBits) (h : le x y = true) :
    le (mul c x) (mul c y) = true := by
  have hkey := ((le_iff x y).mp h).2.2
  rw [mul_eq_pack hc hx hrx, mul_eq_pack hc hy hry, le_iff]
  have hlx : roundBits (units c * units x) (2 ^ 149) < 2 ^ 31 := hrx.trans (by decide)
  have hly : roundBits (units c * units y) (2 ^ 149) < 2 ^ 31 := hry.trans (by decide)
  refine ⟨isNaN_of_isFinite ((isFinite_iff _).mpr (by rw [magBits_pack hlx]; exact hrx)),
    isNaN_of_isFinite ((isFinite_iff _).mpr (by rw [magBits_pack hly]; exact hry)), ?_⟩
  rw [key_eq, key_eq, sign_pack hlx, sign_pack hly, magBits_pack hlx, magBits_pack hly, hs]
  rw [key_eq, key_eq] at hkey
  have hmono : ∀ {a b : F}, magBits a ≤ magBits b →
      roundBits (units c * units a) (2 ^ 149) ≤ roundBits (units c * units b) (2 ^ 149) := by
    intro a b hab
    refine roundBits_mono (by norm_num) (Nat.mul_le_mul_left _ ?_)
    rw [units_eq, units_eq]
    exact unitsOf_le_iff.mpr hab
  have hzero : ∀ {a : F}, magBits a = 0 → roundBits (units c * units a) (2 ^ 149) = 0 := by
    intro a ha
    have : units a = 0 := by rw [units_eq, ha]; rfl
    rw [this, Nat.mul_zero, roundBits_zero (by norm_num)]
  cases hsx : sign x <;> cases hsy : sign y <;> simp only [hsx, hsy, Bool.false_eq_true, if_false, if_true] at hkey ⊢ <;>
    simp only [Bool.bne_true, Bool.not_false, Bool.false_eq_true, if_false, if_true, bne_self_eq_false]
  · exact_mod_cast hmono (by omega)
  · have h1 := hzero (a := x) (by omega)
    have h2 := hzero (a := y) (by omega)
    rw [h1, h2]; simp
  · omega
  · have := hmono (a := y) (b := x) (by omega)
    omega

/-- Every magnitude of at most 24 significant bits, in range, is representable. -/
theorem exists_unitsOf_eq {m : Nat} (hm : m < 2 ^ 24) (e : Nat) (he : e ≤ 253) :
    ∃ b, b < infBits ∧ unitsOf b = m * 2 ^ e := by
  induction e generalizing m with
  | zero =>
    refine ⟨m, hm.trans (by decide), ?_⟩
    rw [Nat.pow_zero, Nat.mul_one]
    unfold unitsOf
    by_cases h : m < 2 ^ 23
    · rw [if_pos h]
    · have h1 : m / 2 ^ 23 - 1 = 0 := by omega
      rw [if_neg h, h1]
      omega
  | succ e ih =>
    by_cases h : m < 2 ^ 23
    · obtain ⟨b, hb, hu⟩ := ih (m := 2 * m) (by omega) (by omega)
      exact ⟨b, hb, by rw [hu, Nat.pow_succ]; ring⟩
    · refine ⟨(e + 1) * 2 ^ 23 + m, ?_, ?_⟩
      · unfold infBits
        omega
      · have h1 : ((e + 1) * 2 ^ 23 + m) % 2 ^ 23 = m - 2 ^ 23 := by omega
        have h2 : ((e + 1) * 2 ^ 23 + m) / 2 ^ 23 - 1 = e + 1 := by omega
        have h3 : 2 ^ 23 + (m - 2 ^ 23) = m := by omega
        rw [unitsOf, if_neg (by omega), h1, h2, h3]

/-- A result of at most 24 significant bits, in range, is exact. -/
theorem rounded_exact {neg : Bool} {num den m e : Nat} {other : F} (hden : 0 < den) (h : num = m * 2 ^ e * den)
    (hm : m < 2 ^ 24) (he : e ≤ 253) :
    isFinite (rounded neg num den other) = true ∧ sign (rounded neg num den other) = neg ∧
      units (rounded neg num den other) = m * 2 ^ e := by
  obtain ⟨b, hb, hu⟩ := exists_unitsOf_eq hm e he
  have hr : roundBits num den = b := by
    have := roundBits_mul (unitsOf b) den 1 hden
    rw [Nat.one_mul] at this
    rw [h, ← hu, this, roundBits_unitsOf]
  have hlt : b < 2 ^ 31 := hb.trans (by decide)
  rw [rounded_eq_pack (by rw [hr]; exact hb), hr, isFinite_iff, units_eq, magBits_pack hlt, sign_pack hlt]
  exact ⟨hb, rfl, hu⟩

/-- The value of a number in its sign and magnitude. -/
theorem value_eq (x : F) : value x = if sign x then -(units x : Int) else (units x : Int) := rfl

end Sys2Proof.Machine.Bin32
end

