-- ==== Sys2Proof/Laws/Transport.lean ====
section
/-! SUPPORT. What the transport operations can do: the queue primitives on a known queue, the two ends of a send, and
the frame builder. Cited in place of their definitions. -/

namespace Sys2Proof.Machine

theorem qPop_of_cons {s : State} {b : Byte} {rest : List Byte} (h : s.rxq = b :: rest) :
    qPop s = some { s with rxq := rest } := by
  simp only [qPop, h]

theorem qTake_of_cons {s : State} {b : Byte} {rest : List Byte} (h : s.rxq = b :: rest) :
    qTake s = some (b, { s with rxq := rest, ckAcc := s.checksum.feed s.ckAcc b }) := by
  simp only [qTake, h]

theorem qSync_of_cons {s : State} {b : Byte} {rest : List Byte} (h : s.rxq = b :: rest) :
    qSync s = some { s with rxq := rest, ckAcc := s.checksum.sync s.ckAcc } := by
  simp only [qSync, h]

theorem qTakeWord_of_cons {s : State} {hi lo : Byte} {rest : List Byte} (h : s.rxq = hi :: lo :: rest) :
    qTakeWord s =
      some (wordOf hi lo,
        { s with rxq := rest, ckAcc := s.checksum.feed (s.checksum.feed s.ckAcc hi) lo }) := by
  rw [qTakeWord, qTake_of_cons h]
  simp only
  rw [qTake_of_cons (s := { s with rxq := lo :: rest, ckAcc := s.checksum.feed s.ckAcc hi }) rfl]
  rfl

theorem qFront_of_cons {s : State} {b : Byte} {rest : List Byte} (h : s.rxq = b :: rest) :
    qFront s = some b := by
  simp only [qFront, h, List.head?_cons]

theorem qEmpty_of_cons {s : State} {b : Byte} {rest : List Byte} (h : s.rxq = b :: rest) :
    qEmpty s = false := by
  simp [qEmpty, h]

theorem qEmpty_of_nil {s : State} (h : s.rxq = []) : qEmpty s = true := by
  simp [qEmpty, h]

@[simp] theorem ckFeedAll_nil (c : Ck) (a : Nat) : ckFeedAll c a [] = a := rfl

@[simp] theorem ckFeedAll_cons (c : Ck) (a : Nat) (b : Byte) (bs : List Byte) :
    ckFeedAll c a (b :: bs) = ckFeedAll c (c.feed a b) bs := rfl

theorem ckFeedAll_append (c : Ck) (a : Nat) (xs ys : List Byte) :
    ckFeedAll c a (xs ++ ys) = ckFeedAll c (ckFeedAll c a xs) ys := by
  simp [ckFeedAll, List.foldl_append]

/-- A magnitude that fits a byte is its payload (40_tx_encoder.md R123). -/
theorem payloadByte_of_le {mag : Int} (h0 : 0 ≤ mag) (h : mag ≤ 255) : payloadByte mag = BitVec.ofInt 8 mag :=
  if_pos ⟨h0, h⟩

/-- A frame written out (40_tx_encoder.md R122). -/
theorem frame_eq (cfg : Cfg) (cmd : Byte) (payload : List Byte) :
    frame cfg cmd payload =
      0xFF :: 0xFF :: cmd :: cfg.motorId :: (payload ++
        [(ckOf cfg.ck).trailer (ckFeedAll (ckOf cfg.ck) (ckBodyStart (ckOf cfg.ck)) (cmd :: cfg.motorId :: payload))]) :=
  rfl

@[simp] theorem frame_length (cfg : Cfg) (cmd : Byte) (payload : List Byte) :
    (frame cfg cmd payload).length = payload.length + 5 := by
  simp [frame_eq]

/-- The count LINE accepts when it accepts a whole frame. -/
theorem sendCount_of_acceptsAll {s : State} (h : AcceptsAll s s.txq.length) : sendCount s = s.txq.length := by
  unfold sendCount AcceptsAll at *
  cases hl : s.lineAccepts with
  | nil => rfl
  | cons k ks => rw [hl] at h; exact Nat.min_eq_right (h k (by simp))

/-- The count LINE accepts never exceeds what is queued (20_memory.md R69). -/
theorem sendCount_le (s : State) : sendCount s ≤ s.txq.length := by
  unfold sendCount
  split
  · exact Nat.le_refl _
  · exact Nat.min_le_right _ _

theorem sendFrame_eq (bytes : List Byte) (s : State) :
    sendFrame bytes s =
      if sendCount (txEnqueue bytes s) = bytes.length then .sent (txSend (txEnqueue bytes s)).2
      else
        .lost (raiseConnectionLost (sendCount (txEnqueue bytes s)) bytes.length (txSend (txEnqueue bytes s)).2) := rfl

/-- A frame accepted whole (40_tx_encoder.md R127). -/
theorem sendFrame_of_acceptsAll {s : State} {bytes : List Byte} (hq : s.txq = []) (ha : AcceptsAll s bytes.length) :
    sendFrame bytes s = .sent (afterSend bytes s) := by
  have hlen : (txEnqueue bytes s).txq = bytes := by simp [hq]
  have hc : sendCount (txEnqueue bytes s) = bytes.length := by
    rw [sendCount_of_acceptsAll]
    · rw [hlen]
    · rw [hlen]; exact ha
  rw [sendFrame_eq, if_pos hc]
  simp only [txSend, hc, hlen, List.take_length, List.drop_length]
  simp only [afterSend, txEnqueue, hq]

/-- A frame accepted in part (40_tx_encoder.md R128). -/
theorem sendFrame_of_partial {s : State} {bytes : List Byte} {n : Nat} (hq : s.txq = [])
    (hn : s.lineAccepts.head? = some n) (hlt : n < bytes.length) :
    sendFrame bytes s =
      .lost
        { s with
          connLost := true
          result := .connectionLost n bytes.length
          txLog := s.txLog ++ bytes.take n
          txq := bytes.drop n
          lineAccepts := s.lineAccepts.tail } := by
  have hlen : (txEnqueue bytes s).txq = bytes := by simp [hq]
  have hc : sendCount (txEnqueue bytes s) = n := by
    unfold sendCount
    cases hl : s.lineAccepts with
    | nil => rw [hl] at hn; cases hn
    | cons k ks =>
      rw [hl] at hn
      cases hn
      simp only [txEnqueue_lineAccepts, hl, hlen]
      exact Nat.min_eq_left hlt.le
  rw [sendFrame_eq, if_neg (hc ▸ hlt.ne)]
  simp only [txSend, hc, hlen]
  simp only [raiseConnectionLost, txEnqueue]

/-- Everything a send can do to the state: the log grows by what was accepted, the rest stays queued, and a short
count sets `connLost`. -/
theorem sendFrame_cases (bytes : List Byte) (s : State) :
    ∃ n, n ≤ (s.txq ++ bytes).length ∧
      ((n = bytes.length ∧
          sendFrame bytes s =
            .sent
              { s with
                txLog := s.txLog ++ (s.txq ++ bytes).take n
                txq := (s.txq ++ bytes).drop n
                lineAccepts := s.lineAccepts.tail }) ∨
        (n ≠ bytes.length ∧
          sendFrame bytes s =
            .lost
              { s with
                connLost := true
                result := .connectionLost n bytes.length
                txLog := s.txLog ++ (s.txq ++ bytes).take n
                txq := (s.txq ++ bytes).drop n
                lineAccepts := s.lineAccepts.tail })) := by
  refine ⟨sendCount (txEnqueue bytes s), sendCount_le (txEnqueue bytes s), ?_⟩
  by_cases h : sendCount (txEnqueue bytes s) = bytes.length
  · exact .inl ⟨h, by rw [sendFrame_eq, if_pos h]; rfl⟩
  · exact .inr ⟨h, by rw [sendFrame_eq, if_neg h]; rfl⟩

end Sys2Proof.Machine
end

