-- ==== Sys2Proof/Laws/Decoder.lean ====
section
/-! SUPPORT. What the decoder can do: the takes of a body on a known queue, one lemma saying everything a decode step
and a drain can do, and how a decode step answers on a longer queue. -/

namespace Sys2Proof.Machine

theorem List.exists_cons_of_succ_le_length {n : Nat} {l : List Byte} (h : n + 1 ≤ l.length) :
    ∃ a r, l = a :: r ∧ n ≤ r.length := by
  cases l with
  | nil => simp at h
  | cons a r => exact ⟨a, r, rfl, by simpa using h⟩

/-- The thirteen takes of a `STATE` body (41_rx_decoder.md R149). -/
theorem takeState_eq {s : State} {c i p1 p0 c1 c0 b1 b0 v1 v0 t1 t0 k : Byte} {rest : List Byte}
    (h : s.rxq = c :: i :: p1 :: p0 :: c1 :: c0 :: b1 :: b0 :: v1 :: v0 :: t1 :: t0 :: k :: rest) :
    takeState s =
      some
        { s with
          rxq := rest
          ckAcc := ckFeedAll s.checksum s.ckAcc [c, i, p1, p0, c1, c0, b1, b0, v1, v0, t1, t0, k]
          stg :=
            { id := i, w0 := wordOf p1 p0, w1 := wordOf c1 c0, w2 := wordOf b1 b0, w3 := wordOf v1 v0,
              w4 := wordOf t1 t0 } } := by
  obtain ⟨cfg, snap, ctrl, mode, dir, ps, elapsed, stat, connLost, stg, rxq, ckAcc, txq, txLog, requests, frameRows, result,
    lineChunks, lineAccepts, freeCount⟩ := s
  simp only at h
  subst h
  rfl

/-- The three takes of a `PINGREPLY` body (R153). -/
theorem takePingReply_eq {s : State} {c i k : Byte} {rest : List Byte} (h : s.rxq = c :: i :: k :: rest) :
    takePingReply s =
      some (i, { s with rxq := rest, ckAcc := ckFeedAll s.checksum s.ckAcc [c, i, k] }) := by
  obtain ⟨cfg, snap, ctrl, mode, dir, ps, elapsed, stat, connLost, stg, rxq, ckAcc, txq, txLog, requests, frameRows, result,
    lineChunks, lineAccepts, freeCount⟩ := s
  simp only at h
  subst h
  rfl

/-- A queue that begins with a whole `STATE` body, byte by byte. -/
theorem exists_state_body {l : List Byte} (h : 13 ≤ l.length) :
    ∃ c i p1 p0 c1 c0 b1 b0 v1 v0 t1 t0 k rest,
      l = c :: i :: p1 :: p0 :: c1 :: c0 :: b1 :: b0 :: v1 :: v0 :: t1 :: t0 :: k :: rest := by
  obtain ⟨a0, l0, rfl, h0⟩ := List.exists_cons_of_succ_le_length h
  obtain ⟨a1, l1, rfl, h1⟩ := List.exists_cons_of_succ_le_length h0
  obtain ⟨a2, l2, rfl, h2⟩ := List.exists_cons_of_succ_le_length h1
  obtain ⟨a3, l3, rfl, h3⟩ := List.exists_cons_of_succ_le_length h2
  obtain ⟨a4, l4, rfl, h4⟩ := List.exists_cons_of_succ_le_length h3
  obtain ⟨a5, l5, rfl, h5⟩ := List.exists_cons_of_succ_le_length h4
  obtain ⟨a6, l6, rfl, h6⟩ := List.exists_cons_of_succ_le_length h5
  obtain ⟨a7, l7, rfl, h7⟩ := List.exists_cons_of_succ_le_length h6
  obtain ⟨a8, l8, rfl, h8⟩ := List.exists_cons_of_succ_le_length h7
  obtain ⟨a9, l9, rfl, h9⟩ := List.exists_cons_of_succ_le_length h8
  obtain ⟨a10, l10, rfl, h10⟩ := List.exists_cons_of_succ_le_length h9
  obtain ⟨a11, l11, rfl, h11⟩ := List.exists_cons_of_succ_le_length h10
  obtain ⟨a12, l12, rfl, -⟩ := List.exists_cons_of_succ_le_length h11
  exact ⟨a0, a1, a2, a3, a4, a5, a6, a7, a8, a9, a10, a11, a12, l12, rfl⟩

/-- A queue that begins with a whole `PINGREPLY` body. -/
theorem exists_pingReply_body {l : List Byte} (h : 3 ≤ l.length) : ∃ c i k rest, l = c :: i :: k :: rest := by
  obtain ⟨a0, l0, rfl, h0⟩ := List.exists_cons_of_succ_le_length h
  obtain ⟨a1, l1, rfl, h1⟩ := List.exists_cons_of_succ_le_length h0
  obtain ⟨a2, l2, rfl, -⟩ := List.exists_cons_of_succ_le_length h1
  exact ⟨a0, a1, a2, l2, rfl⟩

/-- What a commit writes depends on these four fields alone (R150). -/
theorem commit_snap_congr {a b : State} (h1 : a.snap = b.snap) (h2 : a.dir = b.dir) (h3 : a.cfg = b.cfg)
    (h4 : a.stg = b.stg) : (commit a).snap = (commit b).snap := by
  simp only [commit_snap, h1, h2, h3, h4]

/-- A verdict and a commit do not touch the accumulator (R151). -/
theorem ckValid_with_snap_ps (s : State) (x : Snapshot) (p : ParseState) :
    ckValid { s with snap := x, ps := p } = ckValid s := rfl

theorem State.with_snap_self (s : State) (x : Snapshot) :
    { s with snap := x } = { s with snap := ({ s with snap := x } : State).snap } := rfl

/-- A commit writes `SNAP` and nothing else (R151). -/
theorem commit_eq (s : State) : commit s = { s with snap := (commit s).snap } := State.with_snap_self s _

theorem State.with_ps_congr {s t : State} (h : s = t) (p : ParseState) : { s with ps := p } = { t with ps := p } :=
  h ▸ rfl

/-- Everything a decode step can do to the state (R160), whatever its arm. -/
structure StepEffect (s : State) (p : Progress) (t : State) : Prop where
  /-- only `SNAP`, `PS`, `STG`, `RXQ` and `CKACC` may differ -/
  touches : t = { s with snap := t.snap, ps := t.ps, stg := t.stg, rxq := t.rxq, ckAcc := t.ckAcc }
  /-- bytes leave at the head only -/
  consumes : ∃ taken, s.rxq = taken ++ t.rxq
  /-- `More` removes one byte, stays out of the terminal states and never touches `SNAP` or `STG` -/
  more : p = .more → (∃ b, s.rxq = b :: t.rxq) ∧ s.ps.terminal = false ∧ t.ps.terminal = false ∧ t.snap = s.snap
  /-- `Pending` changes nothing -/
  pending : p = .pending → t = s ∧ s.ps.terminal = false ∧ (s.ps = .processing ∨ s.rxq = [])
  /-- `Done` is a terminal state -/
  done : p = .done ↔ t.ps.terminal = true
  /-- `SNAP` is written by an accepted `STATE` body only, all five fields together -/
  snap : t.snap = s.snap ∨
    (s.ps = .processing ∧ t.ps = .completed ∧ ckValid t = true ∧ t.stg.id = s.cfg.motorId ∧
      t.snap = (commit { s with stg := t.stg }).snap)

theorem stateVerdict_cases (s : State) :
    (s.stg.id = s.cfg.motorId ∧ ckValid s = true ∧ stateVerdict s = { s with snap := (commit s).snap, ps := .completed }) ∨
      (¬(s.stg.id = s.cfg.motorId ∧ ckValid s = true) ∧ stateVerdict s = { s with ps := .invalid }) := by
  unfold stateVerdict
  by_cases h : s.stg.id = s.cfg.motorId ∧ ckValid s = true
  · exact .inl ⟨h.1, h.2, (if_pos h).trans (State.with_ps_congr (commit_eq s) .completed)⟩
  · exact .inr ⟨h, if_neg h⟩

theorem pingReplyVerdict_cases (id : Byte) (s : State) :
    (id = s.cfg.motorId ∧ ckValid s = true ∧ pingReplyVerdict id s = { s with ps := .completed }) ∨
      (¬(id = s.cfg.motorId ∧ ckValid s = true) ∧ pingReplyVerdict id s = { s with ps := .invalid }) := by
  unfold pingReplyVerdict
  by_cases h : id = s.cfg.motorId ∧ ckValid s = true
  · exact .inl ⟨h.1, h.2, if_pos h⟩
  · exact .inr ⟨h, if_neg h⟩

theorem processCommand_effect {s : State} (c : Byte) (hps : s.ps = .processing) :
    ∃ p t, processCommand c s = some (p, t) ∧ p ≠ .more ∧ StepEffect s p t := by
  unfold processCommand
  by_cases h80 : c = Cfg.cmdState
  · rw [if_pos h80]
    by_cases hlen : qLen s < Cfg.stateLength
    · rw [if_pos hlen]
      exact ⟨_, _, rfl, by simp, ⟨rfl, ⟨[], rfl⟩, by simp, by simp [hps, ParseState.terminal],
        by simp [hps, ParseState.terminal], .inl rfl⟩⟩
    · rw [if_neg hlen]
      have h13 : 13 ≤ s.rxq.length := Nat.le_of_not_lt hlen
      obtain ⟨a0, a1, a2, a3, a4, a5, a6, a7, a8, a9, a10, a11, a12, l, hl⟩ := exists_state_body h13
      rw [takeState_eq hl, Option.map_some]
      refine ⟨_, _, rfl, by simp, ?_⟩
      rcases stateVerdict_cases
        { s with
          rxq := l
          ckAcc := ckFeedAll s.checksum s.ckAcc [a0, a1, a2, a3, a4, a5, a6, a7, a8, a9, a10, a11, a12]
          stg :=
            { id := a1, w0 := wordOf a2 a3, w1 := wordOf a4 a5, w2 := wordOf a6 a7, w3 := wordOf a8 a9,
              w4 := wordOf a10 a11 } } with ⟨hid, hck, hv⟩ | ⟨-, hv⟩
      · rw [hv]
        exact ⟨rfl, ⟨_, hl.trans (List.append_assoc [a0, a1, a2, a3, a4, a5, a6, a7, a8, a9, a10, a11, a12] [] l)⟩,
          by simp, by simp, by simp [ParseState.terminal], .inr ⟨hps, rfl, (ckValid_with_snap_ps _ _ _).trans hck, hid, commit_snap_congr rfl rfl rfl rfl⟩⟩
      · rw [hv]
        exact ⟨rfl, ⟨_, hl.trans (List.append_assoc [a0, a1, a2, a3, a4, a5, a6, a7, a8, a9, a10, a11, a12] [] l)⟩,
          by simp, by simp, by simp [ParseState.terminal], .inl rfl⟩
  · rw [if_neg h80]
    by_cases hE1 : c = Cfg.cmdPingReply
    · rw [if_pos hE1]
      by_cases hlen : qLen s < Cfg.pingReplyLength
      · rw [if_pos hlen]
        exact ⟨_, _, rfl, by simp, ⟨rfl, ⟨[], rfl⟩, by simp, by simp [hps, ParseState.terminal],
          by simp [hps, ParseState.terminal], .inl rfl⟩⟩
      · rw [if_neg hlen]
        have h3 : 3 ≤ s.rxq.length := Nat.le_of_not_lt hlen
        obtain ⟨a0, a1, a2, l, hl⟩ := exists_pingReply_body h3
        rw [takePingReply_eq hl, Option.map_some]
        refine ⟨_, _, rfl, by simp, ?_⟩
        rcases pingReplyVerdict_cases a1
          { s with rxq := l, ckAcc := ckFeedAll s.checksum s.ckAcc [a0, a1, a2] } with ⟨-, -, hv⟩ | ⟨-, hv⟩ <;>
        · simp only [hv]
          exact ⟨rfl, ⟨_, hl.trans (List.append_assoc [a0, a1, a2] [] l)⟩,
            by simp, by simp, by simp [ParseState.terminal], .inl rfl⟩
    · rw [if_neg hE1]
      exact ⟨_, _, rfl, by simp, ⟨rfl, ⟨[], rfl⟩, by simp, by simp, by simp [ParseState.terminal], .inl rfl⟩⟩

/-- A decode step always answers, and this is all it can do. -/
theorem decodeStep_effect (s : State) : ∃ p t, decodeStep s = some (p, t) ∧ StepEffect s p t := by
  unfold decodeStep
  cases hps : s.ps with
  | awaitFirstSync =>
    cases hq : s.rxq with
    | nil =>
      rw [qEmpty_of_nil hq]
      exact ⟨_, _, rfl, ⟨rfl, ⟨[], rfl⟩, by simp, by simp [hps, hq, ParseState.terminal],
        by simp [hps, ParseState.terminal], .inl rfl⟩⟩
    | cons b rest =>
      rw [qEmpty_of_cons hq, qFront_of_cons hq]
      by_cases hb : b = Cfg.syncByte
      · have hr : (ckReset s).rxq = b :: rest := hq
        simp only [Bool.false_eq_true, if_false, if_pos hb, qSync_of_cons hr, Option.map_some]
        exact ⟨_, _, rfl, ⟨rfl, ⟨[b], hq⟩, by simp [hps, hq, ParseState.terminal], by simp,
          by simp [ParseState.terminal], .inl rfl⟩⟩
      · simp only [Bool.false_eq_true, if_false, if_neg hb, qPop_of_cons hq, Option.map_some]
        exact ⟨_, _, rfl, ⟨rfl, ⟨[b], hq⟩, by simp [hps, hq, ParseState.terminal], by simp,
          by simp [hps, ParseState.terminal], .inl rfl⟩⟩
  | awaitSecondSync =>
    cases hq : s.rxq with
    | nil =>
      rw [qEmpty_of_nil hq]
      exact ⟨_, _, rfl, ⟨rfl, ⟨[], rfl⟩, by simp, by simp [hps, hq, ParseState.terminal],
        by simp [hps, ParseState.terminal], .inl rfl⟩⟩
    | cons b rest =>
      rw [qEmpty_of_cons hq, qFront_of_cons hq]
      by_cases hb : b = Cfg.syncByte
      · simp only [Bool.false_eq_true, if_false, if_pos hb, qSync_of_cons hq, Option.map_some]
        exact ⟨_, _, rfl, ⟨rfl, ⟨[b], hq⟩, by simp [hps, hq, ParseState.terminal], by simp,
          by simp [ParseState.terminal], .inl rfl⟩⟩
      · simp only [Bool.false_eq_true, if_false, if_neg hb, qPop_of_cons hq, Option.map_some]
        exact ⟨_, _, rfl, ⟨rfl, ⟨[b], hq⟩, by simp [hps, hq, ParseState.terminal], by simp,
          by simp [ParseState.terminal], .inl rfl⟩⟩
  | processing =>
    cases hq : s.rxq with
    | nil =>
      rw [qEmpty_of_nil hq]
      exact ⟨_, _, rfl, ⟨rfl, ⟨[], rfl⟩, by simp, by simp [hps, hq, ParseState.terminal],
        by simp [hps, ParseState.terminal], .inl rfl⟩⟩
    | cons c rest =>
      rw [qEmpty_of_cons hq, qFront_of_cons hq]
      obtain ⟨p, t, h, -, he⟩ := processCommand_effect c hps
      exact ⟨p, t, h, he⟩
  | completed =>
    exact ⟨_, _, rfl, ⟨rfl, ⟨[], rfl⟩, by simp, by simp, by simp [hps, ParseState.terminal], .inl rfl⟩⟩
  | invalid =>
    exact ⟨_, _, rfl, ⟨rfl, ⟨[], rfl⟩, by simp, by simp, by simp [hps, ParseState.terminal], .inl rfl⟩⟩

theorem drainSteps_of_ne_more {s t : State} {p : Progress} (h : decodeStep s = some (p, t)) (hp : p ≠ .more)
    (fuel : Nat) : drainSteps fuel s = some (p, t) := by
  cases fuel with
  | zero => exact h
  | succ n =>
    rw [drainSteps, h]
    cases p with
    | more => exact absurd rfl hp
    | pending => rfl
    | done => rfl

/-- A drain whose first step is not `More` is that step. -/
theorem drain_of_ne_more {s t : State} {p : Progress} (h : decodeStep s = some (p, t)) (hp : p ≠ .more) :
    drain s = some (p, t) := drainSteps_of_ne_more h hp _

/-- A drain goes on after a `More` (R161). -/
theorem drain_of_more {s t : State} (h : decodeStep s = some (.more, t)) : drain s = drain t := by
  obtain ⟨p, t', h', he⟩ := decodeStep_effect s
  rw [h] at h'
  obtain ⟨⟩ := h'
  obtain ⟨⟨b, hb⟩, -⟩ := he.more rfl
  have hlen : qLen s = qLen t + 1 := by simp [qLen, hb]
  rw [drain, hlen, drainSteps, h]
  rfl

/-- Everything a drain can do to the state (R161). -/
structure DrainEffect (s : State) (p : Progress) (t : State) : Prop where
  touches : t = { s with snap := t.snap, ps := t.ps, stg := t.stg, rxq := t.rxq, ckAcc := t.ckAcc }
  consumes : ∃ taken, s.rxq = taken ++ t.rxq
  stops : p ≠ .more
  pending : p = .pending → t.ps = .processing ∨ t.rxq = []
  done : p = .done ↔ t.ps.terminal = true
  snap : t.snap = s.snap ∨
    (t.ps = .completed ∧ ckValid t = true ∧ t.stg.id = s.cfg.motorId ∧
      t.snap = (commit { s with stg := t.stg }).snap)

theorem State.touches_trans {s t u : State}
    (h : t = { s with snap := t.snap, ps := t.ps, stg := t.stg, rxq := t.rxq, ckAcc := t.ckAcc })
    (h' : u = { t with snap := u.snap, ps := u.ps, stg := u.stg, rxq := u.rxq, ckAcc := u.ckAcc }) :
    u = { s with snap := u.snap, ps := u.ps, stg := u.stg, rxq := u.rxq, ckAcc := u.ckAcc } := by
  rw [h', h]

/-- A drain always answers, and this is all it can do. -/
theorem drain_effect (s : State) : ∃ p t, drain s = some (p, t) ∧ DrainEffect s p t := by
  induction hn : s.rxq.length using Nat.strong_induction_on generalizing s with
  | _ n ih =>
    obtain ⟨p, t, h, he⟩ := decodeStep_effect s
    by_cases hp : p = .more
    · subst hp
      obtain ⟨⟨b, hb⟩, -, -, hsnap⟩ := he.more rfl
      obtain ⟨p', u, hu, heu⟩ := ih t.rxq.length (by rw [← hn, hb]; simp) t rfl
      have hcfg : t.cfg = s.cfg := by rw [he.touches]
      have hdir : t.dir = s.dir := by rw [he.touches]
      refine ⟨p', u, (drain_of_more h).trans hu, State.touches_trans he.touches heu.touches, ?_, heu.stops,
        heu.pending, heu.done, ?_⟩
      · obtain ⟨l, hl⟩ := heu.consumes
        exact ⟨b :: l, by rw [hb, hl]; rfl⟩
      · rcases heu.snap with h1 | ⟨h1, hck, h2, h3⟩
        · exact .inl (h1.trans hsnap)
        · exact .inr ⟨h1, hck, h2.trans (congrArg Cfg.motorId hcfg),
            h3.trans (commit_snap_congr hsnap hdir hcfg rfl)⟩
    · refine ⟨p, t, drain_of_ne_more h hp, he.touches, he.consumes, hp, ?_, he.done, ?_⟩
      · intro hpend
        obtain ⟨rfl, -, h1⟩ := he.pending hpend
        exact h1
      · exact he.snap.imp_right fun ⟨_, h2⟩ => h2

theorem stateVerdict_rxq (s : State) (q : List Byte) :
    stateVerdict { s with rxq := q } = { stateVerdict s with rxq := q } := by
  unfold stateVerdict
  by_cases h : s.stg.id = s.cfg.motorId ∧ ckValid s = true
  · rw [if_pos h, if_pos (by exact h)]
    rfl
  · rw [if_neg h, if_neg (by exact h)]

theorem pingReplyVerdict_rxq (id : Byte) (s : State) (q : List Byte) :
    pingReplyVerdict id { s with rxq := q } = { pingReplyVerdict id s with rxq := q } := by
  unfold pingReplyVerdict
  by_cases h : id = s.cfg.motorId ∧ ckValid s = true
  · rw [if_pos h, if_pos (by exact h)]
  · rw [if_neg h, if_neg (by exact h)]

theorem stateVerdict_keeps_rxq (s : State) : (stateVerdict s).rxq = s.rxq := by
  rcases stateVerdict_cases s with ⟨-, -, h⟩ | ⟨-, h⟩ <;> rw [h]

theorem pingReplyVerdict_keeps_rxq (id : Byte) (s : State) : (pingReplyVerdict id s).rxq = s.rxq := by
  rcases pingReplyVerdict_cases id s with ⟨-, -, h⟩ | ⟨-, h⟩ <;> rw [h]

theorem processCommand_append {s t : State} {c : Byte} {p : Progress} (h : processCommand c s = some (p, t))
    (hp : p ≠ .pending) (more : List Byte) :
    processCommand c { s with rxq := s.rxq ++ more } = some (p, { t with rxq := t.rxq ++ more }) := by
  unfold processCommand at h ⊢
  by_cases h80 : c = Cfg.cmdState
  · rw [if_pos h80] at h ⊢
    by_cases hlen : qLen s < Cfg.stateLength
    · rw [if_pos hlen] at h
      cases h
      exact absurd rfl hp
    · have h13 : 13 ≤ s.rxq.length := Nat.le_of_not_lt hlen
      have hlen' : ¬qLen { s with rxq := s.rxq ++ more } < Cfg.stateLength := by
        simp only [qLen, Cfg.stateLength, List.length_append]
        omega
      obtain ⟨a0, a1, a2, a3, a4, a5, a6, a7, a8, a9, a10, a11, a12, l, hl⟩ := exists_state_body h13
      have hl' : ({ s with rxq := s.rxq ++ more } : State).rxq =
          a0 :: a1 :: a2 :: a3 :: a4 :: a5 :: a6 :: a7 :: a8 :: a9 :: a10 :: a11 :: a12 :: (l ++ more) := by
        simp only [hl, List.cons_append]
      rw [if_neg hlen, takeState_eq hl, Option.map_some] at h
      rw [if_neg hlen', takeState_eq hl', Option.map_some]
      cases h
      rw [stateVerdict_keeps_rxq]
      exact congrArg (fun u => some (Progress.done, u)) (stateVerdict_rxq
        { s with
          rxq := l
          ckAcc := ckFeedAll s.checksum s.ckAcc [a0, a1, a2, a3, a4, a5, a6, a7, a8, a9, a10, a11, a12]
          stg :=
            { id := a1, w0 := wordOf a2 a3, w1 := wordOf a4 a5, w2 := wordOf a6 a7, w3 := wordOf a8 a9,
              w4 := wordOf a10 a11 } } (l ++ more))
  · rw [if_neg h80] at h ⊢
    by_cases hE1 : c = Cfg.cmdPingReply
    · rw [if_pos hE1] at h ⊢
      by_cases hlen : qLen s < Cfg.pingReplyLength
      · rw [if_pos hlen] at h
        cases h
        exact absurd rfl hp
      · have h3 : 3 ≤ s.rxq.length := Nat.le_of_not_lt hlen
        have hlen' : ¬qLen { s with rxq := s.rxq ++ more } < Cfg.pingReplyLength := by
          simp only [qLen, Cfg.pingReplyLength, List.length_append]
          omega
        obtain ⟨a0, a1, a2, l, hl⟩ := exists_pingReply_body h3
        have hl' : ({ s with rxq := s.rxq ++ more } : State).rxq = a0 :: a1 :: a2 :: (l ++ more) := by
          simp only [hl, List.cons_append]
        rw [if_neg hlen, takePingReply_eq hl, Option.map_some] at h
        rw [if_neg hlen', takePingReply_eq hl', Option.map_some]
        cases h
        rw [pingReplyVerdict_keeps_rxq]
        exact congrArg (fun u => some (Progress.done, u)) (pingReplyVerdict_rxq a1
          { s with rxq := l, ckAcc := ckFeedAll s.checksum s.ckAcc [a0, a1, a2] } (l ++ more))
    · rw [if_neg hE1] at h ⊢
      cases h
      rfl

/-- More bytes at the tail change neither what a decode step answers nor what it takes, unless it was waiting for
them. -/
theorem decodeStep_append {s t : State} {p : Progress} (h : decodeStep s = some (p, t)) (hp : p ≠ .pending)
    (more : List Byte) :
    decodeStep { s with rxq := s.rxq ++ more } = some (p, { t with rxq := t.rxq ++ more }) := by
  obtain ⟨cfg, snap, ctrl, mode, dir, ps, elapsed, stat, connLost, stg, rxq, ckAcc, txq, txLog, requests, frameRows, result,
    lineChunks, lineAccepts, freeCount⟩ := s
  cases ps with
  | completed => cases h; rfl
  | invalid => cases h; rfl
  | awaitFirstSync =>
    cases rxq with
    | nil => cases h; exact absurd rfl hp
    | cons b rest =>
      by_cases hb : b = Cfg.syncByte
      · simp only [decodeStep, qEmpty, qFront, List.length_cons, List.head?_cons, if_pos hb, List.cons_append,
          ckReset, qSync, Option.map_some, beq_iff_eq, Nat.succ_ne_zero, if_false] at h ⊢
        cases h
        rfl
      · simp only [decodeStep, qEmpty, qFront, List.length_cons, List.head?_cons, if_neg hb, List.cons_append,
          qPop, Option.map_some, beq_iff_eq, Nat.succ_ne_zero, if_false] at h ⊢
        cases h
        rfl
  | awaitSecondSync =>
    cases rxq with
    | nil => cases h; exact absurd rfl hp
    | cons b rest =>
      by_cases hb : b = Cfg.syncByte
      · simp only [decodeStep, qEmpty, qFront, List.length_cons, List.head?_cons, if_pos hb, List.cons_append,
          qSync, Option.map_some, beq_iff_eq, Nat.succ_ne_zero, if_false] at h ⊢
        cases h
        rfl
      · simp only [decodeStep, qEmpty, qFront, List.length_cons, List.head?_cons, if_neg hb, List.cons_append,
          qPop, Option.map_some, beq_iff_eq, Nat.succ_ne_zero, if_false] at h ⊢
        cases h
        rfl
  | processing =>
    cases rxq with
    | nil => cases h; exact absurd rfl hp
    | cons b rest => exact processCommand_append h hp more

end Sys2Proof.Machine
end

