-- ==== Sys2Proof/Laws/Frames.lean ====
section
/-! SUPPORT. The drain run on a whole frame at the head of the queue, and the wait loop and the line operations built
on it: one lemma each saying what they can do. -/

namespace Sys2Proof.Machine

/-- A sync pair at the head takes a drain to `Processing` with a seeded accumulator (41_rx_decoder.md R143, R144). -/
theorem drain_of_sync_pair {s : State} {rest : List Byte} (hps : s.ps = .awaitFirstSync)
    (hq : s.rxq = 0xFF :: 0xFF :: rest) :
    drain s = drain { s with ps := .processing, rxq := rest, ckAcc := ckBodyStart s.checksum } := by
  obtain ⟨cfg, snap, ctrl, mode, dir, ps, elapsed, stat, connLost, stg, rxq, ckAcc, txq, txLog, requests, frameRows, result,
    lineChunks, lineAccepts, freeCount⟩ := s
  simp only at hps hq
  subst hps hq
  exact (drain_of_more (by rfl)).trans (drain_of_more (by rfl))

/-- A whole `STATE` body at the head in `Processing` is taken in one step (R148 to R152). -/
theorem drain_of_state_body {s : State} {i p1 p0 c1 c0 b1 b0 v1 v0 t1 t0 k : Byte} {rest : List Byte}
    (hps : s.ps = .processing)
    (hq : s.rxq = 0x80 :: i :: p1 :: p0 :: c1 :: c0 :: b1 :: b0 :: v1 :: v0 :: t1 :: t0 :: k :: rest) :
    drain s =
      some (.done, stateVerdict
        { s with
          rxq := rest
          ckAcc := ckFeedAll s.checksum s.ckAcc [0x80, i, p1, p0, c1, c0, b1, b0, v1, v0, t1, t0, k]
          stg :=
            { id := i, w0 := wordOf p1 p0, w1 := wordOf c1 c0, w2 := wordOf b1 b0, w3 := wordOf v1 v0,
              w4 := wordOf t1 t0 } }) := by
  refine drain_of_ne_more (p := .done) ?_ (by simp)
  have hlen : ¬qLen s < Cfg.stateLength := by simp [qLen, hq, Cfg.stateLength]
  simp only [decodeStep, hps, qEmpty_of_cons hq, qFront_of_cons hq, Bool.false_eq_true, if_false]
  rw [processCommand, if_pos (show (0x80 : Byte) = Cfg.cmdState from rfl), if_neg hlen, takeState_eq hq]
  rfl

/-- A whole `PINGREPLY` body at the head in `Processing` is taken in one step (R153, R154). -/
theorem drain_of_pingReply_body {s : State} {i k : Byte} {rest : List Byte} (hps : s.ps = .processing)
    (hq : s.rxq = 0xE1 :: i :: k :: rest) :
    drain s =
      some (.done, pingReplyVerdict i
        { s with rxq := rest, ckAcc := ckFeedAll s.checksum s.ckAcc [0xE1, i, k] }) := by
  refine drain_of_ne_more (p := .done) ?_ (by simp)
  have hlen : ¬qLen s < Cfg.pingReplyLength := by simp [qLen, hq, Cfg.pingReplyLength]
  simp only [decodeStep, hps, qEmpty_of_cons hq, qFront_of_cons hq, Bool.false_eq_true, if_false]
  rw [processCommand, if_neg (show ¬(0xE1 : Byte) = Cfg.cmdState by decide),
    if_pos (show (0xE1 : Byte) = Cfg.cmdPingReply from rfl), if_neg hlen, takePingReply_eq hq]
  rfl

/-- An unrecognised command byte ends the parse and stays in the queue (R155). -/
theorem drain_of_unknown_command {s : State} {c : Byte} {rest : List Byte} (hps : s.ps = .processing)
    (hq : s.rxq = c :: rest) (h80 : c ≠ 0x80) (hE1 : c ≠ 0xE1) : drain s = some (.done, { s with ps := .invalid }) := by
  refine drain_of_ne_more (p := .done) ?_ (by simp)
  simp only [decodeStep, hps, qEmpty_of_cons hq, qFront_of_cons hq, Bool.false_eq_true, if_false]
  rw [processCommand, if_neg (show ¬c = Cfg.cmdState from h80), if_neg (show ¬c = Cfg.cmdPingReply from hE1)]

/-- A drain of an empty queue outside the terminal states waits. -/
theorem drain_of_empty {s : State} (hps : s.ps.terminal = false) (hq : s.rxq = []) :
    drain s = some (.pending, s) := by
  refine drain_of_ne_more (p := .pending) ?_ (by simp)
  cases h : s.ps <;> simp_all [decodeStep, qEmpty, ParseState.terminal]

/-- Splitting a word and putting it together again (20_memory.md R75). -/
@[simp] theorem wordOf_hiByte_loByte (w : Word) : wordOf (hiByte w) (loByte w) = w := by
  unfold wordOf hiByte loByte
  refine BitVec.eq_of_getLsbD_eq fun i hi => ?_
  rw [BitVec.getLsbD_append]
  by_cases h : i < 8
  · simp [h]
  · have h1 : i - 8 < 8 := by omega
    have h2 : 8 + (i - 8) = i := by omega
    simp only [h, decide_false, BitVec.getLsbD_extractLsb', h1, decide_true, Bool.true_and, h2]
    rfl

/-- Everything `OnlyReceives` lets through a drain. -/
theorem DrainEffect.onlyReceives {s t : State} {p : Progress} (h : DrainEffect s p t) : OnlyReceives s t := by
  unfold OnlyReceives
  rw [h.touches]

theorem OnlyReceives.refl (s : State) : OnlyReceives s s := rfl

theorem OnlyReceives.trans {s t u : State} (h : OnlyReceives s t) (h' : OnlyReceives t u) : OnlyReceives s u := by
  unfold OnlyReceives at *
  rw [h', h]

theorem OnlyReceives.poll (s : State) : OnlyReceives s (poll s) := rfl

theorem OnlyReceives.countWait (s : State) : OnlyReceives s (countWait s) := rfl

theorem OnlyReceives.startWait (s : State) : OnlyReceives s (startWait s) := rfl

/-- What a wait loop with `left` waits still permitted can do (42_wait_loop.md R172 to R178). -/
structure WaitEffect (left : Nat) (s t : State) : Prop where
  receives : OnlyReceives s t
  /-- the waits performed -/
  elapsed_ge : s.elapsed ≤ t.elapsed
  elapsed_le : t.elapsed ≤ s.elapsed + left
  /-- one poll more than waits -/
  polls : t.lineChunks = s.lineChunks.drop (t.elapsed - s.elapsed + 1)
  /-- without a terminal state the whole budget was used -/
  exhausted : t.ps.terminal = false → t.elapsed = s.elapsed + left
  snap : t.snap = s.snap ∨
    (t.ps = .completed ∧ ckValid t = true ∧ t.stg.id = s.cfg.motorId ∧
      t.snap = (commit { s with stg := t.stg }).snap)
  /-- bytes leave at the head and enter at the tail, in the order LINE delivered them (R178; 20_memory.md R81) -/
  stream : ∃ delivered taken, Delivers s.cfg.rxqCap (s.lineChunks.take (t.elapsed - s.elapsed + 1)) delivered ∧
    s.rxq ++ delivered.flatten = taken ++ t.rxq
  /-- the capacity of the queue is kept (20_memory.md R71) -/
  room : ∀ cap, s.cfg.rxqCap = some cap → t.rxq.length ≤ max cap s.rxq.length

theorem pollChunk_prefix (s : State) : pollChunk s <+: s.lineChunks.head?.getD [] := by
  unfold pollChunk
  split
  · exact List.prefix_rfl
  · exact List.take_prefix _ _

theorem pollChunk_of_unbounded {s : State} (h : s.cfg.rxqCap = none) : pollChunk s = s.lineChunks.head?.getD [] := by
  unfold pollChunk
  rw [h]

/-- A chunk that finds room is appended whole. -/
theorem pollChunk_of_hasRoom {s : State} {chunk : List Byte} {later : List (List Byte)}
    (hl : s.lineChunks = chunk :: later) (hroom : HasRoom s chunk.length) : pollChunk s = chunk := by
  unfold pollChunk
  cases hc : s.cfg.rxqCap with
  | none => simp [hl]
  | some cap =>
    have := hroom cap (by simp [hc])
    simp only [hl, List.head?_cons, Option.getD_some]
    exact List.take_of_length_le (by omega)

/-- What one poll appended. -/
theorem exists_delivered_poll (s : State) : ∃ delivered, Delivers s.cfg.rxqCap (s.lineChunks.take 1) delivered ∧
    pollChunk s = delivered.flatten := by
  have hp := pollChunk_prefix s
  have hu := @pollChunk_of_unbounded s
  cases hl : s.lineChunks with
  | nil =>
    rw [hl] at hp
    exact ⟨[], ⟨.nil, fun _ => rfl⟩, List.prefix_nil.mp hp⟩
  | cons c cs =>
    rw [hl] at hp hu
    exact ⟨[pollChunk s], ⟨.cons hp .nil, fun h => by rw [hu h]; rfl⟩, by simp⟩

theorem poll_rxq_length {s : State} {cap : Nat} (h : s.cfg.rxqCap = some cap) :
    (poll s).rxq.length ≤ max cap s.rxq.length := by
  have : (pollChunk s).length ≤ cap - s.rxq.length := by
    unfold pollChunk
    rw [h]
    exact List.length_take_le _ _
  rw [poll_rxq, List.length_append]
  omega

/-- A poll and the drain after it, on the stream of bytes. -/
theorem DrainEffect.stream {s t : State} {p : Progress} (h : DrainEffect (poll s) p t) :
    (∃ delivered taken, Delivers s.cfg.rxqCap (s.lineChunks.take 1) delivered ∧
      s.rxq ++ delivered.flatten = taken ++ t.rxq) ∧
    ∀ cap, s.cfg.rxqCap = some cap → t.rxq.length ≤ max cap s.rxq.length := by
  obtain ⟨taken, ht⟩ := h.consumes
  obtain ⟨d, hd, hc⟩ := exists_delivered_poll s
  refine ⟨⟨d, taken, hd, by rw [← hc, ← ht]; rfl⟩, fun cap hcap => ?_⟩
  have h1 := poll_rxq_length hcap
  rw [ht, List.length_append] at h1
  omega

/-- The last poll of a wait loop, and the drain after it. -/
theorem WaitEffect.of_drain {left : Nat} {s t : State} {p : Progress} (he : DrainEffect (poll s) p t)
    (hleft : t.ps.terminal = false → left = 0) : WaitEffect left s t := by
  have helapsed : t.elapsed = s.elapsed := by rw [he.touches]; rfl
  refine ⟨(OnlyReceives.poll s).trans he.onlyReceives, helapsed.ge, by omega, ?_, ?_, ?_, ?_, he.stream.2⟩
  · rw [he.touches]; simp
  · intro h; rw [hleft h, helapsed]; rfl
  · rcases he.snap with h1 | ⟨h1, h2, h3, h4⟩
    · exact .inl h1
    · exact .inr ⟨h1, h2, h3, h4.trans (commit_snap_congr rfl rfl rfl rfl)⟩
  · rw [helapsed, Nat.sub_self]; exact he.stream.1

theorem waitLoop_effect (left : Nat) (s : State) : ∃ t, waitLoop left s = some t ∧ WaitEffect left s t := by
  induction left generalizing s with
  | zero =>
    obtain ⟨p, t, h, he⟩ := drain_effect (poll s)
    exact ⟨t, by rw [waitLoop, h]; rfl, .of_drain he fun _ => rfl⟩
  | succ n ih =>
    obtain ⟨p, t, h, he⟩ := drain_effect (poll s)
    by_cases hp : p = .done
    · subst hp
      refine ⟨t, by rw [waitLoop, h], .of_drain he fun hterm => ?_⟩
      rw [he.done.mp rfl] at hterm
      cases hterm
    · obtain ⟨u, hu, hw⟩ := ih (countWait t)
      have helapsed : t.elapsed = s.elapsed := by rw [he.touches]; rfl
      have hchunks : t.lineChunks = s.lineChunks.tail := by rw [he.touches]; rfl
      have hcfg : t.cfg = s.cfg := by rw [he.touches]; rfl
      have hdir : t.dir = s.dir := by rw [he.touches]; rfl
      have hpend : p = .pending := by
        cases p with
        | more => exact absurd rfl he.stops
        | done => exact absurd rfl hp
        | pending => rfl
      have hge := hw.elapsed_ge
      have hle := hw.elapsed_le
      simp only [countWait_elapsed] at hge hle
      have hsnap : t.snap = s.snap := by
        rcases he.snap with h1 | ⟨h1, -⟩
        · exact h1
        · exact absurd (he.done.mpr (by rw [h1]; rfl)) hp
      refine ⟨u, ?_, ((OnlyReceives.poll s).trans he.onlyReceives).trans
        ((OnlyReceives.countWait t).trans hw.receives), ?_, ?_, ?_, ?_, ?_, ?_, ?_⟩
      · rw [waitLoop, h, hpend]; exact hu
      · omega
      · omega
      · rw [hw.polls]
        simp only [countWait_lineChunks, countWait_elapsed, hchunks, helapsed, ← List.drop_one, List.drop_drop]
        congr 1
        omega
      · intro hterm
        have := hw.exhausted hterm
        simp only [countWait_elapsed] at this
        omega
      · rcases hw.snap with h1 | ⟨h1, h2, h3, h4⟩
        · exact .inl (h1.trans hsnap)
        · exact .inr ⟨h1, h2, h3.trans (congrArg Cfg.motorId hcfg), h4.trans (commit_snap_congr hsnap hdir hcfg rfl)⟩
      · obtain ⟨d, a, hd, ha⟩ := he.stream.1
        obtain ⟨d', a', hd', ha'⟩ := hw.stream
        simp only [countWait_cfg, countWait_lineChunks, countWait_elapsed, countWait_rxq, hcfg, hchunks, helapsed]
          at hd' ha'
        have hk : u.elapsed - s.elapsed + 1 = 1 + (u.elapsed - (s.elapsed + 1) + 1) := by omega
        refine ⟨d ++ d', a ++ a', ?_, ?_⟩
        · rw [hk, List.take_add, List.drop_one]
          exact ⟨List.rel_append hd.1 hd'.1, fun h => by rw [hd.2 h, hd'.2 h]⟩
        · rw [List.flatten_append, ← List.append_assoc, ha, List.append_assoc, ha', List.append_assoc]
      · intro cap hcap
        have h1 := he.stream.2 cap hcap
        have h2 := hw.room cap (by rw [countWait_cfg, hcfg]; exact hcap)
        rw [countWait_rxq] at h2
        omega

/-- What a wait for a response can do, and how its outcome reads the parse state (R175). -/
theorem waitResponse_effect (timeout : Nat) (s : State) :
    ∃ t, waitResponse timeout s = some (classify t.ps, t) ∧ WaitEffect timeout (startWait s) t := by
  obtain ⟨t, h, he⟩ := waitLoop_effect timeout (startWait s)
  exact ⟨t, by rw [waitResponse, h]; rfl, he⟩

/-- A wait loop that finds nothing at a poll goes on with one wait less. -/
theorem waitLoop_of_pending {left : Nat} {s t : State} (h : drain (poll s) = some (.pending, t)) :
    waitLoop (left + 1) s = waitLoop left (countWait t) := by
  rw [waitLoop, h]

/-- A wait loop ends at a terminal state, whatever the budget (R173). -/
theorem waitLoop_of_done {left : Nat} {s t : State} (h : drain (poll s) = some (.done, t)) :
    waitLoop left s = some t := by
  cases left with
  | zero => rw [waitLoop, h]; rfl
  | succ n => rw [waitLoop, h]

/-- A line operation with the line up and the frame accepted: the send, the wait, the end
(45_host_ops.md R221, R224). -/
theorem lineOperation_of_acceptsAll {bytes : List Byte} {timeout : Nat} {finish : WaitOutcome → State → State}
    {s : State} (hc : s.connLost = false) (hq : s.txq = []) (ha : AcceptsAll s bytes.length) :
    ∃ t, waitResponse timeout (afterSend bytes s) = some (classify t.ps, t) ∧
      WaitEffect timeout (startWait (afterSend bytes s)) t ∧
      lineOperation bytes timeout finish s = .next (finish (classify t.ps) t) := by
  obtain ⟨t, h, he⟩ := waitResponse_effect timeout (afterSend bytes s)
  refine ⟨t, h, he, ?_⟩
  simp only [lineOperation, hc, sendFrame_of_acceptsAll hq ha, h]
  rfl

/-- Everything a line operation can answer: the refusal of R220, the raise of R223, or the end of a wait. -/
theorem lineOperation_cases (bytes : List Byte) (timeout : Nat) (finish : WaitOutcome → State → State) (s : State) :
    (s.connLost = true ∧ lineOperation bytes timeout finish s = .refused .connectionLost) ∨
      (s.connLost = false ∧
        ((∃ t, sendFrame bytes s = .lost t ∧ lineOperation bytes timeout finish s = .next t) ∨
          ∃ u t, sendFrame bytes s = .sent u ∧ WaitEffect timeout (startWait u) t ∧
            lineOperation bytes timeout finish s = .next (finish (classify t.ps) t))) := by
  unfold lineOperation
  cases hc : s.connLost with
  | true => exact .inl ⟨rfl, rfl⟩
  | false =>
    refine .inr ⟨rfl, ?_⟩
    cases hs : sendFrame bytes s with
    | lost t => exact .inl ⟨t, rfl, rfl⟩
    | sent u =>
      obtain ⟨t, h, he⟩ := waitResponse_effect timeout u
      exact .inr ⟨u, t, rfl, he, by simp only [h]; rfl⟩

end Sys2Proof.Machine
end

