-- ==== Sys2Proof/Laws/Effects.lean ====
section
/-! SUPPORT. The meanings grouped by format: what each group is an instance of, and what a reception and a send do to
the state as a whole. -/

namespace Sys2Proof.Machine

/-- A TXF row forms one frame of its own kind. -/
theorem exec_of_txf {i : Instr} (h : formatOf i = .txf) (s : State) :
    ∃ cmd payload, OwnKind true cmd payload ∧ exec i s = formFrame (frame s.cfg cmd payload) s := by
  cases i <;> simp only [formatOf, reduceCtorEq] at h
  case pingreq => exact ⟨Cfg.cmdPing, [], .inl ⟨rfl, .inl rfl⟩, rfl⟩
  case datareq => exact ⟨Cfg.cmdDataReq, [], .inl ⟨rfl, .inr (.inl rfl)⟩, rfl⟩
  case setvPos id mag ck => exact ⟨Cfg.cmdSetVPos, [mag], .inr ⟨rfl, .inl rfl⟩, rfl⟩
  case setvNeg id mag ck => exact ⟨Cfg.cmdSetVNeg, [mag], .inr ⟨rfl, .inr rfl⟩, rfl⟩
  case toggle => exact ⟨Cfg.cmdToggle, [], .inl ⟨rfl, .inr (.inr ⟨rfl, rfl⟩)⟩, rfl⟩

/-- An RXF row is the reception of its own bytes. -/
theorem exec_of_rxf {i : Instr} (h : formatOf i = .rxf) (s : State) :
    ∃ bytes, encode i = .rxf bytes ∧ exec i s = receive bytes s := by
  cases i <;> simp only [formatOf, reduceCtorEq] at h
  case state id w0 w1 w2 w3 w4 ck => exact ⟨framed (stateBody id w0 w1 w2 w3 w4 ck), rfl, rfl⟩
  case pingreply id ck => exact ⟨framed (pingReplyBody id ck), rfl, rfl⟩
  case rxunk cmd => exact ⟨framed [cmd], rfl, rfl⟩

/-- A cycle sends a frame of the block's own kinds, never a `TOGGLE` (45_host_ops.md R222). -/
theorem cycleFrame_kind (s : State) :
    ∃ cmd payload, OwnKind false cmd payload ∧ cycleFrame s = frame s.cfg cmd payload := by
  have hsetv : ∃ cmd payload, OwnKind false cmd payload ∧
      encodeSetV s.cfg s.dir s.ctrl.targetVoltage = frame s.cfg cmd payload := by
    refine ⟨_, _, .inr ⟨rfl, ?_⟩, rfl⟩
    split
    · exact .inl rfl
    · exact .inr rfl
  unfold cycleFrame
  cases s.mode with
  | disabled => exact ⟨Cfg.cmdDataReq, [], .inl ⟨rfl, .inr (.inl rfl)⟩, rfl⟩
  | voltage => exact hsetv
  | position => exact hsetv
  | currentShapingLimiter => exact hsetv

theorem OwnKind.of_false {cmd : Byte} {payload : List Byte} (h : OwnKind false cmd payload) (toggle : Bool) :
    OwnKind toggle cmd payload := by
  unfold OwnKind at *
  simp only [Bool.false_eq_true, false_and, or_false] at h
  exact h.imp_left fun ⟨h1, h2⟩ => ⟨h1, h2.imp_right .inl⟩

/-- Everything a reception can do: it always goes on, as the wait loop of budget 0 that it is, with the oracle's chunks
as they were and no wait. -/
theorem receive_effect (bytes : List Byte) (s : State) :
    ∃ t, receive bytes s = .next t ∧ waitResponse 0 { s with lineChunks := bytes :: s.lineChunks } =
        some (classify t.ps, t) ∧
      t = { s with snap := t.snap, ps := t.ps, elapsed := 0, stg := t.stg, rxq := t.rxq, ckAcc := t.ckAcc } ∧
      (t.snap = s.snap ∨
        (t.ps = .completed ∧ ckValid t = true ∧ t.stg.id = s.cfg.motorId ∧
          t.snap = (commit { s with stg := t.stg }).snap)) := by
  obtain ⟨t, h, he⟩ := waitResponse_effect 0 { s with lineChunks := bytes :: s.lineChunks }
  have h0 : t.elapsed = 0 := Nat.le_zero.mp he.elapsed_le
  have hl : t.lineChunks = s.lineChunks := by rw [he.polls, h0]; rfl
  refine ⟨t, by rw [receive, h], h, ?_, ?_⟩
  · have ht : t = _ := (OnlyReceives.startWait _).trans he.receives
    rw [h0, hl] at ht
    exact ht
  · rcases he.snap with h1 | ⟨h1, h2, h3, h4⟩
    · exact .inl h1
    · exact .inr ⟨h1, h2, h3, h4.trans (commit_snap_congr rfl rfl rfl rfl)⟩

/-- A reception whose drain ends the parse (42_wait_loop.md R173). -/
theorem receive_of_done {bytes : List Byte} {s t : State}
    (h : drain (poll (startWait { s with lineChunks := bytes :: s.lineChunks })) = some (.done, t)) :
    receive bytes s = .next t := by
  rw [receive, waitResponse, waitLoop_of_done h]
  rfl

/-- A send of one frame of an own kind keeps the log whole (30_encoding.md R102). -/
theorem sendFrame_frameLog {s : State} {toggle : Bool} {cmd : Byte} {payload : List Byte}
    (hk : OwnKind toggle cmd payload) (hq : s.txq = []) (hlog : FrameLog s.cfg toggle (s.txLog ++ s.txq)) :
    (∀ t, sendFrame (frame s.cfg cmd payload) s = .sent t →
      t.txq = [] ∧ FrameLog t.cfg toggle (t.txLog ++ t.txq)) ∧
    (∀ t, sendFrame (frame s.cfg cmd payload) s = .lost t →
      t.connLost = true ∧ FrameLog t.cfg toggle (t.txLog ++ t.txq)) := by
  have hnew := FrameLog.snoc _ cmd payload hlog hk
  rw [hq, List.append_nil] at hnew
  obtain ⟨n, -, ⟨hn, h⟩ | ⟨-, h⟩⟩ := sendFrame_cases (frame s.cfg cmd payload) s
  · refine ⟨fun t ht => ?_, fun t ht => absurd (h.symm.trans ht) (by simp)⟩
    rw [h] at ht
    cases ht
    simp only [hq, List.nil_append, hn, List.take_length, List.drop_length, List.append_nil]
    exact ⟨trivial, hnew⟩
  · refine ⟨fun t ht => absurd (h.symm.trans ht) (by simp), fun t ht => ?_⟩
    rw [h] at ht
    cases ht
    simp only [hq, List.nil_append, List.append_assoc, List.take_append_drop]
    exact ⟨trivial, hnew⟩

/-- What a send leaves alone. -/
theorem sendFrame_touches (bytes : List Byte) (s : State) :
    ∀ t, sendFrame bytes s = .sent t ∨ sendFrame bytes s = .lost t →
      t = { s with
        connLost := t.connLost, result := t.result, txq := t.txq, txLog := t.txLog, lineAccepts := t.lineAccepts } := by
  intro t ht
  obtain ⟨n, -, ⟨-, h⟩ | ⟨-, h⟩⟩ := sendFrame_cases bytes s <;> rw [h] at ht <;> rcases ht with ht | ht <;> cases ht <;>
    rfl

theorem exec_setTargetVoltage (v : F) (s : State) :
    exec (.setTargetVoltage v) s = writeNum v (fun c => { c with targetVoltage := v }) s := rfl

theorem exec_setTargetPosition (v : F) (s : State) :
    exec (.setTargetPosition v) s = writeNum v (fun c => { c with targetPosition := v }) s := rfl

theorem exec_setTargetCslMode (v : F) (s : State) :
    exec (.setTargetCslMode v) s = writeNum v (fun c => { c with targetCslMode := v }) s := rfl

theorem exec_setTargetCslFeedback (v : F) (s : State) :
    exec (.setTargetCslFeedback v) s = writeNum v (fun c => { c with targetCslFeedback := v }) s := rfl

theorem exec_setLimitLow (v : F) (s : State) :
    exec (.setLimitLow v) s = writeNum v (fun c => { c with limitLow := v }) s := rfl

theorem exec_setLimitHigh (v : F) (s : State) :
    exec (.setLimitHigh v) s = writeNum v (fun c => { c with limitHigh := v }) s := rfl

theorem exec_setProportionalGain (v : F) (s : State) :
    exec (.setProportionalGain v) s = writeNum v (fun c => { c with proportionalGain := v }) s := rfl

theorem exec_setDisableAngle (v : F) (s : State) :
    exec (.setDisableAngle v) s = writeNum v (fun c => { c with disableAngle := v }) s := rfl

/-- Everything a write of a number can answer (45_host_ops.md R232). -/
theorem writeNum_cases (v : F) (write : Ctrl → Ctrl) (s : State) :
    (legalNum v = true ∧ writeNum v write s = .next { s with ctrl := write s.ctrl, result := .none }) ∨
      (legalNum v = false ∧ writeNum v write s = .refused .illegalValue) := by
  unfold writeNum
  cases h : legalNum v with
  | true => exact .inl ⟨rfl, rfl⟩
  | false => exact .inr ⟨rfl, rfl⟩

/-- Every step that goes on is idle or the execution of what was fetched, from a state that differs in what is still to
be fetched alone (00_scope.md R10). -/
theorem step_next_cases {s t : State} (h : step s = .next t) :
    t = s ∨ ∃ r i rows requests, decode s.cfg.lit r = .ok i ∧
      exec i { s with frameRows := rows, requests := requests } = .next t := by
  unfold step at h
  cases hf : fetch s with
  | none =>
    rw [hf] at h
    cases h
    exact .inl rfl
  | some x =>
    obtain ⟨r, u⟩ := x
    have hu : ∃ rows requests, u = { s with frameRows := rows, requests := requests } := by
      unfold fetch at hf
      cases hr : s.frameRows with
      | cons row rest =>
        rw [hr] at hf
        cases hf
        exact ⟨rest, s.requests, rfl⟩
      | nil =>
        cases hq : s.requests with
        | nil => rw [hr, hq] at hf; cases hf
        | cons q rest =>
          rw [hr, hq] at hf
          cases hf
          exact ⟨[], rest, by rw [← hr]⟩
    obtain ⟨rows, requests, rfl⟩ := hu
    cases hd : decode s.cfg.lit r with
    | error e => simp [hf, hd] at h
    | ok i =>
      simp only [hf, hd] at h
      exact .inr ⟨r, i, rows, requests, hd, h⟩

/-- A step of HOST's next operation. -/
theorem step_of_nextRequest {s : State} {r : HostRequest} (h : NextRequest s r) :
    step s =
      match decode s.cfg.lit r.request with
      | .ok i => exec i { s with requests := s.requests.tail }
      | .error e => .refused (refusalOf e) := by
  obtain ⟨h1, h2⟩ := h
  cases hq : s.requests with
  | nil => rw [hq] at h2; cases h2
  | cons q rest =>
    rw [hq] at h2
    cases h2
    simp only [step, fetch, h1, hq]
    rfl

end Sys2Proof.Machine
end

