-- ==== Sys2Proof/Laws/ConnLost.lean ====
section
/-! SUPPORT. The decoder, the wait loop and a reception do not read `CONNLOST` (45_host_ops.md R220): they commute with
setting it. -/

namespace Sys2Proof.Machine

/-- The flag set in the state that a decode step or a drain answers. -/
def progressWithConnLost (b : Bool) : Option (Progress × State) → Option (Progress × State)
  | none => none
  | some (p, t) => some (p, { t with connLost := b })

theorem stateVerdict_connLost (s : State) (b : Bool) :
    stateVerdict { s with connLost := b } = { stateVerdict s with connLost := b } := by
  unfold stateVerdict
  by_cases h : s.stg.id = s.cfg.motorId ∧ ckValid s = true
  · rw [if_pos h, if_pos (by exact h)]
    rfl
  · rw [if_neg h, if_neg (by exact h)]

theorem pingReplyVerdict_connLost (id : Byte) (s : State) (b : Bool) :
    pingReplyVerdict id { s with connLost := b } = { pingReplyVerdict id s with connLost := b } := by
  unfold pingReplyVerdict
  by_cases h : id = s.cfg.motorId ∧ ckValid s = true
  · rw [if_pos h, if_pos (by exact h)]
  · rw [if_neg h, if_neg (by exact h)]

theorem processCommand_connLost (c : Byte) (s : State) (b : Bool) :
    processCommand c { s with connLost := b } = progressWithConnLost b (processCommand c s) := by
  unfold processCommand
  by_cases h80 : c = Cfg.cmdState
  · rw [if_pos h80, if_pos h80]
    by_cases hlen : qLen s < Cfg.stateLength
    · rw [if_pos hlen, if_pos (by exact hlen)]
      rfl
    · rw [if_neg hlen, if_neg (by exact hlen)]
      obtain ⟨a0, a1, a2, a3, a4, a5, a6, a7, a8, a9, a10, a11, a12, l, hl⟩ :=
        exists_state_body (Nat.le_of_not_lt hlen)
      rw [takeState_eq hl, takeState_eq (s := { s with connLost := b }) hl]
      exact congrArg (fun u => some (Progress.done, u)) (stateVerdict_connLost
        { s with
          rxq := l
          ckAcc := ckFeedAll s.checksum s.ckAcc [a0, a1, a2, a3, a4, a5, a6, a7, a8, a9, a10, a11, a12]
          stg :=
            { id := a1, w0 := wordOf a2 a3, w1 := wordOf a4 a5, w2 := wordOf a6 a7, w3 := wordOf a8 a9,
              w4 := wordOf a10 a11 } } b)
  · rw [if_neg h80, if_neg h80]
    by_cases hE1 : c = Cfg.cmdPingReply
    · rw [if_pos hE1, if_pos hE1]
      by_cases hlen : qLen s < Cfg.pingReplyLength
      · rw [if_pos hlen, if_pos (by exact hlen)]
        rfl
      · rw [if_neg hlen, if_neg (by exact hlen)]
        obtain ⟨a0, a1, a2, l, hl⟩ := exists_pingReply_body (Nat.le_of_not_lt hlen)
        rw [takePingReply_eq hl, takePingReply_eq (s := { s with connLost := b }) hl]
        exact congrArg (fun u => some (Progress.done, u)) (pingReplyVerdict_connLost a1
          { s with rxq := l, ckAcc := ckFeedAll s.checksum s.ckAcc [a0, a1, a2] } b)
    · rw [if_neg hE1, if_neg hE1]
      rfl

theorem decodeStep_connLost (s : State) (b : Bool) :
    decodeStep { s with connLost := b } = progressWithConnLost b (decodeStep s) := by
  obtain ⟨cfg, snap, ctrl, mode, dir, ps, elapsed, stat, connLost, stg, rxq, ckAcc, txq, txLog, requests, frameRows,
    result, lineChunks, lineAccepts, freeCount⟩ := s
  cases ps with
  | completed => rfl
  | invalid => rfl
  | awaitFirstSync =>
    cases rxq with
    | nil => rfl
    | cons a rest =>
      by_cases ha : a = Cfg.syncByte
      · simp only [decodeStep, qEmpty, qFront, List.length_cons, List.head?_cons, if_pos ha, ckReset, qSync,
          Option.map_some]
        rfl
      · simp only [decodeStep, qEmpty, qFront, List.length_cons, List.head?_cons, if_neg ha, qPop, Option.map_some]
        rfl
  | awaitSecondSync =>
    cases rxq with
    | nil => rfl
    | cons a rest =>
      by_cases ha : a = Cfg.syncByte
      · simp only [decodeStep, qEmpty, qFront, List.length_cons, List.head?_cons, if_pos ha, qSync, Option.map_some]
        rfl
      · simp only [decodeStep, qEmpty, qFront, List.length_cons, List.head?_cons, if_neg ha, qPop, Option.map_some]
        rfl
  | processing =>
    cases rxq with
    | nil => rfl
    | cons a rest => exact processCommand_connLost a _ b

theorem drain_connLost (s : State) (b : Bool) : drain { s with connLost := b } = progressWithConnLost b (drain s) := by
  induction hn : s.rxq.length using Nat.strong_induction_on generalizing s with
  | _ n ih =>
    obtain ⟨p, t, h, he⟩ := decodeStep_effect s
    have h' := decodeStep_connLost s b
    rw [h] at h'
    by_cases hp : p = .more
    · subst hp
      obtain ⟨⟨x, hx⟩, -⟩ := he.more rfl
      rw [drain_of_more h, drain_of_more h']
      exact ih t.rxq.length (by rw [← hn, hx]; simp) t rfl
    · rw [drain_of_ne_more h hp, drain_of_ne_more h' hp]
      rfl

theorem waitLoop_connLost (left : Nat) (s : State) (b : Bool) :
    waitLoop left { s with connLost := b } = (waitLoop left s).map fun t => { t with connLost := b } := by
  induction left generalizing s with
  | zero =>
    obtain ⟨p, t, h, -⟩ := drain_effect (poll s)
    have h' : drain (poll { s with connLost := b }) = progressWithConnLost b (drain (poll s)) :=
      drain_connLost (poll s) b
    rw [h] at h'
    rw [waitLoop, waitLoop, h, h']
    rfl
  | succ n ih =>
    obtain ⟨p, t, h, he⟩ := drain_effect (poll s)
    have h' : drain (poll { s with connLost := b }) = progressWithConnLost b (drain (poll s)) :=
      drain_connLost (poll s) b
    rw [h] at h'
    rw [waitLoop, waitLoop, h, h']
    cases p with
    | more => exact absurd rfl he.stops
    | pending => exact ih (countWait t)
    | done => rfl

theorem receive_connLost (bytes : List Byte) (s : State) (b : Bool) :
    receive bytes { s with connLost := b } = withConnLost b (receive bytes s) := by
  have h := waitLoop_connLost 0 (startWait { s with lineChunks := bytes :: s.lineChunks }) b
  have e : startWait { ({ s with connLost := b } : State) with lineChunks := bytes :: s.lineChunks } =
      { startWait { s with lineChunks := bytes :: s.lineChunks } with connLost := b } := rfl
  unfold receive waitResponse
  rw [e, h]
  cases waitLoop 0 (startWait { s with lineChunks := bytes :: s.lineChunks }) <;> rfl

end Sys2Proof.Machine
end

