-- ==== Sys2Proof/Laws/PerInstr.lean ====
section
/-! SUPPORT. The per-instruction family `RoundTrip`: decoding the encoding of a well-formed instruction gives it back,
one lemma per constructor. -/

namespace Sys2Proof.Laws.RoundTrip

/-- Every operand of `i`, at every value its form admits, survives encoding and decoding (30_encoding.md R90). -/
def Statement (i : Instr) : Prop := i.WellFormed → ∀ lit : Literals, decode lit (encode i) = .ok i

theorem pingreq (id ck : Byte) : Statement (.pingreq id ck) := fun _ _ => rfl

theorem datareq (id ck : Byte) : Statement (.datareq id ck) := fun _ _ => rfl

theorem setvPos (id mag ck : Byte) : Statement (.setvPos id mag ck) := by
  intro h lit
  have hm : mag.toNat ≤ 128 := of_decide_eq_true h
  have hd : decode lit (encode (.setvPos id mag ck)) =
      if mag.toNat ≤ 128 then .ok (.setvPos id mag ck) else .error .magOutOfRange := rfl
  rw [hd, if_pos hm]

theorem setvNeg (id mag ck : Byte) : Statement (.setvNeg id mag ck) := by
  intro h lit
  have hm : mag.toNat ≤ 128 := of_decide_eq_true h
  have hd : decode lit (encode (.setvNeg id mag ck)) =
      if mag.toNat ≤ 128 then .ok (.setvNeg id mag ck) else .error .magOutOfRange := rfl
  rw [hd, if_pos hm]

theorem toggle (id ck : Byte) : Statement (.toggle id ck) := fun _ _ => rfl

theorem state (id : Byte) (w0 w1 w2 w3 w4 : Word) (ck : Byte) : Statement (.state id w0 w1 w2 w3 w4 ck) := by
  intro _ lit
  have h : decode lit (encode (.state id w0 w1 w2 w3 w4 ck)) =
      .ok (.state id (wordOf (hiByte w0) (loByte w0)) (wordOf (hiByte w1) (loByte w1))
        (wordOf (hiByte w2) (loByte w2)) (wordOf (hiByte w3) (loByte w3)) (wordOf (hiByte w4) (loByte w4)) ck) := rfl
  simpa only [Machine.wordOf_hiByte_loByte] using h

theorem pingreply (id ck : Byte) : Statement (.pingreply id ck) := fun _ _ => rfl

theorem rxunk (cmd : Byte) : Statement (.rxunk cmd) := by
  intro h lit
  have hc : cmd ≠ Cfg.cmdState ∧ cmd ≠ Cfg.cmdPingReply := by
    simpa [Instr.WellFormed, Instr.wellFormed] using h
  have hd : decode lit (encode (.rxunk cmd)) = decodeRxBody cmd [] := rfl
  rw [hd, decodeRxBody, if_neg hc.1, if_neg hc.2]

theorem ping (timeout : Nat) : Statement (.ping timeout) := fun _ _ => rfl

theorem runcycle (timeout : Nat) : Statement (.runcycle timeout) := fun _ _ => rfl

theorem evalctrl : Statement .evalctrl := fun _ _ => rfl

theorem getMode : Statement .getMode := fun _ _ => rfl

theorem getDir : Statement .getDir := fun _ _ => rfl

theorem getTargetVoltage : Statement .getTargetVoltage := fun _ _ => rfl

theorem getTargetPosition : Statement .getTargetPosition := fun _ _ => rfl

theorem getTargetCslMode : Statement .getTargetCslMode := fun _ _ => rfl

theorem getTargetCslFeedback : Statement .getTargetCslFeedback := fun _ _ => rfl

theorem getLimitLow : Statement .getLimitLow := fun _ _ => rfl

theorem getLimitHigh : Statement .getLimitHigh := fun _ _ => rfl

theorem getProportionalGain : Statement .getProportionalGain := fun _ _ => rfl

theorem getDisableAngle : Statement .getDisableAngle := fun _ _ => rfl

theorem getMotorId : Statement .getMotorId := fun _ _ => rfl

theorem setMode (m : Int) : Statement (.setMode m) := fun _ _ => rfl

theorem setDir (d : Int) : Statement (.setDir d) := fun _ _ => rfl

theorem setTargetVoltage (v : F) : Statement (.setTargetVoltage v) := fun _ _ => rfl

theorem setTargetPosition (v : F) : Statement (.setTargetPosition v) := fun _ _ => rfl

theorem setTargetCslMode (v : F) : Statement (.setTargetCslMode v) := fun _ _ => rfl

theorem setTargetCslFeedback (v : F) : Statement (.setTargetCslFeedback v) := fun _ _ => rfl

theorem setLimitLow (v : F) : Statement (.setLimitLow v) := fun _ _ => rfl

theorem setLimitHigh (v : F) : Statement (.setLimitHigh v) := fun _ _ => rfl

theorem setProportionalGain (v : F) : Statement (.setProportionalGain v) := fun _ _ => rfl

theorem setDisableAngle (v : F) : Statement (.setDisableAngle v) := fun _ _ => rfl

theorem getsnapshot : Statement .getsnapshot := fun _ _ => rfl

theorem getstats : Statement .getstats := fun _ _ => rfl

theorem resetstats : Statement .resetstats := fun _ _ => rfl

end Sys2Proof.Laws.RoundTrip
end

