-- ==== Sys2Proof/Tests/Slice0.lean ====
section
/-! SUPPORT. Tests: ill-formed terms, encodings written out from the spec, constants against their decimals, vectors of
95_test_vectors.md (named V<i>.<j>) and of 43_control_law.md R199, each of one operation; and for every obligation with
hypotheses a state and operands that meet them. Every expected value is the spec's. -/

namespace Sys2Proof.Machine.Tests

set_option Elab.async false

/-- The next state of an outcome, if there is one. -/
def next? : Host.Outcome State Fault Refusal → Option State
  | .next t => some t
  | .fault _ => none
  | .refused _ => none

/-- The refusal of an outcome, if it is one. -/
def refusal? : Host.Outcome State Fault Refusal → Option Refusal
  | .next _ => none
  | .fault _ => none
  | .refused r => some r

theorem exists_next {o : Host.Outcome State Fault Refusal} {p : State → Bool} (h : (next? o).any p = true) :
    ∃ t, o = .next t ∧ p t = true := by
  cases o with
  | next t => exact ⟨t, rfl, by simpa [next?] using h⟩
  | fault f => simp [next?] at h
  | refused r => simp [next?] at h

/-- The decoder of an instance with the source's literals. -/
def decode0 : Request → Except DecodeError Instr := decode Literals.source

/-- The configuration of 95_test_vectors.md section 0, both scales 1.0. -/
def cfg0 : Cfg :=
  { lit := Literals.source, motorId := 0x07, ck := .sum8, currentScale := 0x3F800000, voltageScale := 0x3F800000,
    negpartNonpos := false, rxqCap := none }

/-- The reset state of that section. -/
def s0 : State := State.create cfg0 resetRst [] 0

/-- S1 of that section, from its sync pair on. -/
def frameS1 : List Byte :=
  [0xFF, 0xFF, 0x80, 0x07, 0x03, 0x00, 0x00, 0x64, 0x02, 0x00, 0x03, 0xE8, 0x09, 0xC4, 0x58]

/-- A good ping reply of motor 7. -/
def frameReply : List Byte := [0xFF, 0xFF, 0xE1, 0x07, 0x18]

/-- `s0` with a position in the snapshot and a mode. -/
def at0 (m : Mode) (p : F) : State := { s0 with mode := m, snap := { s0.snap with position := p } }

/-- `s0` in csl mode with limits, selector, feedback, position and filter. -/
def csl0 (lo hi sel fb p z : F) : State :=
  { at0 .currentShapingLimiter p with
    ctrl := { s0.ctrl with limitLow := lo, limitHigh := hi, targetCslMode := sel, targetCslFeedback := fb, z := z } }

/-- `s0` about to drain `q`. -/
def q0 (q : List Byte) : State := { s0 with rxq := q }

/-! Ill-formed terms are refused. -/

theorem test_setvPos_129_ill_formed : Instr.wellFormed (.setvPos 0x07 129 0x00) = false := by decide
theorem test_setvNeg_255_ill_formed : Instr.wellFormed (.setvNeg 0x07 255 0x00) = false := by decide
theorem test_rxunk_80_ill_formed : Instr.wellFormed (.rxunk 0x80) = false := by decide
theorem test_rxunk_E1_ill_formed : Instr.wellFormed (.rxunk 0xE1) = false := by decide
theorem test_setvPos_128_well_formed : Instr.wellFormed (.setvPos 0x07 128 0xC9) = true := by decide

/-! Encodings, bit by bit from 30_encoding.md. -/

theorem test_decode_pingreq :
    decode0 (.txf [0b11111111, 0b11111111, 0b11100000, 0b00000111, 0b00011001]) = .ok (.pingreq 0x07 0x19) := by decide
theorem test_decode_datareq :
    decode0 (.txf [0b11111111, 0b11111111, 0b11000000, 0b00000111, 0b00111001]) = .ok (.datareq 0x07 0x39) := by decide
theorem test_decode_setvPos :
    decode0 (.txf [0b11111111, 0b11111111, 0b10110000, 0b00000111, 0b10000000, 0b11001001]) =
      .ok (.setvPos 0x07 0x80 0xC9) := by decide
theorem test_decode_setvNeg :
    decode0 (.txf [0b11111111, 0b11111111, 0b10110001, 0b00000111, 0b01001101, 0b11111011]) =
      .ok (.setvNeg 0x07 0x4D 0xFB) := by decide
theorem test_decode_toggle :
    decode0 (.txf [0b11111111, 0b11111111, 0b11010000, 0b00000111, 0b00101001]) = .ok (.toggle 0x07 0x29) := by decide
theorem test_decode_state :
    decode0 (.rxf frameS1) = .ok (.state 0x07 0x0300 0x0064 0x0200 0x03E8 0x09C4 0x58) := by decide
theorem test_decode_pingreply :
    decode0 (.rxf [0b11111111, 0b11111111, 0b11100001, 0b00000111, 0b00011000]) = .ok (.pingreply 0x07 0x18) := by
  decide
theorem test_decode_rxunk : decode0 (.rxf [0b11111111, 0b11111111, 0b11111111]) = .ok (.rxunk 0xFF) := by decide

/-- One code byte for each operation of R103; absent timeouts are the defaults of R105. -/
theorem test_decode_operations :
    [[0b00000001], [0b00000010], [0b00000011], [0b00000110], [0b00000111], [0b00001000]].map
        (fun c => decode0 (.hop c .absent)) =
      [.ok (.ping 50), .ok (.runcycle 1000), .ok .evalctrl, .ok .getsnapshot, .ok .getstats, .ok .resetstats] := by
  decide

/-- `GET` of registers 0 to 10 in the order of 10_state.md R36. -/
theorem test_decode_get :
    [0, 1, 2, 3, 4, 5, 6, 7, 8, 9, 10].map (fun r => decode0 (.hop [0b00000100, r] .absent)) =
      [.ok .getMode, .ok .getDir, .ok .getTargetVoltage, .ok .getTargetPosition, .ok .getTargetCslMode,
        .ok .getTargetCslFeedback, .ok .getLimitLow, .ok .getLimitHigh, .ok .getProportionalGain,
        .ok .getDisableAngle, .ok .getMotorId] := by decide

/-- `SET` of registers 2 to 9 in the order of R36. -/
theorem test_decode_set :
    [2, 3, 4, 5, 6, 7, 8, 9].map (fun r => decode0 (.hop [0b00000101, r] (.num 0x3F800000))) =
      [.ok (.setTargetVoltage 0x3F800000), .ok (.setTargetPosition 0x3F800000), .ok (.setTargetCslMode 0x3F800000),
        .ok (.setTargetCslFeedback 0x3F800000), .ok (.setLimitLow 0x3F800000), .ok (.setLimitHigh 0x3F800000),
        .ok (.setProportionalGain 0x3F800000), .ok (.setDisableAngle 0x3F800000)] := by decide

/-- Legal and illegal modes are both `SET MODE`; a value of `F` is no mode (R231). -/
theorem test_decode_set_mode_dir :
    decode0 (.hop [0b00000101, 0b00000000] (.int 3)) = .ok (.setMode 3) ∧
      decode0 (.hop [0b00000101, 0b00000000] (.int (-1))) = .ok (.setMode (-1)) ∧
      decode0 (.hop [0b00000101, 0b00000000] (.num 0x7FC00000)) = .error .illegalValue ∧
      decode0 (.hop [0b00000101, 0b00000001] (.int (-1))) = .ok (.setDir (-1)) := by decide

/-- V9.11, V9.12: `SET MOTOR_ID`, `GET 11`. -/
theorem test_decode_no_register :
    decode0 (.hop [0x05, 0x0A] (.num 0)) = .error .readOnlyRegister ∧
      decode0 (.hop [0x04, 0x0B] .absent) = .error .noSuchRegister := by decide

theorem test_decode_rejects :
    decode0 (.txf [0xFF, 0xFE, 0xE0, 0x07, 0x19]) = .error .noSync ∧
      decode0 (.txf [0xFF, 0xFF, 0x80, 0x07, 0x19]) = .error .unknownCommand ∧
      decode0 (.txf [0xFF, 0xFF, 0xB0, 0x07, 0x81, 0x00]) = .error .magOutOfRange ∧
      decode0 (.rxf [0xFF, 0xFF, 0xE1, 0x07]) = .error .badLength ∧
      decode0 (.hop [0x09] .absent) = .error .unknownOperation ∧
      decode0 (.hop [0x02] (.int (-1))) = .error .badOperand := by decide

/-- The table's words: 24 fixed bits of a frame, first byte most significant (R106), and one or two code bytes. -/
theorem test_decodeTableWord :
    decodeTableWord 24 0xFFFFE0 = some (.pingreq 0 0) ∧ decodeTableWord 24 0xFFFFB1 = some (.setvNeg 0 0 0) ∧
      decodeTableWord 24 0xFFFF80 = some (.state 0 0 0 0 0 0 0) ∧ decodeTableWord 24 0xFFFF00 = some (.rxunk 0x00) ∧
      decodeTableWord 8 0x01 = some (.ping 50) ∧ decodeTableWord 16 0x0506 = some (.setLimitLow 0) := by
  decide +kernel

/-- A table word placed by `withFetchWord` is the next instruction run. -/
theorem test_withFetchWord :
    (next? (step (State.withFetchWord s0 16 0x040A))).map State.result = some (.byte 0x07) := by decide +kernel

/-! Constants against their decimals (00_scope.md R9, R15). -/

theorem test_literals :
    let lit := Literals.source
    lit.posScale = Bin32.decimal 512 1 ∧ lit.tempDiv = Bin32.decimal 100 1 ∧
      lit.vEncodeLimit = Bin32.decimal 5 10 ∧ Bin32.neg lit.vEncodeLimit = Bin32.decimal (-5) 10 ∧
      lit.magScale = Bin32.decimal 255 1 ∧ lit.cslGainPos = Bin32.decimal 24 10 ∧
      lit.cslGainNeg = Bin32.decimal 16 1 ∧ lit.cslOutGain = Bin32.decimal 75 100 ∧
      lit.emaKeep = Bin32.decimal 99 100 ∧ lit.emaAlpha = Bin32.decimal 1 100 ∧
      lit.disableAngleDefault = Bin32.decimal 90 100 := by decide +kernel

/-- R301 (0.90), R302 (limits -0.8 and 0.8, gain 0.8). -/
theorem test_reset_constants :
    s0.ctrl.disableAngle = Bin32.decimal 90 100 ∧ s0.ctrl.limitLow = Bin32.decimal (-8) 10 ∧
      s0.ctrl.limitHigh = Bin32.decimal 8 10 ∧ s0.ctrl.proportionalGain = Bin32.decimal 8 10 := by decide +kernel

/-! The encoder (V1.1 to V1.19, and the table of 40_tx_encoder.md R124). -/

/-- V1.1, V1.3, V1.5, V1.7. -/
theorem test_plain_frames :
    encodePing cfg0 = [0xFF, 0xFF, 0xE0, 0x07, 0x19] ∧
      encodePing { cfg0 with motorId := 0xFF } = [0xFF, 0xFF, 0xE0, 0xFF, 0x21] ∧
      encodeDataReq cfg0 = [0xFF, 0xFF, 0xC0, 0x07, 0x39] ∧
      encodeToggle { cfg0 with ck := .sum8Sync } = [0xFF, 0xFF, 0xD0, 0x07, 0x2B] := by decide +kernel

/-- V1.8 to V1.10, V1.13, V1.14, V1.18. -/
theorem test_setv_frames :
    encodeSetV cfg0 .plus (Bin32.decimal 6 10) = [0xFF, 0xFF, 0xB0, 0x07, 0x80, 0xC9] ∧
      encodeSetV cfg0 .plus (Bin32.decimal (-3) 10) = [0xFF, 0xFF, 0xB1, 0x07, 0x4D, 0xFB] ∧
      encodeSetV cfg0 .minus (Bin32.decimal (-3) 10) = [0xFF, 0xFF, 0xB0, 0x07, 0x4D, 0xFC] ∧
      encodeSetV cfg0 .minus 0 = [0xFF, 0xFF, 0xB0, 0x07, 0x00, 0x49] ∧
      encodeSetV cfg0 .plus (Bin32.decimal (-1) 1000) = [0xFF, 0xFF, 0xB1, 0x07, 0x00, 0x48] ∧
      encodeSetV { cfg0 with motorId := 0x03 } .plus (Bin32.decimal (-3) 10) =
        [0xFF, 0xFF, 0xB1, 0x03, 0x4D, 0xFF] := by decide +kernel

/-- The payloads of R124 at 0.5, 0.25, 0.16, 0.1, 0.4999, 0.002, 0.00197, 0.00196. -/
theorem test_payloads :
    [Bin32.decimal 5 10, Bin32.decimal 25 100, Bin32.decimal 16 100, Bin32.decimal 1 10, Bin32.decimal 4999 10000,
        Bin32.decimal 2 1000, Bin32.decimal 197 100000, Bin32.decimal 196 100000].map
        (fun v => magOf Literals.source (encodedVoltage Literals.source .plus v)) =
      [128, 64, 41, 26, 127, 1, 1, 0] := by decide +kernel

/-! The TXF rows: each forms its frame (V1.1, V1.3, V1.8, V1.9, V1.7) and sends nothing. -/

/-- The result of a row, and whether what the line saw is as before. -/
def formed (i : Instr) : Option (HostResult × Bool) :=
  (next? (exec i s0)).map fun t => (t.result, t.txLog == s0.txLog && t.txq == s0.txq && !t.connLost)

theorem test_pingreq : formed (.pingreq 0x07 0x19) = some (.frame [0xFF, 0xFF, 0xE0, 0x07, 0x19], true) := by
  decide +kernel
theorem test_datareq : formed (.datareq 0x07 0x39) = some (.frame [0xFF, 0xFF, 0xC0, 0x07, 0x39], true) := by
  decide +kernel
theorem test_setvPos : formed (.setvPos 0x07 0x80 0xC9) = some (.frame [0xFF, 0xFF, 0xB0, 0x07, 0x80, 0xC9], true) := by
  decide +kernel
theorem test_setvNeg : formed (.setvNeg 0x07 0x4D 0xFB) = some (.frame [0xFF, 0xFF, 0xB1, 0x07, 0x4D, 0xFB], true) := by
  decide +kernel
theorem test_toggle : formed (.toggle 0x07 0x29) = some (.frame [0xFF, 0xFF, 0xD0, 0x07, 0x29], true) := by
  decide +kernel

/-! Checksums (V3.2 to V3.5). -/

theorem test_checksums :
    ckFeedAll ckSum8 ckSum8.init (frameS1.drop 2) = 0x00 ∧
      ckFeedAll ckSum8Sync (ckBodyStart ckSum8Sync) [0xE1, 0x07, 0x1A] = 0x00 ∧
      ckFeedAll ckSum8Sync (ckBodyStart ckSum8Sync) [0xE1, 0x07, 0x18] = 0xFE := by decide

/-! Words (V4.1 to V4.18). -/

theorem test_positions :
    [0x0200, 0x03FF, 0x0000, 0x0300, 0x03CC, 0x03CD, 0x0400, 0xFFFF].map (newPosition Literals.source .plus) =
      [0x00000000, 0x3F7F8000, 0xBF800000, 0x3F000000, 0x3F660000, 0x3F668000, 0x3F800000, 0x42FDFF00] := by
  decide +kernel
theorem test_positions_reversed :
    [0x0200, 0x0000].map (newPosition Literals.source .minus) = [0x80000000, 0x3F800000] := by decide +kernel
theorem test_temperatures :
    [0x09C4, 0x0929, 0xFF38, 0xFFFF, 0x8000, 0x7FFF].map (newTemperature Literals.source) =
      [0x41C80000, 0x41BB999A, 0xC0000000, 0xBC23D70A, 0xC3A3D70A, 0x43A3D5C3] := by decide +kernel
theorem test_backEmf : newBackEmf Literals.source 0x01F0 = 0xBD000000 := by decide +kernel

/-! Drains (V5.1 to V5.20). -/

/-- Result, parse state and what is left, of a drain from `AwaitFirstSync`. -/
def drained (q : List Byte) : Option (Progress × ParseState × List Byte) :=
  (drain (q0 q)).map fun (p, t) => (p, t.ps, t.rxq)

/-- V5.2, V5.4, V5.5, V5.16. -/
theorem test_drain_replies :
    drained frameReply = some (.done, .completed, []) ∧
      drained ([0x12, 0x34] ++ frameReply) = some (.done, .completed, []) ∧
      drained ([0xFF, 0x12] ++ frameReply) = some (.done, .completed, []) ∧
      drained (frameReply ++ frameS1) = some (.done, .completed, frameS1) := by decide +kernel

/-- V5.6 to V5.9. -/
theorem test_drain_pending :
    drained (frameS1.take 14) = some (.pending, .processing, (frameS1.take 14).drop 2) ∧
      drained [0xFF, 0xFF, 0xE1, 0x07] = some (.pending, .processing, [0xE1, 0x07]) ∧
      drained [0xFF] = some (.pending, .awaitSecondSync, []) ∧
      drained [0xFF, 0xFF] = some (.pending, .processing, []) := by decide +kernel

/-- V5.10 to V5.13, V5.15. -/
theorem test_drain_invalid :
    drained [0xFF, 0xFF, 0x80, 0x08, 0x03, 0x00, 0x00, 0x64, 0x02, 0x00, 0x03, 0xE8, 0x09, 0xC4, 0x57] =
        some (.done, .invalid, []) ∧
      drained (frameS1.take 14 ++ [0x59]) = some (.done, .invalid, []) ∧
      drained [0xFF, 0xFF, 0xE1, 0x08, 0x17] = some (.done, .invalid, []) ∧
      drained [0xFF, 0xFF, 0xE0, 0x07, 0x19] = some (.done, .invalid, [0xE0, 0x07, 0x19]) ∧
      drained [0xFF, 0xFF, 0xFF, 0xE1, 0x07, 0x18] = some (.done, .invalid, [0xFF, 0xE1, 0x07, 0x18]) := by
  decide +kernel

/-- V5.3 through its row: position 0.5, current 100, back-EMF 0.0, supply 1000, temperature 25.0. -/
theorem test_state_row :
    (next? (exec (.state 0x07 0x0300 0x0064 0x0200 0x03E8 0x09C4 0x58) s0)).map (fun t => (t.ps, t.snap)) =
      some (.completed,
        { outputVoltage := 0, position := 0x3F000000, current := 0x42C80000, backEmfVoltage := 0,
          supplyVoltage := 0x447A0000, temperatureC := 0x41C80000 }) := by decide +kernel
/-- V5.10 through its row. -/
theorem test_state_row_rejected :
    (next? (exec (.state 0x08 0x0300 0x0064 0x0200 0x03E8 0x09C4 0x57) s0)).map (fun t => (t.ps, t.snap == s0.snap)) =
      some (.invalid, true) := by decide +kernel
theorem test_pingreply_row :
    (next? (exec (.pingreply 0x07 0x18) s0)).map State.ps = some .completed := by decide +kernel
/-- V5.12 through its row. -/
theorem test_pingreply_row_rejected :
    (next? (exec (.pingreply 0x08 0x17) s0)).map State.ps = some .invalid := by decide +kernel
/-- V5.14 through its row, behind bytes that are no frame: they are discarded and the command byte is left. -/
theorem test_rxunk_row :
    (next? (exec (.rxunk 0x42) (q0 [0x07, 0x00]))).map (fun t => (t.ps, t.rxq, t.elapsed)) =
      some (.invalid, [0x42], 0) := by decide +kernel
/-- Poll adds at the tail: a row behind a whole frame leaves its own bytes queued. -/
theorem test_rows_enter_at_the_tail :
    (next? (exec (.rxunk 0x42) (q0 frameReply))).map (fun t => (t.ps, t.rxq)) =
      some (.completed, [0xFF, 0xFF, 0x42]) := by decide +kernel

/-! Waits (42_wait_loop.md R182, V6.1 to V6.8). -/

/-- Outcome, `ELAPSED`, parse state and what is left, of a wait. -/
def waited (timeout : Nat) (chunks : List (List Byte)) : Option (WaitOutcome × Nat × ParseState × List Byte) :=
  (waitResponse timeout { s0 with lineChunks := chunks }).map fun (o, t) => (o, t.elapsed, t.ps, t.rxq)

/-- (b), (c), (f) of R182, V6.1. -/
theorem test_waits :
    [waited 50 [[], [], [], frameReply], waited 50 [], waited 50 [[], [0xFF, 0xFF, 0xE1, 0x08, 0x17]], waited 0 []] =
      [some (.success, 3, .completed, []), some (.timeout, 50, .awaitFirstSync, []),
        some (.invalidFrame, 1, .invalid, []), some (.timeout, 0, .awaitFirstSync, [])] := by decide +kernel

/-- (d), (e) of R182: a frame in two chunks, completed at the last permitted poll, or one poll late. -/
theorem test_wait_fragments :
    waited 2 [frameS1.take 6, [], frameS1.drop 6] = some (.success, 2, .completed, []) ∧
      waited 2 [frameS1.take 6, [], [], frameS1.drop 6] =
        some (.timeout, 2, .processing, [0x80, 0x07, 0x03, 0x00]) := by decide +kernel

/-- V6.3, V6.4: one byte per poll. -/
theorem test_wait_one_byte_per_poll :
    waited 14 (frameS1.map fun b => [b]) = some (.success, 14, .completed, []) ∧
      waited 13 (frameS1.map fun b => [b]) = some (.timeout, 13, .processing, (frameS1.take 14).drop 2) := by
  decide +kernel

/-! The line operations (Programs A, B, D). -/

/-- A1. -/
theorem test_ping :
    (next? (exec (.ping 50) { s0 with lineChunks := [[], [], frameReply] })).map
        (fun t => (t.result, t.elapsed, t.txLog, t.stat == s0.stat)) =
      some (.bool true, 2, [0xFF, 0xFF, 0xE0, 0x07, 0x19], true) := by decide +kernel
/-- V2.2: three of the five bytes accepted. -/
theorem test_ping_partial :
    (next? (exec (.ping 50) { s0 with lineAccepts := [3] })).map (fun t => (t.txLog, t.txq, t.connLost, t.result)) =
      some ([0xFF, 0xFF, 0xE0], [0x07, 0x19], true, .connectionLost 3 5) := by decide +kernel
/-- V9.15. -/
theorem test_ping_refused :
    refusal? (exec (.ping 50) { s0 with connLost := true }) = some .connectionLost := by decide +kernel
/-- Cycle 1 of 44_statistics.md R216. -/
theorem test_runcycle :
    (next? (exec (.runcycle 1000) { s0 with lineChunks := [[], [], [], frameS1] })).map
        (fun t => (t.stat, t.snap.position, t.txLog)) =
      some
        ({ errorCount := 0, timeoutCount := 0, lastResponseTimeMicros := 3, avgResponseTimeMicros := 0x3CF5C28F,
           maxResponseTimeMicros := 3, faulted := false }, 0x3F000000, [0xFF, 0xFF, 0xC0, 0x07, 0x39]) := by
  decide +kernel
/-- D5. -/
theorem test_runcycle_connection_lost :
    (next? (exec (.runcycle 1000)
        { at0 .voltage 0 with
          cfg := { cfg0 with motorId := 0x03 }
          ctrl := { s0.ctrl with targetVoltage := 0xBE99999A }
          lineAccepts := [4] })).map (fun t => (t.result, t.txLog, t.txq, t.connLost)) =
      some (.connectionLost 4 6, [0xFF, 0xFF, 0xB1, 0x03], [0x4D, 0xFF], true) := by decide +kernel

/-- 44_statistics.md R212, the sequence 3, 1000, 0, 50, 50 from 0.0. -/
theorem test_averages :
    [3, 1000, 0, 50, 50].foldl (fun l e => l ++ [nextAverage Literals.source (l.getLastD 0) e]) [] =
      [0x3CF5C28F, 0x412079A7, 0x411EDED6, 0x41254821, 0x412BA102] := by decide +kernel

/-! The control law (43_control_law.md R199 and V7.1 to V7.7). -/

/-- Mode, target voltage, integral and filter after an evaluation. -/
def evaluated (s : State) : Option (Mode × F × F × F) :=
  (next? (exec .evalctrl s)).map fun t => (t.mode, t.ctrl.targetVoltage, t.ctrl.integralError, t.ctrl.z)

/-- P1, P2 (first evaluation), P3. -/
theorem test_position_law :
    evaluated { at0 .position 0 with ctrl := { s0.ctrl with targetPosition := Bin32.decimal 2 10 } } =
        some (.position, 0x3E23D70B, 0x3E4CCCCD, 0) ∧
      evaluated { at0 .position 0 with ctrl := { s0.ctrl with targetPosition := Bin32.decimal 5 10 } } =
        some (.position, 0x3ECCCCCD, 0x3F000000, 0) ∧
      evaluated
          { at0 .position 0x3E800000 with
            ctrl := { s0.ctrl with targetPosition := Bin32.decimal (-5) 10, integralError := 0xBF400000 } } =
        some (.position, 0xBF19999A, 0xBF4CCCCD, 0) := by decide +kernel

/-- D2, D3: the words 41 and 972, with `targetCslMode` 0.5. -/
theorem test_safety_disable :
    evaluated
          { at0 .voltage 0xBF6B8000 with
            ctrl := { s0.ctrl with targetVoltage := Bin32.decimal 3 10, targetCslMode := Bin32.decimal 5 10 } } =
        some (.disabled, Bin32.decimal 3 10, 0, 0xBF8D4CCD) ∧
      evaluated
          { at0 .voltage 0x3F660000 with
            ctrl := { s0.ctrl with targetVoltage := Bin32.decimal 3 10, targetCslMode := Bin32.decimal 5 10 } } =
        some (.voltage, Bin32.decimal 3 10, 0, 0x3F8A0000) := by decide +kernel

/-- C1 and its second evaluation, C2. -/
theorem test_csl_law :
    evaluated (csl0 0xBF400000 0x3F400000 0x3F000000 0x3F800000 0x3E800000 0) =
        some (.currentShapingLimiter, 0xBE666667, 0, 0x3E19999A) ∧
      evaluated (csl0 0xBF400000 0x3F400000 0x3F000000 0x3F800000 0x3E800000 0x3E19999A) =
        some (.currentShapingLimiter, 0xBDE66667, 0, 0x3E666667) ∧
      evaluated (csl0 0xBF400000 0x3F400000 0xBD000000 0x3F800000 0x3E800000 0) =
        some (.currentShapingLimiter, 0xBDC00000, 0, 0x3E000000) := by decide +kernel

/-- C2n: `NEGPART_NONPOS`. -/
theorem test_csl_negpart_nonpos :
    evaluated
        { csl0 0xBF400000 0x3F400000 0xBD000000 0x3F800000 0x3E800000 0 with
          cfg := { cfg0 with negpartNonpos := true } } =
      some (.currentShapingLimiter, 0x3DC00000, 0, 0xBE000000) := by decide +kernel

/-- C3 to C5: the anti-windup clamps, limits ±0.5 and `disableAngle` 2.0. -/
theorem test_csl_windup :
    [((0x3F400000 : F), (0x40000000 : F)), (0xBF400000, 0xC0000000), (0x3F400000, 0x3E800000)].map
        (fun (p, z) =>
          let s := csl0 0xBF000000 0x3F000000 0x3F000000 0x3F800000 p z
          evaluated { s with ctrl := { s.ctrl with disableAngle := 0x40000000 } }) =
      [some (.currentShapingLimiter, 0, 0, 0x3F666667), some (.currentShapingLimiter, 0, 0, 0xBF666667),
        some (.currentShapingLimiter, 0xBEC00000, 0, 0x3F266667)] := by decide +kernel

/-- C6, first evaluation, and V7.7. -/
theorem test_csl_rounding :
    evaluated (csl0 0xBF4CCCCD 0x3F4CCCCD 0x3F800000 (Bin32.decimal 103 100) (Bin32.decimal 1 10) 0) =
        some (.currentShapingLimiter, 0xBE1374BD, 0, 0x3D0A697C) ∧
      evaluated (csl0 0xBF4CCCCD 0x3F4CCCCD 0x40000000 0x3F800000 0x3E800000 0) =
        some (.currentShapingLimiter, 0xBEB851EC, 0, 0x3DC49BA4) := by decide +kernel

/-- V7.1. -/
theorem test_evalctrl_refused :
    refusal? (exec .evalctrl { s0 with ctrl := { s0.ctrl with limitLow := 0x3F000000, limitHigh := 0xBF000000 } }) =
      some .limitsInverted := by decide +kernel

/-! Registers (V9.1 to V9.14, V10.1). -/

theorem test_get_after_reset :
    [Instr.getMode, .getDir, .getTargetVoltage, .getTargetPosition, .getTargetCslMode, .getTargetCslFeedback,
        .getLimitLow, .getLimitHigh, .getProportionalGain, .getDisableAngle, .getMotorId].map
        (fun i => (next? (exec i s0)).map State.result) =
      [some (.mode .disabled), some (.direction 1), some (.num 0), some (.num 0), some (.num 0), some (.num 0),
        some (.num 0xBF4CCCCD), some (.num 0x3F4CCCCD), some (.num 0x3F4CCCCD), some (.num 0x3F666666),
        some (.byte 0x07)] := by decide +kernel

/-- Each `SET` writes its register: read back through the matching `GET`. -/
theorem test_set_then_get :
    [((.setTargetVoltage 0x3F19999A, .getTargetVoltage) : Instr × Instr), (.setTargetPosition 0x3F19999A, .getTargetPosition),
        (.setTargetCslMode 0x3F19999A, .getTargetCslMode), (.setTargetCslFeedback 0x3F19999A, .getTargetCslFeedback),
        (.setLimitLow 0x3F19999A, .getLimitLow), (.setLimitHigh 0x3F19999A, .getLimitHigh),
        (.setProportionalGain 0x3F19999A, .getProportionalGain), (.setDisableAngle 0x3F19999A, .getDisableAngle)].map
        (fun (w, r) => ((next? (exec w s0)).bind fun t => next? (exec r t)).map State.result) =
      List.replicate 8 (some (.num 0x3F19999A)) := by decide +kernel

/-- V9.5, V9.7. -/
theorem test_set_mode_dir :
    (next? (exec (.setMode 3) s0)).map State.mode = some .currentShapingLimiter ∧
      (next? (exec (.setDir (-1)) s0)).map State.dir = some .minus := by decide +kernel

/-- V9.6, V9.8, V9.9, a mode below 0 (R231), and an infinity. -/
theorem test_set_refused :
    [Instr.setMode 4, .setMode (-1), .setDir 0, .setLimitLow 0x7FC00000, .setLimitHigh 0xFF800000].map (fun i => refusal? (exec i s0)) =
      List.replicate 5 (some .illegalValue) := by decide +kernel

/-- V9.13, whatever `outputVoltage` reads. -/
theorem test_getsnapshot :
    (next? (exec .getsnapshot { s0 with snap := { s0.snap with temperatureC := 0x41C80000 } })).map State.result =
      some (.snapshot { s0.snap with outputVoltage := Config.anyF 0, temperatureC := 0x41C80000 }) := by rfl
/-- V9.14. -/
theorem test_getstats : (next? (exec .getstats s0)).map State.result = some (.stats s0.stat) := by decide +kernel
/-- V8.4. -/
theorem test_resetstats :
    (next? (exec .resetstats
        { s0 with
          stat :=
            { errorCount := 2, timeoutCount := 5, lastResponseTimeMicros := 7, avgResponseTimeMicros := 0x40400000,
              maxResponseTimeMicros := 900, faulted := true } })).map State.stat = some s0.stat := by decide +kernel

/-- A refused request leaves the state to HOST, which goes on to its next one (60_exceptions.md R265; Program D6, D7). -/
theorem test_rejectRequest :
    let s : State := { s0 with connLost := true, requests := [⟨[0x01], .absent⟩, ⟨[0x04, 0x00], .absent⟩] }
    refusal? (step s) = some .connectionLost ∧
      (next? (step s.rejectRequest)).map State.result = some (.mode .disabled) := by decide +kernel

/-! Witnesses: for each obligation with hypotheses, states and operands that meet all of them, one for each clause, at
the boundaries. -/

/-- `s0` with `r` as HOST's next operation. -/
def req (r : HostRequest) : State := { s0 with requests := [r] }

theorem nextRequest_req (r : HostRequest) : NextRequest (req r) r := ⟨rfl, rfl⟩

/-- `s0` with a queue of the capacity `cap`. -/
def capped (cap : Nat) : State := { s0 with cfg := { cfg0 with rxqCap := some cap } }

theorem hasRoom_capped (n : Nat) : HasRoom (capped n) n := by
  intro cap h
  simp only [capped, Option.mem_def, Option.some.injEq] at h
  simp [capped, s0, State.create, h]

theorem initial_transportInv (s : State) (hq : s.txq = []) (hl : s.txLog = []) : TransportInv s :=
  ⟨fun _ => hq, by rw [hq, hl]; exact .nil⟩

theorem witness_DecodeInvertsEncode :
    Instr.WellFormed (.setvPos 0xFF 128 0x00) ∧ Instr.WellFormed (.setvNeg 0x00 0 0xFF) ∧
      Instr.WellFormed (.rxunk 0x81) ∧ Instr.WellFormed (.state 0x07 0xFFFF 0 0x8000 1 0x7FFF 0x58) ∧
      Instr.WellFormed (.setDir (-1)) := by decide +kernel

theorem witness_DecodedInstructionsAreWellFormed :
    decode0 (.txf [0xFF, 0xFF, 0xB0, 0x07, 0x80, 0xC9]) = .ok (.setvPos 0x07 0x80 0xC9) ∧
      decode0 (.rxf [0xFF, 0xFF, 0xE2]) = .ok (.rxunk 0xE2) := by decide

/-- An operation with its operand, operations without one, a frame. -/
theorem witness_InstructionDeterminesItsRequest :
    (decode0 (.hop [0x02] (.int 1000)) = .ok (.runcycle 1000) ∧
        ∀ code, Request.hop [0x02] (.int 1000) ≠ .hop code .absent) ∧
      (decode0 (.hop [0x03] .absent) = .ok .evalctrl ∧ takesOperand .evalctrl = false) ∧
      (decode0 (.hop [0x04, 0x0A] .absent) = .ok .getMotorId ∧ takesOperand .getMotorId = false) ∧
      decode0 (.txf [0xFF, 0xFF, 0xE0, 0x07, 0x19]) = .ok (.pingreq 0x07 0x19) ∧
        takesOperand (.pingreq 0x07 0x19) = false :=
  ⟨⟨by decide, fun _ h => by injection h with _ h; cases h⟩, ⟨by decide, rfl⟩, ⟨by decide, rfl⟩, by decide, rfl⟩

/-- A host operation, and a frame row before one. -/
theorem witness_StepRunsTheDecodedInstruction :
    (NextRequest (req ⟨[0x04, 0x0A], .absent⟩) ⟨[0x04, 0x0A], .absent⟩ ∧
        decode s0.cfg.lit (HostRequest.request ⟨[0x04, 0x0A], .absent⟩) = .ok .getMotorId) ∧
      ({ req ⟨[0x03], .absent⟩ with frameRows := [.rxf frameReply] } : State).frameRows = .rxf frameReply :: [] ∧
      decode s0.cfg.lit (FrameRow.request (.rxf frameReply)) = .ok (.pingreply 0x07 0x18) :=
  ⟨⟨nextRequest_req _, by decide⟩, rfl, by decide⟩

theorem witness_IdleBlockDoesNothing : s0.frameRows = [] ∧ s0.requests = [] := ⟨rfl, rfl⟩

theorem witness_IdentifierIsReadOnly :
    NextRequest (req ⟨[0x05, 0x0A], .num 0⟩) ⟨[0x05, 0x0A], .num 0⟩ ∧ 10 < (0x0B : Byte).toNat ∧
      NextRequest (req ⟨[0x05, 0x0B], .num 0⟩) ⟨[0x05, 0x0B], .num 0⟩ ∧ 10 < (0xFF : Byte).toNat :=
  ⟨nextRequest_req _, by decide, nextRequest_req _, by decide⟩

/-- A cycle that times out, and a row before a host operation. -/
theorem witness_StepKeepsTheConfiguration :
    (∃ t, step (req ⟨[0x02], .absent⟩) = .next t ∧ (t.stat.timeoutCount == 1 && t.elapsed == 1000) = true) ∧
      ∃ t, step { req ⟨[0x02], .absent⟩ with frameRows := [.rxf frameReply] } = .next t ∧
        (t.ps == .completed && t.requests.length == 1) = true :=
  ⟨exists_next (by decide +kernel), exists_next (by decide +kernel)⟩

/-- An infinity, the least negative number, and `-0.0`. -/
theorem witness_SetVPayloadIsAtMost128 :
    Bin32.isNaN 0x7F800000 = false ∧ Bin32.isNaN 0x80000001 = false ∧ Bin32.isNaN 0x80000000 = false := by decide

theorem witness_SetVEncodesClampedVoltage :
    SourceLiterals cfg0 ∧ Bin32.isNaN 0xFF7FFFFF = false ∧ Bin32.isNaN 0xFF800000 = false := ⟨rfl, by decide⟩

theorem witness_SetVIsSymmetricInDirection :
    SourceLiterals cfg0 ∧ Bin32.isNaN 0xFF800000 = false ∧ Bin32.isNaN 0 = false := ⟨rfl, by decide⟩

theorem witness_StepKeepsTransportInv :
    TransportInv (req ⟨[0x01], .int 0⟩) ∧
      ∃ t, step (req ⟨[0x01], .int 0⟩) = .next t ∧ (t.txLog.length == 5) = true :=
  ⟨initial_transportInv _ rfl rfl, exists_next (by decide +kernel)⟩

/-- A cycle, which sends, and the row that stands for a `TOGGLE`, which does not. -/
theorem witness_NothingSendsAToggle :
    (∃ t, exec (.runcycle 0) s0 = .next t ∧ (t.txLog != s0.txLog) = true) ∧
      (∃ t, exec (.toggle 0x07 0x29) s0 = .next t ∧ (t.result == .frame [0xFF, 0xFF, 0xD0, 0x07, 0x29]) = true) ∧
      TxIdle s0 ∧ FrameLog s0.cfg false (s0.txLog ++ s0.txq) :=
  ⟨exists_next (by decide +kernel), exists_next (by decide +kernel), fun _ => rfl, .nil⟩

/-- A body of sum 256, and one of sum 2: 0x1FE more is 512. -/
theorem witness_Sum8TrailerValidates :
    ckSum8.valid (ckFeedAll ckSum8 (ckBodyStart ckSum8) [0xFF, 0x01]) = true ∧
      ckSum8Sync.valid (ckFeedAll ckSum8Sync (ckBodyStart ckSum8Sync) [0x02]) = true := by decide

theorem witness_SyncSearchFollowsItsRules :
    (s0.ps = .awaitFirstSync ∧ s0.rxq = []) ∧ (q0 [0xFE]).rxq = 0xFE :: [] ∧ (0xFE : Byte) ≠ 0xFF ∧
      (q0 [0xFF, 0x00]).rxq = 0xFF :: [0x00] ∧
      ({ s0 with ps := .awaitSecondSync } : State).ps = .awaitSecondSync ∧
      ({ q0 [0xFF] with ps := .awaitSecondSync } : State).rxq = 0xFF :: [] ∧
      ({ q0 [0x00] with ps := .awaitSecondSync } : State).rxq = 0x00 :: [] := by decide +kernel

/-- `s0` in the body of a frame whose bytes `q` are queued. -/
def body0 (q : List Byte) : State := { q0 q with ps := .processing, ckAcc := ckBodyStart ckSum8 }

/-- One byte, twelve bytes, and all thirteen: accepted, of another motor, and with another trailer. -/
theorem witness_StateBodyIsCommittedOrRejected :
    (body0 [0x80]).ps = .processing ∧ ([] : List Byte).length + 1 < 13 ∧
      ((frameS1.drop 3).take 11).length + 1 < 13 ∧ ¬(frameS1.drop 3).length + 1 < 13 ∧
      (body0 (frameS1.drop 2)).rxq = stateBody 0x07 0x0300 0x0064 0x0200 0x03E8 0x09C4 0x58 ++ [] ∧
      (0x07 = (body0 (frameS1.drop 2)).cfg.motorId ∧
        (ckOf (body0 []).cfg.ck).valid (ckFeedAll (ckOf (body0 []).cfg.ck) (body0 []).ckAcc
          (stateBody 0x07 0x0300 0x0064 0x0200 0x03E8 0x09C4 0x58)) = true) ∧
      ¬(0x08 = (body0 []).cfg.motorId) ∧
      ¬((ckOf (body0 []).cfg.ck).valid (ckFeedAll (ckOf (body0 []).cfg.ck) (body0 []).ckAcc
          (stateBody 0x07 0x0300 0x0064 0x0200 0x03E8 0x09C4 0x59)) = true) := by decide +kernel

theorem witness_PingReplyBodyIsJudged :
    (body0 [0xE1]).ps = .processing ∧ (body0 [0xE1]).rxq = 0xE1 :: [] ∧ ([0x07] : List Byte).length + 1 < 3 ∧
      (body0 [0xE1, 0x07]).rxq = 0xE1 :: [0x07] ∧ (body0 [0xE1, 0x07, 0x18, 0xFF]).rxq = 0xE1 :: 0x07 :: 0x18 :: [0xFF] ∧
      (0x07 = (body0 []).cfg.motorId ∧
        (ckOf (body0 []).cfg.ck).valid (ckFeedAll (ckOf (body0 []).cfg.ck) (body0 []).ckAcc [0xE1, 0x07, 0x18]) =
          true) := by decide +kernel

theorem witness_ParseEndsAsTheRulesSay :
    ((body0 []).ps = .processing ∧ (body0 []).rxq = []) ∧
      ((body0 [0x7F]).ps = .processing ∧ (body0 [0x7F]).rxq = 0x7F :: [] ∧
        [(0x7F : Byte), 0x81, 0xE0, 0xE2].map (fun b => (b == 0x80, b == 0xE1)) = List.replicate 4 (false, false)) ∧
      ({ s0 with ps := .completed } : State).ps = .completed ∧ ({ s0 with ps := .invalid } : State).ps = .invalid := by
  decide +kernel

/-- Each row's bytes; an unbounded queue behind bytes that are no sync byte, and capacities just large enough; an
accepted frame, one with another trailer, one of another motor; two unrecognised command bytes. -/
theorem witness_InboundRowsRunTheDecoder :
    encode (.state 0x07 0x0300 0x0064 0x0200 0x03E8 0x09C4 0x58) = .rxf frameS1 ∧
      encode (.pingreply 0x07 0x18) = .rxf frameReply ∧ encode (.rxunk 0x81) = .rxf [0xFF, 0xFF, 0x81] ∧
      (∀ b ∈ (q0 [0x12, 0xFE]).rxq, b ≠ 0xFF) ∧ (∀ b ∈ (capped 15).rxq, b ≠ 0xFF) ∧
      HasRoom (q0 [0x12, 0xFE]) 15 ∧ HasRoom (capped 15) 15 ∧ HasRoom (capped 5) 5 ∧ HasRoom (capped 3) 3 ∧
      (0x07 = s0.cfg.motorId ∧
        (ckOf s0.cfg.ck).valid (ckFeedAll (ckOf s0.cfg.ck) (ckBodyStart (ckOf s0.cfg.ck))
          (stateBody 0x07 0x0300 0x0064 0x0200 0x03E8 0x09C4 0x58)) = true) ∧
      ¬((ckOf s0.cfg.ck).valid (ckFeedAll (ckOf s0.cfg.ck) (ckBodyStart (ckOf s0.cfg.ck))
          (stateBody 0x07 0x0300 0x0064 0x0200 0x03E8 0x09C4 0x59)) = true) ∧
      ¬(0x08 = s0.cfg.motorId) ∧ (0x81 : Byte) ≠ 0x80 ∧ (0x81 : Byte) ≠ 0xE1 ∧ (0xFF : Byte) ≠ 0xE1 :=
  ⟨by decide, by decide, by decide, by simp [q0], by simp [capped, s0, State.create],
    by simp [HasRoom, q0, s0, State.create, cfg0], hasRoom_capped 15, hasRoom_capped 5, hasRoom_capped 3,
    by decide +kernel⟩

theorem witness_GarbageBeforeAFrameIsDiscarded :
    (q0 ([0x12, 0xFE] ++ frameReply)).ps = .awaitFirstSync ∧ (∀ b ∈ [(0x12 : Byte), 0xFE], b ≠ 0xFF) ∧
      (q0 ([0x12, 0xFE] ++ frameReply)).rxq = [0x12, 0xFE] ++ frameReply :=
  ⟨rfl, by simp, rfl⟩

theorem witness_FragmentationDoesNotMatter :
    (∃ t, drain (q0 frameReply) = some (.done, t)) ∧ ∃ t, drain (q0 (frameS1.take 6)) = some (.pending, t) := by
  have h : ∀ (q : List Byte) (p : Progress), (drain (q0 q)).map Prod.fst = some p → ∃ t, drain (q0 q) = some (p, t) := by
    intro q p h
    obtain ⟨⟨p', t⟩, e, rfl⟩ := Option.map_eq_some_iff.mp h
    exact ⟨t, e⟩
  exact ⟨h _ _ (by decide +kernel), h _ _ (by decide +kernel)⟩

/-- A capacity in the queue's way: of two chunks of three bytes, five are delivered. -/
theorem witness_WaitEndsWithinItsBudget :
    Delivers (some 5) [[0x01, 0x02, 0x03], [0x04, 0x05, 0x06]] [[0x01, 0x02, 0x03], [0x04, 0x05]] ∧
      (capped 5).cfg.rxqCap = some 5 :=
  ⟨⟨.cons ⟨[], rfl⟩ (.cons ⟨[0x06], rfl⟩ .nil), by simp⟩, rfl⟩

/-- No chunk at all, and a first chunk after the last poll of a budget of 2. -/
theorem witness_SilenceTimesOut :
    (s0.rxq = [] ∧ ∀ chunk ∈ s0.lineChunks.take (50 + 1), chunk = []) ∧
      ∀ chunk ∈ (List.replicate 3 [] ++ [frameReply]).take (2 + 1), chunk = [] := by decide +kernel

/-- Poll 0 of a budget of 0 into a queue of just the frame's length, and poll 50 of 50, for each of the two frames. -/
theorem witness_ReplyAtPollKEndsTheWait :
    (0 ≤ 0 ∧ HasRoom (capped 5) 5 ∧ HasRoom (capped 15) 15 ∧ (capped 5).rxq = [] ∧
        ({ capped 5 with lineChunks := [frameReply, [0x01]] } : State).lineChunks =
          List.replicate 0 [] ++ framed (pingReplyBody (capped 5).cfg.motorId 0x18) :: [[0x01]] ∧
        ({ capped 15 with lineChunks := [frameS1] } : State).lineChunks =
          List.replicate 0 [] ++ framed (stateBody (capped 15).cfg.motorId 0x0300 0x0064 0x0200 0x03E8 0x09C4 0x58) :: []) ∧
      (50 ≤ 50 ∧
        ({ s0 with lineChunks := List.replicate 50 [] ++ [frameReply] } : State).lineChunks =
          List.replicate 50 [] ++ framed (pingReplyBody s0.cfg.motorId 0x18) :: []) ∧
      (ckOf s0.cfg.ck).valid (ckFeedAll (ckOf s0.cfg.ck) (ckBodyStart (ckOf s0.cfg.ck))
        (pingReplyBody s0.cfg.motorId 0x18)) = true ∧
      (ckOf s0.cfg.ck).valid (ckFeedAll (ckOf s0.cfg.ck) (ckBodyStart (ckOf s0.cfg.ck))
        (stateBody s0.cfg.motorId 0x0300 0x0064 0x0200 0x03E8 0x09C4 0x58)) = true :=
  ⟨⟨by decide, hasRoom_capped 5, hasRoom_capped 15, rfl, rfl, by decide +kernel⟩, by decide +kernel⟩

theorem witness_sendFrame_lost (n : Nat) (bytes : List Byte)
    (h : (match sendFrame bytes { s0 with lineAccepts := [n] } with | .lost _ => true | .sent _ => false) = true) :
    ∃ t, sendFrame bytes { s0 with lineAccepts := [n] } = .lost t := by
  cases e : sendFrame bytes { s0 with lineAccepts := [n] } with
  | lost t => exact ⟨t, rfl⟩
  | sent t => simp [e] at h

theorem witness_PingSendsAndWaits :
    ({ s0 with connLost := true } : State).connLost = true ∧
      (∃ t, sendFrame (frame s0.cfg 0xE0 []) { s0 with lineAccepts := [4] } = .lost t) ∧
      s0.connLost = false ∧ s0.txq = [] ∧ AcceptsAll { s0 with lineAccepts := [5] } 5 :=
  ⟨rfl, witness_sendFrame_lost _ _ (by decide +kernel), rfl, rfl, by simp [AcceptsAll]⟩

theorem acceptsAll_one (s : State) {n k : Nat} (h : n ≤ k) : AcceptsAll { s with lineAccepts := [k] } n := by
  simpa [AcceptsAll] using h

/-- In `Disabled` and in `Voltage` mode. -/
theorem witness_RuncycleSendsWaitsAndCounts :
    ({ s0 with connLost := true } : State).connLost = true ∧
      (∃ t, sendFrame (frame s0.cfg 0xC0 []) { s0 with lineAccepts := [0] } = .lost t) ∧
      (∃ t, sendFrame (encodeSetV s0.cfg .plus 0) { s0 with lineAccepts := [5] } = .lost t) ∧
      s0.connLost = false ∧ s0.txq = [] ∧ s0.mode = .disabled ∧
      AcceptsAll { s0 with lineAccepts := [5] } (frame s0.cfg 0xC0 []).length ∧
      (at0 .voltage 0).mode = .voltage ∧
      AcceptsAll { s0 with lineAccepts := [6] } (encodeSetV s0.cfg .plus 0).length :=
  ⟨rfl, witness_sendFrame_lost _ _ (by decide +kernel), witness_sendFrame_lost _ _ (by decide +kernel), rfl, rfl, rfl,
    acceptsAll_one _ (by decide +kernel), rfl, acceptsAll_one _ (by decide +kernel)⟩

/-- Four bytes of a five-byte frame, five of a six-byte frame, and none. -/
theorem witness_PartialSendRaisesConnectionLost :
    s0.connLost = false ∧ s0.txq = [] ∧ ({ s0 with lineAccepts := [4] } : State).lineAccepts.head? = some 4 ∧ 4 < 5 ∧
      ({ at0 .voltage 0 with lineAccepts := [5] } : State).lineAccepts.head? = some 5 ∧
      5 < (encodeSetV s0.cfg .plus 0).length ∧ 0 < (frame s0.cfg 0xC0 []).length := by decide +kernel

theorem notLine_of_format {i : Instr} (h : formatOf i ≠ .hop) : ¬IsLineOperation i := by
  rintro (⟨_, rfl⟩ | ⟨_, rfl⟩) <;> exact h rfl

/-- A host operation and the two kinds of row do not use the line; a step with the connection lost. -/
theorem witness_LostConnectionGatesTheLineOperations :
    ({ s0 with connLost := true } : State).connLost = true ∧ ¬IsLineOperation .evalctrl ∧
      ¬IsLineOperation (.rxunk 0x00) ∧ ¬IsLineOperation (.toggle 0x07 0x29) ∧
      ∃ t, step { req ⟨[0x08], .absent⟩ with connLost := true } = .next t ∧ t.connLost = true :=
  ⟨rfl, (by rintro (⟨_, h⟩ | ⟨_, h⟩) <;> cases h), notLine_of_format (by decide), notLine_of_format (by decide),
    exists_next (p := State.connLost) (by decide +kernel)⟩

/-- At poll 0 of a budget of 0, and at poll 3 of 3; capacities and acceptances just large enough. -/
theorem witness_FrameOfTheOtherKindIsAccepted :
    s0.connLost = false ∧ s0.txq = [] ∧ AcceptsAll { s0 with lineAccepts := [6] } 6 ∧
      AcceptsAll { s0 with lineAccepts := [5] } 5 ∧ HasRoom (capped 5) 5 ∧ HasRoom (capped 15) 15 ∧ s0.rxq = [] ∧
      [frameReply] = List.replicate 0 [] ++ framed (pingReplyBody s0.cfg.motorId 0x18) :: [] ∧
      (ckOf s0.cfg.ck).valid (ckFeedAll (ckOf s0.cfg.ck) (ckBodyStart (ckOf s0.cfg.ck))
        (pingReplyBody s0.cfg.motorId 0x18)) = true ∧
      [[], [], [], frameS1] =
        List.replicate 3 [] ++ framed (stateBody s0.cfg.motorId 0x0300 0x0064 0x0200 0x03E8 0x09C4 0x58) :: [] ∧
      (ckOf s0.cfg.ck).valid (ckFeedAll (ckOf s0.cfg.ck) (ckBodyStart (ckOf s0.cfg.ck))
        (stateBody s0.cfg.motorId 0x0300 0x0064 0x0200 0x03E8 0x09C4 0x58)) = true :=
  ⟨rfl, rfl, acceptsAll_one _ (Nat.le_refl _), acceptsAll_one _ (Nat.le_refl _), hasRoom_capped 5, hasRoom_capped 15,
    rfl, by decide +kernel⟩

/-- Through a ping, a cycle, a `STATE` row, and an `RXUNK` row behind a whole frame. -/
theorem witness_SnapshotHasOneWriter :
    let s : State := { s0 with lineChunks := [frameS1] }
    let written (t : State) : Bool := t.snap != s.snap
    (∃ t, exec (.ping 0) s = .next t ∧ written t = true) ∧
      (∃ t, exec (.runcycle 0) s = .next t ∧ written t = true) ∧
      (∃ t, exec (.state 0x07 0x0300 0x0064 0x0200 0x03E8 0x09C4 0x58) s = .next t ∧ written t = true) ∧
      ∃ t, exec (.rxunk 0x00) (q0 frameS1) = .next t ∧ written t = true :=
  ⟨exists_next (by decide +kernel), exists_next (by decide +kernel), exists_next (by decide +kernel),
    exists_next (by decide +kernel)⟩

/-- A cycle that succeeds, one that times out, one that gets an invalid frame. -/
theorem witness_CycleCountsItsOutcome :
    (∃ t, exec (.runcycle 0) { s0 with lineChunks := [frameReply] } = .next t ∧
        (!t.connLost && !t.stat.faulted) = true) ∧
      (∃ t, exec (.runcycle 0) s0 = .next t ∧ (!t.connLost && t.stat.timeoutCount == 1) = true) ∧
      ∃ t, exec (.runcycle 0) { s0 with lineChunks := [[0xFF, 0xFF, 0x00]] } = .next t ∧
        (!t.connLost && t.stat.errorCount == 1) = true :=
  ⟨exists_next (by decide +kernel), exists_next (by decide +kernel), exists_next (by decide +kernel)⟩

theorem witness_StatisticsOnlyGrow :
    (∃ t, exec (.runcycle 3) s0 = .next t ∧ (t.stat != s0.stat) = true) ∧ Instr.runcycle 3 ≠ .resetstats :=
  ⟨exists_next (by decide +kernel), by decide⟩

theorem witness_StepKeepsStatInv :
    StatInv (req ⟨[0x02], .absent⟩) ∧
      ∃ t, step (req ⟨[0x02], .absent⟩) = .next t ∧ (t.stat.maxResponseTimeMicros == 1000) = true :=
  ⟨(by unfold StatInv; decide +kernel), exists_next (by decide +kernel)⟩

theorem witness_GetAnswersTheRegister :
    10 < (0x0B : Byte).toNat ∧ NextRequest (req ⟨[0x04, 0x0B], .absent⟩) ⟨[0x04, 0x0B], .absent⟩ :=
  ⟨by decide, nextRequest_req _⟩

/-- The largest number, a subnormal, `-0.0`; the infinities and a NaN. -/
theorem witness_SetTakesFiniteValues :
    [(0x7F7FFFFF : F), 0x00000001, 0x80000000].map Bin32.isFinite = [true, true, true] ∧
      [(0x7F800000 : F), 0xFF800000, 0x7F800001].map Bin32.isFinite = [false, false, false] := by decide

/-- The values next to the legal ones, as operands and as HOST's next operation, and a NaN. -/
theorem witness_SetModeAndSetDirTakeLegalValues :
    (∀ m ∈ [(-1 : Int), 4], m < 0 ∨ 3 < m) ∧ (∀ d ∈ [(0 : Int), 2, -2], d ≠ 1 ∧ d ≠ -1) ∧
      NextRequest (req ⟨[0x05, 0x00], .int (-1)⟩) ⟨[0x05, 0x00], .int (-1)⟩ ∧
      NextRequest (req ⟨[0x05, 0x00], .num 0x7FC00000⟩) ⟨[0x05, 0x00], .num 0x7FC00000⟩ ∧
      NextRequest (req ⟨[0x05, 0x01], .int 0⟩) ⟨[0x05, 0x01], .int 0⟩ ∧
      NextRequest (req ⟨[0x05, 0x01], .num 0x7FC00000⟩) ⟨[0x05, 0x01], .num 0x7FC00000⟩ :=
  ⟨by decide, by decide, nextRequest_req _, nextRequest_req _, nextRequest_req _, nextRequest_req _⟩

/-- Equal limits are ordered; inverted ones and a NaN are not. -/
theorem witness_EvalctrlTouchesFourRegisters :
    LimitsOrdered (csl0 0x3F000000 0x3F000000 0 0 0 0) ∧ ¬LimitsOrdered (csl0 0x3F000001 0x3F000000 0 0 0 0) ∧
      ¬LimitsOrdered (csl0 0x7FC00000 0x3F000000 0 0 0 0) := by
  unfold LimitsOrdered; decide +kernel

/-- A position equal to the angle, of either sign. -/
theorem witness_SafetyDisableForcesDisabled :
    (LimitsOrdered (at0 .voltage 0x3F666666) ∧ BeyondDisableAngle (at0 .voltage 0x3F666666)) ∧
      BeyondDisableAngle (at0 .position 0xBF666666) := by
  unfold LimitsOrdered BeyondDisableAngle; decide +kernel

/-- The number just below the angle. -/
theorem witness_VoltageAndDisabledKeepTheTarget :
    (LimitsOrdered (at0 .voltage 0x3F666665) ∧ ¬BeyondDisableAngle (at0 .voltage 0x3F666665) ∧
        (at0 .voltage 0x3F666665).mode = .voltage) ∧
      LimitsOrdered (at0 .disabled 0) ∧ ¬BeyondDisableAngle (at0 .disabled 0) ∧ (at0 .disabled 0).mode = .disabled := by
  unfold LimitsOrdered BeyondDisableAngle; decide +kernel

theorem witness_PositionLawIsProportional :
    LimitsOrdered (at0 .position 0xBF666665) ∧ ¬BeyondDisableAngle (at0 .position 0xBF666665) ∧
      (at0 .position 0xBF666665).mode = .position := by
  unfold LimitsOrdered BeyondDisableAngle; decide +kernel

theorem witness_CslLawFollowsItsRules :
    SourceLiterals cfg0 ∧ LimitsOrdered (csl0 0x3F000000 0x3F000000 0x3F800000 0x3F800000 0x3F000000 0) ∧
      ¬BeyondDisableAngle (csl0 0x3F000000 0x3F000000 0x3F800000 0x3F800000 0x3F000000 0) ∧
      (csl0 0x3F000000 0x3F000000 0x3F800000 0x3F800000 0x3F000000 0).mode = .currentShapingLimiter := by
  unfold SourceLiterals LimitsOrdered BeyondDisableAngle; decide +kernel

/-- One evaluation that ends outside `Position` and outside csl, one in each of the two. -/
theorem witness_InactiveMemoryIsReset :
    (∃ t, exec .evalctrl (at0 .voltage 0) = .next t ∧ (t.mode == .voltage) = true) ∧
      (∃ t, exec .evalctrl (at0 .currentShapingLimiter 0) = .next t ∧ (t.mode != .position) = true) ∧
      ∃ t, exec .evalctrl (at0 .position 0) = .next t ∧ (t.mode != .currentShapingLimiter) = true :=
  ⟨exists_next (by decide +kernel), exists_next (by decide +kernel), exists_next (by decide +kernel)⟩

theorem witness_IntegralStaysWithinLimits :
    (∃ t, exec .evalctrl (at0 .position 0x3F000000) = .next t ∧ (t.mode == .position) = true) ∧
      Bin32.isNaN (Bin32.add (at0 .position 0x3F000000).ctrl.integralError
        (Bin32.sub (at0 .position 0x3F000000).ctrl.targetPosition (at0 .position 0x3F000000).snap.position)) = false :=
  ⟨exists_next (by decide +kernel), by decide +kernel⟩

theorem witness_CslVoltageStaysWithinLimits :
    let s := csl0 0xBF000000 0x3F000000 0x3F800000 0x3F800000 0x3F000000 0x3F000000
    SourceLiterals s.cfg ∧ (∃ t, exec .evalctrl s = .next t ∧ (t.mode == .currentShapingLimiter) = true) ∧
      Bin32.isFinite s.ctrl.limitLow = true ∧ Bin32.isFinite s.ctrl.limitHigh = true ∧
      Bin32.isNaN (lawSum s) = false :=
  ⟨rfl, exists_next (by decide +kernel), by decide +kernel⟩

/-- With a low limit of 0.0. -/
theorem witness_ReenteringCslDoesNotKick :
    let s : State := { csl0 0 0x3F000000 0x3F800000 0x3F800000 0x3F000000 0x3F000000 with mode := .voltage }
    SourceLiterals s.cfg ∧ (∃ t, exec .evalctrl s = .next t ∧ (t.mode != .currentShapingLimiter) = true) ∧ ¬BeyondDisableAngle s ∧
      Bin32.isFinite (lawTrack s) = true ∧ Bin32.le s.ctrl.limitLow (Bin32.decimal 0 1) = true ∧
      Bin32.le (Bin32.decimal 0 1) s.ctrl.limitHigh = true :=
  ⟨rfl, exists_next (by decide +kernel), (by unfold BeyondDisableAngle; decide +kernel), by decide +kernel⟩

theorem witness_ControllerMemoryHasOneWriter :
    let s := csl0 0xBF400000 0x3F400000 0x3F000000 0x3F800000 0x3E800000 0
    ∃ t, exec .evalctrl s = .next t ∧ (t.ctrl.z != s.ctrl.z) = true :=
  exists_next (by decide +kernel)

/-- Through `SET MODE`, and through `EVALCTRL` at the angle. -/
theorem witness_ModeHasTwoWriters :
    (∃ t, exec (.setMode 3) s0 = .next t ∧ (t.mode != s0.mode) = true) ∧
      ∃ t, exec .evalctrl (at0 .position 0x3F666666) = .next t ∧ (t.mode != .position) = true :=
  ⟨exists_next (by decide +kernel), exists_next (by decide +kernel)⟩

theorem witness_OtherOperationsLeaveTheLineAlone :
    formatOf .getsnapshot = .hop ∧ ¬IsLineOperation .getsnapshot ∧
      ∃ t, exec .getsnapshot s0 = .next t ∧ (t.freeCount == 1) = true :=
  ⟨rfl, (by rintro (⟨_, h⟩ | ⟨_, h⟩) <;> cases h), exists_next rfl⟩

theorem witness_TunablesHaveTheirOwnWriters :
    (∃ t, exec (.setLimitHigh 0x3F800000) s0 = .next t ∧ (t.ctrl.limitHigh != s0.ctrl.limitHigh) = true) ∧
      ∃ t, exec (.setDir (-1)) s0 = .next t ∧ (t.dir != s0.dir) = true :=
  ⟨exists_next (by decide +kernel), exists_next (by decide +kernel)⟩

theorem witness_StepKeepsTunablesFinite :
    TunablesFinite (req ⟨[0x05, 0x06], .num 0xFF7FFFFF⟩) ∧
      ∃ t, step (req ⟨[0x05, 0x06], .num 0xFF7FFFFF⟩) = .next t ∧ (t.ctrl.limitLow == 0xFF7FFFFF) = true :=
  ⟨(by unfold TunablesFinite; decide +kernel), exists_next (by decide +kernel)⟩

theorem witness_ResetHasTheInvariants :
    ∀ v ∈ [resetRst.targetPosition, resetRst.targetCslMode, resetRst.targetCslFeedback, resetRst.limitLow,
      resetRst.limitHigh, resetRst.proportionalGain, cfg0.lit.disableAngleDefault], Bin32.isFinite v = true :=
  List.all_eq_true.mp (by decide)

theorem witness_ResetLeavesTheseValues : SourceLiterals cfg0 := rfl

end Sys2Proof.Machine.Tests
end

section
/-! Proofs of the scope family (00_scope.md R8 to R10): what a step runs, and the source's numbers. -/

namespace Sys2Proof.Machine

/-! Fetching a frame row, and what a step does with anything fetched, beside `step_of_nextRequest`. -/

/-- A frame row is fetched before any operation of HOST (log 2). -/
theorem fetch_of_frameRow {s : State} {row : FrameRow} {rest : List FrameRow} (h : s.frameRows = row :: rest) :
    fetch s = some (row.request, { s with frameRows := rest }) := by
  simp only [fetch, h]

theorem step_of_fetch_of_decode {s u : State} {r : Request} {i : Instr} (hfetch : fetch s = some (r, u))
    (hdecode : decode s.cfg.lit r = .ok i) : step s = exec i u := by
  simp only [step, hfetch, hdecode]

/-! The source's parameters of type `F`, each the number nearest its decimal literal (00_scope.md R8, R15). -/

theorem source_disableAngleDefault : Literals.source.disableAngleDefault = Bin32.decimal 90 100 := by decide

theorem source_vEncodeLimit : Literals.source.vEncodeLimit = Bin32.decimal 5 10 := by decide

theorem source_magScale : Literals.source.magScale = Bin32.decimal 255 1 := by decide

theorem source_emaAlpha : Literals.source.emaAlpha = Bin32.decimal 1 100 := by decide

theorem source_emaKeep : Literals.source.emaKeep = Bin32.decimal 99 100 := by decide

theorem source_cslGainPos : Literals.source.cslGainPos = Bin32.decimal 24 10 := by decide

theorem source_cslGainNeg : Literals.source.cslGainNeg = Bin32.decimal 16 1 := by decide

theorem source_cslOutGain : Literals.source.cslOutGain = Bin32.decimal 75 100 := by decide

theorem source_posScale : Literals.source.posScale = Bin32.decimal 512 1 := by decide

theorem source_tempDiv : Literals.source.tempDiv = Bin32.decimal 100 1 := by decide

/-- The instance of the reset state has the source's parameters (log 8). -/
theorem reset_sourceLiterals : SourceLiterals State.reset.cfg := rfl

/-- Settles O5, by what is fetched: HOST's next operation, or the frame row that stands before it. -/
theorem stepRunsTheDecodedInstruction : Obligations.StepRunsTheDecodedInstruction := by
  intro s i
  constructor
  · intro r hnext hdecode
    rw [step_of_nextRequest hnext, hdecode]
  · intro row rest hrows hdecode
    exact step_of_fetch_of_decode (fetch_of_frameRow hrows) hdecode

/-- Settles O60: the constants of the frame format are the bytes printed, and the source's parameters, which reset
takes over, are field by field the numbers nearest their decimals. -/
theorem literalsAreTheSourcesNumbers : Obligations.LiteralsAreTheSourcesNumbers := by
  refine ⟨rfl, rfl, rfl, reset_sourceLiterals, ?_⟩
  rw [← source_disableAngleDefault, ← source_vEncodeLimit, ← source_magScale, ← source_emaAlpha, ← source_emaKeep,
    ← source_cslGainPos, ← source_cslGainNeg, ← source_cslOutGain, ← source_posScale, ← source_tempDiv]
  rfl

end Sys2Proof.Machine
end

section
/-! Proofs of the state family (10_state.md): everything an instruction can do to the state, said once, and who writes
which register. -/

namespace Sys2Proof.Machine

/-! The eight tunables (R24), named, so that what holds of each is said once. -/

/-- A tunable register of `CTRL`. -/
inductive Tunable where
  | targetVoltage
  | targetPosition
  | targetCslMode
  | targetCslFeedback
  | limitLow
  | limitHigh
  | proportionalGain
  | disableAngle

/-- The value of a tunable. -/
def Tunable.get : Tunable → Ctrl → F
  | .targetVoltage, c => c.targetVoltage
  | .targetPosition, c => c.targetPosition
  | .targetCslMode, c => c.targetCslMode
  | .targetCslFeedback, c => c.targetCslFeedback
  | .limitLow, c => c.limitLow
  | .limitHigh, c => c.limitHigh
  | .proportionalGain, c => c.proportionalGain
  | .disableAngle, c => c.disableAngle

/-- A tunable overwritten. -/
def Tunable.put : Tunable → F → Ctrl → Ctrl
  | .targetVoltage, v, c => { c with targetVoltage := v }
  | .targetPosition, v, c => { c with targetPosition := v }
  | .targetCslMode, v, c => { c with targetCslMode := v }
  | .targetCslFeedback, v, c => { c with targetCslFeedback := v }
  | .limitLow, v, c => { c with limitLow := v }
  | .limitHigh, v, c => { c with limitHigh := v }
  | .proportionalGain, v, c => { c with proportionalGain := v }
  | .disableAngle, v, c => { c with disableAngle := v }

/-- The `SET` of a tunable (45_host_ops.md R234 to R241). -/
def Tunable.setter : Tunable → F → Instr
  | .targetVoltage => .setTargetVoltage
  | .targetPosition => .setTargetPosition
  | .targetCslMode => .setTargetCslMode
  | .targetCslFeedback => .setTargetCslFeedback
  | .limitLow => .setLimitLow
  | .limitHigh => .setLimitHigh
  | .proportionalGain => .setProportionalGain
  | .disableAngle => .setDisableAngle

theorem exec_setter (r : Tunable) (v : F) (s : State) : exec (r.setter v) s = writeNum v (r.put v) s := by
  cases r <;> rfl

@[simp] theorem Tunable.get_put_same (r : Tunable) (v : F) (c : Ctrl) : r.get (r.put v c) = v := by
  cases r <;> rfl

theorem Tunable.get_put_of_ne {r q : Tunable} (h : r ≠ q) (v : F) (c : Ctrl) : r.get (q.put v c) = r.get c := by
  cases q <;> cases r <;> simp [Tunable.get, Tunable.put] at h ⊢

@[simp] theorem Tunable.put_integralError (r : Tunable) (v : F) (c : Ctrl) :
    (r.put v c).integralError = c.integralError := by
  cases r <;> rfl

@[simp] theorem Tunable.put_z (r : Tunable) (v : F) (c : Ctrl) : (r.put v c).z = c.z := by
  cases r <;> rfl

/-- The Position part leaves every tunable but `targetVoltage` alone (43_control_law.md R190, R191). -/
theorem Tunable.get_positionPart {r : Tunable} (h : r ≠ .targetVoltage) (m : Mode) (p : F) (c : Ctrl) :
    r.get (positionPart m p c) = r.get c := by
  cases r with
  | targetVoltage => exact absurd rfl h
  | _ => cases m <;> rfl

/-- The csl part leaves every tunable but `targetVoltage` alone (43_control_law.md R192 to R195). -/
theorem Tunable.get_cslPart {r : Tunable} (h : r ≠ .targetVoltage) (lit : Literals) (m : Mode) (gi gf p : F)
    (c : Ctrl) : r.get (cslPart lit m gi gf p c) = r.get c := by
  cases r with
  | targetVoltage => exact absurd rfl h
  | _ => cases m <;> rfl

theorem Tunable.get_evalControl {r : Tunable} (h : r ≠ .targetVoltage) (s : State) :
    r.get (evalControl s).ctrl = r.get s.ctrl := by
  rw [evalControl_ctrl, get_cslPart h, get_positionPart h]

theorem tunablesFinite_iff (s : State) :
    TunablesFinite s ↔ ∀ r : Tunable, r ≠ .targetVoltage → Bin32.isFinite (r.get s.ctrl) = true := by
  constructor
  · rintro ⟨hpos, hsel, hfb, hlo, hhi, hgain, hang⟩ r hr
    cases r with
    | targetVoltage => exact absurd rfl hr
    | targetPosition => exact hpos
    | targetCslMode => exact hsel
    | targetCslFeedback => exact hfb
    | limitLow => exact hlo
    | limitHigh => exact hhi
    | proportionalGain => exact hgain
    | disableAngle => exact hang
  · intro h
    exact ⟨h .targetPosition nofun, h .targetCslMode nofun, h .targetCslFeedback nofun, h .limitLow nofun,
      h .limitHigh nofun, h .proportionalGain nofun, h .disableAngle nofun⟩

/-! The legal modes, and the mode after the safety disable. -/

/-- Only the numbers 0 to 3 are modes (45_host_ops.md R231). -/
theorem modeOfNumber_range {m : Int} {mode : Mode} (h : modeOfNumber m = some mode) : 0 ≤ m ∧ m ≤ 3 := by
  by_contra hm
  have h0 : m ≠ 0 := by omega
  have h1 : m ≠ 1 := by omega
  have h2 : m ≠ 2 := by omega
  have h3 : m ≠ 3 := by omega
  simp [modeOfNumber, h0, h1, h2, h3] at h

/-- The safety disable is the only way the evaluator changes the mode (43_control_law.md R187). -/
theorem disabledMode_cases (s : State) :
    (BeyondDisableAngle s ∧ disabledMode s = .disabled) ∨ disabledMode s = s.mode := by
  by_cases h : BeyondDisableAngle s
  · exact .inl ⟨h, if_pos h⟩
  · exact .inr (if_neg h)

/-! Everything an instruction can do. -/

/-- `SNAP` of `t` is what an accepted `STATE` body, staged in `t`, writes from `s` (41_rx_decoder.md R150 to R152). -/
def SnapAccepted (s t : State) : Prop :=
  t.ps = .completed ∧ ckValid t = true ∧ t.stg.id = s.cfg.motorId ∧ t.snap = (commit { s with stg := t.stg }).snap

/-- Everything an instruction that goes on can do to the state, by what it writes. -/
inductive ExecEffect (s : State) : Instr → State → Prop where
  /-- the encoder's rows, the reads and `RESETSTATS`: a result, and at most `STAT` -/
  | keepsRegisters (i : Instr) (stat : Stat) (result : HostResult) (freeCount : Nat) :
      ExecEffect s i { s with stat := stat, result := result, freeCount := freeCount }
  /-- the line operations and the inbound rows: no register of the controller, and `SNAP` by acceptance only -/
  | usesLine (i : Instr) (t : State) (runsDecoder : IsLineOperation i ∨ formatOf i = .rxf)
      (touches : t = { s with
        snap := t.snap, ps := t.ps, elapsed := t.elapsed, stat := t.stat, connLost := t.connLost, stg := t.stg,
        rxq := t.rxq, ckAcc := t.ckAcc, txq := t.txq, txLog := t.txLog, result := t.result,
        lineChunks := t.lineChunks, lineAccepts := t.lineAccepts })
      (snap : t.snap = s.snap ∨ SnapAccepted s t) : ExecEffect s i t
  | evalctrl : ExecEffect s .evalctrl { evalControl s with result := .none }
  | setMode (m : Int) (mode : Mode) (legal : modeOfNumber m = some mode) :
      ExecEffect s (.setMode m) { s with mode := mode, result := .none }
  | setDir (d : Int) (dir : Direction) (legal : dirOfInt d = some dir) :
      ExecEffect s (.setDir d) { s with dir := dir, result := .none }
  | setTunable (r : Tunable) (v : F) (finite : Bin32.isFinite v = true) :
      ExecEffect s (r.setter v) { s with ctrl := r.put v s.ctrl, result := .none }

/-- An inbound row is a reception (log 16). -/
theorem execEffect_of_rxf {i : Instr} {s t : State} (hi : formatOf i = .rxf) (h : exec i s = .next t) :
    ExecEffect s i t := by
  obtain ⟨bytes, -, hexec⟩ := exec_of_rxf hi s
  obtain ⟨u, hu, -, htouches, hsnap⟩ := receive_effect bytes s
  rw [hexec, hu] at h
  cases h
  exact .usesLine i t (.inr hi) (by rw [htouches]) hsnap

/-- A line operation, whatever the end of its wait computes for the statistics and the result. -/
theorem execEffect_of_lineOperation {i : Instr} {bytes : List Byte} {timeout : Nat}
    {finish : WaitOutcome → State → State} {s t : State} (hi : IsLineOperation i)
    (hfinish : ∀ o u, finish o u = { u with stat := (finish o u).stat, result := (finish o u).result })
    (h : lineOperation bytes timeout finish s = .next t) : ExecEffect s i t := by
  obtain ⟨-, hop⟩ | ⟨-, ⟨u, hsend, hop⟩ | ⟨u, w, hsend, hwait, hop⟩⟩ := lineOperation_cases bytes timeout finish s
  · rw [hop] at h
    cases h
  · rw [hop] at h
    cases h
    have htouches := sendFrame_touches bytes s t (.inr hsend)
    exact .usesLine i t (.inl hi) (by rw [htouches]) (.inl (by rw [htouches]))
  · rw [hop] at h
    cases h
    have hsent := sendFrame_touches bytes s u (.inl hsend)
    have hreceives : w = _ := (OnlyReceives.startWait u).trans hwait.receives
    have hcfg : u.cfg = s.cfg := by rw [hsent]
    have hdir : u.dir = s.dir := by rw [hsent]
    have hsnap : u.snap = s.snap := by rw [hsent]
    refine .usesLine i _ (.inl hi) (by rw [hfinish, hreceives, hsent]) ?_
    rw [SnapAccepted, hfinish]
    refine hwait.snap.imp (fun hsame => hsame.trans hsnap) ?_
    rintro ⟨hps, hck, hid, hcommit⟩
    exact ⟨hps, hck, hid.trans (congrArg Cfg.motorId hcfg), hcommit.trans (commit_snap_congr hsnap hdir hcfg rfl)⟩

theorem finishPing_eq (o : WaitOutcome) (s : State) :
    finishPing o s = { s with stat := (finishPing o s).stat, result := (finishPing o s).result } := rfl

theorem finishCycle_eq (o : WaitOutcome) (s : State) :
    finishCycle o s = { s with stat := (finishCycle o s).stat, result := (finishCycle o s).result } := rfl

theorem execEffect_of_setter {r : Tunable} {v : F} {s t : State} (h : exec (r.setter v) s = .next t) :
    ExecEffect s (r.setter v) t := by
  rw [exec_setter] at h
  obtain ⟨hlegal, hwrite⟩ | ⟨-, hwrite⟩ := writeNum_cases v (r.put v) s <;> rw [hwrite] at h <;> cases h
  exact .setTunable r v hlegal

theorem execEffect_of_setMode {m : Int} {s t : State} (h : execSetMode m s = .next t) :
    ExecEffect s (.setMode m) t := by
  unfold execSetMode at h
  cases hm : modeOfNumber m with
  | none => simp [hm] at h
  | some mode =>
    rw [hm] at h
    cases h
    exact .setMode m mode hm

theorem execEffect_of_setDir {d : Int} {s t : State} (h : execSetDir d s = .next t) :
    ExecEffect s (.setDir d) t := by
  unfold execSetDir at h
  cases hd : dirOfInt d with
  | none => simp [hd] at h
  | some dir =>
    rw [hd] at h
    cases h
    exact .setDir d dir hd

theorem execEffect_of_evalctrl {s t : State} (h : execEvalctrl s = .next t) : ExecEffect s .evalctrl t := by
  unfold execEvalctrl at h
  split at h
  · cases h
    exact .evalctrl
  · cases h

theorem execEffect_of_hop {i : Instr} {s t : State} (hi : formatOf i = .hop) (h : exec i s = .next t) :
    ExecEffect s i t := by
  cases i <;> simp only [formatOf, reduceCtorEq] at hi
  case ping timeout => exact execEffect_of_lineOperation (.inl ⟨timeout, rfl⟩) finishPing_eq h
  case runcycle timeout => exact execEffect_of_lineOperation (.inr ⟨timeout, rfl⟩) finishCycle_eq h
  case evalctrl => exact execEffect_of_evalctrl h
  case setMode m => exact execEffect_of_setMode h
  case setDir d => exact execEffect_of_setDir h
  case setTargetVoltage v => exact execEffect_of_setter (r := .targetVoltage) h
  case setTargetPosition v => exact execEffect_of_setter (r := .targetPosition) h
  case setTargetCslMode v => exact execEffect_of_setter (r := .targetCslMode) h
  case setTargetCslFeedback v => exact execEffect_of_setter (r := .targetCslFeedback) h
  case setLimitLow v => exact execEffect_of_setter (r := .limitLow) h
  case setLimitHigh v => exact execEffect_of_setter (r := .limitHigh) h
  case setProportionalGain v => exact execEffect_of_setter (r := .proportionalGain) h
  case setDisableAngle v => exact execEffect_of_setter (r := .disableAngle) h
  -- the eleven reads, the two records and `RESETSTATS`
  all_goals
    cases h
    exact .keepsRegisters _ _ _ _

/-- The inversion of `exec`: what goes on has one of these effects. -/
theorem execEffect_of_next {i : Instr} {s t : State} (h : exec i s = .next t) : ExecEffect s i t := by
  cases hi : formatOf i with
  | txf =>
    obtain ⟨cmd, payload, -, hexec⟩ := exec_of_txf hi s
    rw [hexec] at h
    cases h
    exact .keepsRegisters i _ _ _
  | rxf => exact execEffect_of_rxf hi h
  | hop => exact execEffect_of_hop hi h

/-! What no instruction writes, and who writes the rest. -/

/-- No instruction writes the configuration or what is still to be executed (R44; log 2). -/
theorem ExecEffect.keeps_inputs {i : Instr} {s t : State} (h : ExecEffect s i t) :
    t.cfg = s.cfg ∧ t.frameRows = s.frameRows ∧ t.requests = s.requests := by
  cases h with
  | usesLine _ _ _ htouches _ => rw [htouches]; exact ⟨rfl, rfl, rfl⟩
  | evalctrl => exact ⟨evalControl_cfg s, evalControl_frameRows s, evalControl_requests s⟩
  | keepsRegisters => exact ⟨rfl, rfl, rfl⟩
  | setMode => exact ⟨rfl, rfl, rfl⟩
  | setDir => exact ⟨rfl, rfl, rfl⟩
  | setTunable => exact ⟨rfl, rfl, rfl⟩

/-- `CTRL` is written by `EVALCTRL` and by the `SET` of a tunable, with a finite value (R24, R25). -/
theorem ExecEffect.ctrl_cases {i : Instr} {s t : State} (h : ExecEffect s i t) :
    t.ctrl = s.ctrl ∨ (i = .evalctrl ∧ t.ctrl = (evalControl s).ctrl) ∨
      ∃ r v, i = Tunable.setter r v ∧ Bin32.isFinite v = true ∧ t.ctrl = r.put v s.ctrl := by
  cases h with
  | usesLine _ _ _ htouches _ => rw [htouches]; exact .inl rfl
  | evalctrl => exact .inr (.inl ⟨rfl, rfl⟩)
  | setTunable r v hfinite => exact .inr (.inr ⟨r, v, rfl, hfinite, rfl⟩)
  | keepsRegisters => exact .inl rfl
  | setMode => exact .inl rfl
  | setDir => exact .inl rfl

/-- `MODE` is written by a legal `SET MODE`, and by `EVALCTRL` (R26). -/
theorem ExecEffect.mode_cases {i : Instr} {s t : State} (h : ExecEffect s i t) :
    t.mode = s.mode ∨ (∃ m, i = .setMode m ∧ modeOfNumber m = some t.mode) ∨
      (i = .evalctrl ∧ t.mode = disabledMode s) := by
  cases h with
  | usesLine _ _ _ htouches _ => rw [htouches]; exact .inl rfl
  | evalctrl => exact .inr (.inr ⟨rfl, rfl⟩)
  | setMode m mode hlegal => exact .inr (.inl ⟨m, rfl, hlegal⟩)
  | keepsRegisters => exact .inl rfl
  | setDir => exact .inl rfl
  | setTunable => exact .inl rfl

/-- `DIR` is written by `SET DIR` (R27). -/
theorem ExecEffect.dir_cases {i : Instr} {s t : State} (h : ExecEffect s i t) :
    t.dir = s.dir ∨ ∃ d, i = .setDir d := by
  cases h with
  | usesLine _ _ _ htouches _ => rw [htouches]; exact .inl rfl
  | evalctrl => exact .inl (evalControl_dir s)
  | setDir d => exact .inr ⟨d, rfl⟩
  | keepsRegisters => exact .inl rfl
  | setMode => exact .inl rfl
  | setTunable => exact .inl rfl

/-- `SNAP` is written by an accepted `STATE` body, where the decoder runs (R22). -/
theorem ExecEffect.snap_cases {i : Instr} {s t : State} (h : ExecEffect s i t) :
    t.snap = s.snap ∨ ((IsLineOperation i ∨ formatOf i = .rxf) ∧ SnapAccepted s t) := by
  cases h with
  | usesLine _ _ hi _ hsnap => exact hsnap.imp_right fun haccepted => ⟨hi, haccepted⟩
  | evalctrl => exact .inl (evalControl_snap s)
  | keepsRegisters => exact .inl rfl
  | setMode => exact .inl rfl
  | setDir => exact .inl rfl
  | setTunable => exact .inl rfl

/-- What an instruction leaves in a tunable: the old value, a finite one by its own `SET`, or, in `targetVoltage`,
what `EVALCTRL` computes (R24). -/
theorem ExecEffect.tunable_cases {i : Instr} {s t : State} (h : ExecEffect s i t) (r : Tunable) :
    r.get t.ctrl = r.get s.ctrl ∨ (i = r.setter (r.get t.ctrl) ∧ Bin32.isFinite (r.get t.ctrl) = true) ∨
      (r = .targetVoltage ∧ i = .evalctrl) := by
  obtain hsame | ⟨hi, heval⟩ | ⟨q, v, hi, hfinite, hput⟩ := h.ctrl_cases
  · exact .inl (by rw [hsame])
  · by_cases hr : r = .targetVoltage
    · exact .inr (.inr ⟨hr, hi⟩)
    · exact .inl (by rw [heval, Tunable.get_evalControl hr])
  · by_cases hr : r = q
    · subst hr
      rw [hput, Tunable.get_put_same]
      exact .inr (.inl ⟨hi, hfinite⟩)
    · exact .inl (by rw [hput, Tunable.get_put_of_ne hr])

/-- A changed tunable other than `targetVoltage` was set by its own `SET`. -/
theorem ExecEffect.eq_setter_of_changed {i : Instr} {s t : State} (h : ExecEffect s i t) {r : Tunable}
    (hr : r ≠ .targetVoltage) (hne : r.get t.ctrl ≠ r.get s.ctrl) : i = r.setter (r.get t.ctrl) := by
  obtain hsame | ⟨hi, -⟩ | ⟨hvoltage, -⟩ := h.tunable_cases r
  · exact absurd hsame hne
  · exact hi
  · exact absurd hvoltage hr

/-- Finite tunables stay finite over an instruction (R38). -/
theorem ExecEffect.keeps_tunablesFinite {i : Instr} {s t : State} (h : ExecEffect s i t) (hs : TunablesFinite s) :
    TunablesFinite t := by
  rw [tunablesFinite_iff] at hs ⊢
  intro r hr
  obtain hsame | ⟨-, hfinite⟩ | ⟨hvoltage, -⟩ := h.tunable_cases r
  · rw [hsame]
    exact hs r hr
  · exact hfinite
  · exact absurd hvoltage hr

/-! What fetching takes away. -/

/-- Nothing is fetched only where nothing is left (70_reset_and_hazards.md R303). -/
theorem fetch_eq_none {s : State} (h : fetch s = none) : s.frameRows = [] ∧ s.requests = [] := by
  unfold fetch at h
  cases hrows : s.frameRows with
  | cons row rest => simp [hrows] at h
  | nil =>
    cases hreqs : s.requests with
    | cons r rest => simp [hrows, hreqs] at h
    | nil => exact ⟨rfl, rfl⟩

/-- Fetching takes the first frame row, or where there is none HOST's first operation (log 2). -/
theorem fetch_takes_one {s u : State} {r : Request} (h : fetch s = some (r, u)) :
    u.cfg = s.cfg ∧ u.frameRows = s.frameRows.tail ∧
      u.requests = if s.frameRows = [] then s.requests.tail else s.requests := by
  unfold fetch at h
  cases hrows : s.frameRows with
  | cons row rest =>
    rw [hrows] at h
    cases h
    exact ⟨rfl, rfl, rfl⟩
  | nil =>
    cases hreqs : s.requests with
    | nil => simp [hrows, hreqs] at h
    | cons q rest =>
      rw [hrows, hreqs] at h
      cases h
      exact ⟨rfl, rfl, rfl⟩

/-- A step that goes on, through what it fetched: nothing, or the instruction executed next. -/
theorem step_next_fetch {s t : State} (h : step s = .next t) :
    (fetch s = none ∧ t = s) ∨ ∃ r u i, fetch s = some (r, u) ∧ exec i u = .next t := by
  unfold step at h
  cases hfetch : fetch s with
  | none =>
    rw [hfetch] at h
    cases h
    exact .inl ⟨rfl, rfl⟩
  | some x =>
    obtain ⟨r, u⟩ := x
    cases hdecode : decode s.cfg.lit r with
    | error e => simp [hfetch, hdecode] at h
    | ok i =>
      simp only [hfetch, hdecode] at h
      exact .inr ⟨r, u, i, rfl, h⟩

/-! The obligations. -/

/-- Settles O9: fetching takes one instruction away, and no instruction writes its inputs. -/
theorem stepKeepsTheConfiguration : Obligations.StepKeepsTheConfiguration := by
  intro s t h
  obtain ⟨hidle, rfl⟩ | ⟨r, u, i, hfetch, hexec⟩ := step_next_fetch h
  · obtain ⟨hrows, hreqs⟩ := fetch_eq_none hidle
    simp [hrows, hreqs]
  · obtain ⟨hcfg, hrows, hreqs⟩ := (execEffect_of_next hexec).keeps_inputs
    rw [hcfg, hrows, hreqs]
    exact fetch_takes_one hfetch

/-- Settles O35: a changed `SNAP` was accepted by the decoder, and what is accepted is what a commit writes. -/
theorem snapshotHasOneWriter : Obligations.SnapshotHasOneWriter := by
  intro i s t h hne
  have heffect := execEffect_of_next h
  obtain ⟨hcfg, -, -⟩ := heffect.keeps_inputs
  obtain hsame | ⟨hi, hps, hck, hid, hsnap⟩ := heffect.snap_cases
  · exact absurd hsame hne
  · refine ⟨hi, hps, hid, ?_, hsnap⟩
    rw [← hcfg]
    exact hck

/-- Settles O53: of the writers of `CTRL`, a `SET` of a tunable leaves the controller memory alone. -/
theorem controllerMemoryHasOneWriter : Obligations.ControllerMemoryHasOneWriter := by
  intro i s t h hne
  obtain hsame | ⟨hi, -⟩ | ⟨r, v, -, -, hput⟩ := (execEffect_of_next h).ctrl_cases
  · simp [hsame] at hne
  · exact hi
  · simp [hput] at hne

/-- Settles O54, by the writers of `MODE`: `SET MODE` takes legal modes only, and the evaluator changes the mode only by
the safety disable. -/
theorem modeHasTwoWriters : Obligations.ModeHasTwoWriters := by
  intro i s t h hne
  obtain hsame | ⟨m, hi, hlegal⟩ | ⟨hi, hmode⟩ := (execEffect_of_next h).mode_cases
  · exact absurd hsame hne
  · exact .inl ⟨m, hi, modeOfNumber_range hlegal⟩
  · obtain ⟨hbeyond, hdisabled⟩ | hsame := disabledMode_cases s
    · exact .inr ⟨hi, hmode.trans hdisabled, hbeyond⟩
    · exact absurd (hmode.trans hsame) hne

/-- Settles O56, tunable by tunable. -/
theorem tunablesHaveTheirOwnWriters : Obligations.TunablesHaveTheirOwnWriters := by
  intro i s t h
  have heffect := execEffect_of_next h
  refine ⟨fun hne => ?_, heffect.eq_setter_of_changed (r := .targetPosition) nofun,
    heffect.eq_setter_of_changed (r := .targetCslMode) nofun,
    heffect.eq_setter_of_changed (r := .targetCslFeedback) nofun,
    heffect.eq_setter_of_changed (r := .limitLow) nofun, heffect.eq_setter_of_changed (r := .limitHigh) nofun,
    heffect.eq_setter_of_changed (r := .proportionalGain) nofun,
    heffect.eq_setter_of_changed (r := .disableAngle) nofun, heffect.dir_cases.resolve_left⟩
  obtain hsame | ⟨hset, -⟩ | ⟨-, hevalctrl⟩ := heffect.tunable_cases .targetVoltage
  · exact absurd hsame hne
  · exact .inl hset
  · exact .inr hevalctrl

/-- Settles O57: fetching leaves `CTRL` alone, and what the instruction sets is finite. -/
theorem stepKeepsTunablesFinite : Obligations.StepKeepsTunablesFinite := by
  intro s t hs h
  obtain rfl | ⟨r, i, rows, requests, -, hexec⟩ := step_next_cases h
  · exact hs
  · exact (execEffect_of_next hexec).keeps_tunablesFinite hs

end Sys2Proof.Machine
end

section
/-! Proofs of the memory family (20_memory.md): the two byte sums, the queue's guards, and the stream in chunks. -/

namespace Sys2Proof.Machine

/-! The byte sums (R73). What they share is said of any collaborator that adds up its bytes; they differ in the
accumulator a body starts from. -/

/-- A collaborator that keeps the sum of its bytes modulo 256, accepts sum 0, and whose trailer is the two's complement
of the sum (R73). -/
structure IsByteSum (c : Ck) : Prop where
  feed_eq : ∀ acc b, c.feed acc b = (acc + b.toNat) % 256
  valid_iff : ∀ acc, c.valid acc = true ↔ acc = 0
  trailer_eq : ∀ acc, c.trailer acc = BitVec.ofNat 8 (256 - acc % 256)

theorem isByteSum_ckSum8 : IsByteSum ckSum8 := ⟨fun _ _ => rfl, fun _ => beq_iff_eq, fun _ => rfl⟩

theorem isByteSum_ckSum8Sync : IsByteSum ckSum8Sync := ⟨fun _ _ => rfl, fun _ => beq_iff_eq, fun _ => rfl⟩

theorem IsByteSum.ckFeedAll_eq {c : Ck} (h : IsByteSum c) {acc : Nat} (hacc : acc < 256) (body : List Byte) :
    ckFeedAll c acc body = (acc + (body.map BitVec.toNat).sum) % 256 := by
  induction body generalizing acc with
  | nil => exact (Nat.mod_eq_of_lt hacc).symm
  | cons b bs ih =>
    rw [ckFeedAll_cons, h.feed_eq, ih (Nat.mod_lt _ (by decide)), List.map_cons, List.sum_cons, Nat.mod_add_mod,
      Nat.add_assoc]

/-- The trailer brings any accumulator to 0. -/
theorem IsByteSum.valid_feed_trailer {c : Ck} (h : IsByteSum c) (acc : Nat) :
    c.valid (c.feed acc (c.trailer acc)) = true := by
  rw [h.valid_iff, h.feed_eq, h.trailer_eq, BitVec.toNat_ofNat]
  omega

/-- Settles O17, by what the byte sums share: bodies start from 0, and from two sync bytes of sum 254 modulo 256. -/
theorem sum8TrailerValidates : Obligations.Sum8TrailerValidates := by
  intro body
  refine ⟨?_, ?_, fun c hc => ?_⟩
  · have hstart : ckBodyStart ckSum8 = 0 := rfl
    rw [isByteSum_ckSum8.valid_iff, hstart, isByteSum_ckSum8.ckFeedAll_eq (by decide), Nat.zero_add]
  · have hstart : ckBodyStart ckSum8Sync = 254 := rfl
    rw [isByteSum_ckSum8Sync.valid_iff, hstart, isByteSum_ckSum8Sync.ckFeedAll_eq (by decide)]
    change (254 + (body.map BitVec.toNat).sum) % 256 = 0 ↔ ((body.map BitVec.toNat).sum + 0x1FE) % 256 = 0
    omega
  · have hsum : IsByteSum c := by
      obtain rfl | rfl : c = ckSum8 ∨ c = ckSum8Sync := by simpa using hc
      · exact isByteSum_ckSum8
      · exact isByteSum_ckSum8Sync
    exact hsum.valid_feed_trailer _

/-! The guards (R84). Only a wait reads the queue, and a wait always answers: `receive_effect` and
`lineOperation_cases` rest on that. -/

theorem lineOperation_ne_fault (bytes : List Byte) (timeout : Nat) (finish : WaitOutcome → State → State) (s : State)
    (f : Fault) : lineOperation bytes timeout finish s ≠ .fault f := by
  obtain ⟨-, hop⟩ | ⟨-, ⟨_, -, hop⟩ | ⟨_, _, -, -, hop⟩⟩ := lineOperation_cases bytes timeout finish s <;>
    rw [hop] <;> nofun

theorem exec_setter_ne_fault (r : Tunable) (v : F) (s : State) (f : Fault) : exec (r.setter v) s ≠ .fault f := by
  rw [exec_setter]
  obtain ⟨-, hwrite⟩ | ⟨-, hwrite⟩ := writeNum_cases v (r.put v) s <;> rw [hwrite] <;> nofun

theorem execSetMode_ne_fault (m : Int) (s : State) (f : Fault) : execSetMode m s ≠ .fault f := by
  unfold execSetMode
  split <;> nofun

theorem execSetDir_ne_fault (d : Int) (s : State) (f : Fault) : execSetDir d s ≠ .fault f := by
  unfold execSetDir
  split <;> nofun

theorem execEvalctrl_ne_fault (s : State) (f : Fault) : execEvalctrl s ≠ .fault f := by
  unfold execEvalctrl
  split <;> nofun

theorem exec_ne_fault_of_hop {i : Instr} (hi : formatOf i = .hop) (s : State) (f : Fault) : exec i s ≠ .fault f := by
  cases i <;> simp only [formatOf, reduceCtorEq] at hi
  case ping timeout => exact lineOperation_ne_fault _ timeout _ s f
  case runcycle timeout => exact lineOperation_ne_fault _ timeout _ s f
  case evalctrl => exact execEvalctrl_ne_fault s f
  case setMode m => exact execSetMode_ne_fault m s f
  case setDir d => exact execSetDir_ne_fault d s f
  case setTargetVoltage v => exact exec_setter_ne_fault .targetVoltage v s f
  case setTargetPosition v => exact exec_setter_ne_fault .targetPosition v s f
  case setTargetCslMode v => exact exec_setter_ne_fault .targetCslMode v s f
  case setTargetCslFeedback v => exact exec_setter_ne_fault .targetCslFeedback v s f
  case setLimitLow v => exact exec_setter_ne_fault .limitLow v s f
  case setLimitHigh v => exact exec_setter_ne_fault .limitHigh v s f
  case setProportionalGain v => exact exec_setter_ne_fault .proportionalGain v s f
  case setDisableAngle v => exact exec_setter_ne_fault .disableAngle v s f
  -- the reads, the records and `RESETSTATS` go on in every state
  all_goals nofun

theorem exec_ne_fault (i : Instr) (s : State) (f : Fault) : exec i s ≠ .fault f := by
  cases hi : formatOf i with
  | txf =>
    obtain ⟨_, _, -, hexec⟩ := exec_of_txf hi s
    rw [hexec]
    nofun
  | rxf =>
    obtain ⟨bytes, -, hexec⟩ := exec_of_rxf hi s
    obtain ⟨_, hnext, -⟩ := receive_effect bytes s
    rw [hexec, hnext]
    nofun
  | hop => exact exec_ne_fault_of_hop hi s f

/-- Every step is idle, a refusal of what was fetched, or an execution of it. -/
theorem step_cases (s : State) :
    step s = .next s ∨ (∃ r, step s = .refused r) ∨ ∃ i u, step s = exec i u := by
  cases hfetch : fetch s with
  | none => exact .inl (by simp only [step, hfetch])
  | some x =>
    obtain ⟨r, u⟩ := x
    cases hdecode : decode s.cfg.lit r with
    | error e => exact .inr (.inl ⟨refusalOf e, by simp only [step, hfetch, hdecode]⟩)
    | ok i => exact .inr (.inr ⟨i, u, step_of_fetch_of_decode hfetch hdecode⟩)

/-- Settles O8: an idle step and a refusal are no fault, and no execution faults. -/
theorem noStepFaults : Obligations.NoStepFaults := by
  intro s f
  obtain hidle | ⟨r, hrefused⟩ | ⟨i, u, hexec⟩ := step_cases s
  · rw [hidle]
    nofun
  · rw [hrefused]
    nofun
  · rw [hexec]
    exact exec_ne_fault i u f

/-! The stream in chunks (R76; 41_rx_decoder.md R161). -/

/-- Induction along the decode steps of a drain: each `More` takes a byte away, so a step that is not `More` comes. -/
theorem drain_induction {motive : State → Prop}
    (stops : ∀ s t p, decodeStep s = some (p, t) → p ≠ .more → motive s)
    (goesOn : ∀ s t, decodeStep s = some (.more, t) → motive t → motive s) (s : State) : motive s := by
  induction hn : s.rxq.length using Nat.strong_induction_on generalizing s with
  | _ n ih =>
    obtain ⟨p, t, hstep, heffect⟩ := decodeStep_effect s
    by_cases hp : p = .more
    · subst hp
      obtain ⟨⟨b, hb⟩, -⟩ := heffect.more rfl
      have hshorter : t.rxq.length < n := by simp [← hn, hb]
      exact goesOn s t hstep (ih _ hshorter t rfl)
    · exact stops s t p hstep hp

/-- A drain goes on after a `More` whatever bytes stand behind it. -/
theorem drain_append_of_more {s t : State} (h : decodeStep s = some (.more, t)) (later : List Byte) :
    drain { s with rxq := s.rxq ++ later } = drain { t with rxq := t.rxq ++ later } :=
  drain_of_more (decodeStep_append h nofun later)

/-- A parse that ended leaves later bytes behind the rest of its queue. -/
theorem drain_append_of_done (later : List Byte) (s : State) : ∀ t, drain s = some (.done, t) →
    drain { s with rxq := s.rxq ++ later } = some (.done, { t with rxq := t.rxq ++ later }) := by
  induction s using drain_induction with
  | stops s u p hstep hp =>
    intro t h
    rw [drain_of_ne_more hstep hp] at h
    cases h
    exact drain_of_ne_more (decodeStep_append hstep nofun later) nofun
  | goesOn s u hstep ih =>
    intro t h
    rw [drain_append_of_more hstep]
    exact ih t ((drain_of_more hstep).symm.trans h)

/-- A drain that waits is taken up by later bytes where it stopped. -/
theorem drain_append_of_pending (later : List Byte) (s : State) : ∀ t, drain s = some (.pending, t) →
    drain { s with rxq := s.rxq ++ later } = drain { t with rxq := t.rxq ++ later } := by
  induction s using drain_induction with
  | stops s u p hstep hp =>
    intro t h
    obtain ⟨p', u', hstep', heffect⟩ := decodeStep_effect s
    rw [drain_of_ne_more hstep hp] at h
    cases h
    rw [hstep] at hstep'
    cases hstep'
    obtain ⟨rfl, -⟩ := heffect.pending rfl
    rfl
  | goesOn s u hstep ih =>
    intro t h
    rw [drain_append_of_more hstep]
    exact ih t ((drain_of_more hstep).symm.trans h)

/-- Settles O25, by induction along the drain of the first chunk. -/
theorem fragmentationDoesNotMatter : Obligations.FragmentationDoesNotMatter := fun s later =>
  ⟨drain_append_of_done later s, drain_append_of_pending later s⟩

end Sys2Proof.Machine
end

section
/-! Proofs of the encoding family (30_encoding.md): what every request that decodes has in common, and what the block
transmits. -/

namespace Sys2Proof.Machine

/-! The round trip from an instruction, row by row from the family `RoundTrip`. -/

/-- Settles O1: each row has its lemma in `RoundTrip`. -/
theorem decodeInvertsEncode : Obligations.DecodeInvertsEncode := by
  intro lit i hwf
  have hrow : Laws.RoundTrip.Statement i :=
    match i with
    | .pingreq id ck => Laws.RoundTrip.pingreq id ck
    | .datareq id ck => Laws.RoundTrip.datareq id ck
    | .setvPos id mag ck => Laws.RoundTrip.setvPos id mag ck
    | .setvNeg id mag ck => Laws.RoundTrip.setvNeg id mag ck
    | .toggle id ck => Laws.RoundTrip.toggle id ck
    | .state id w0 w1 w2 w3 w4 ck => Laws.RoundTrip.state id w0 w1 w2 w3 w4 ck
    | .pingreply id ck => Laws.RoundTrip.pingreply id ck
    | .rxunk cmd => Laws.RoundTrip.rxunk cmd
    | .ping t => Laws.RoundTrip.ping t
    | .runcycle t => Laws.RoundTrip.runcycle t
    | .evalctrl => Laws.RoundTrip.evalctrl
    | .getMode => Laws.RoundTrip.getMode
    | .getDir => Laws.RoundTrip.getDir
    | .getTargetVoltage => Laws.RoundTrip.getTargetVoltage
    | .getTargetPosition => Laws.RoundTrip.getTargetPosition
    | .getTargetCslMode => Laws.RoundTrip.getTargetCslMode
    | .getTargetCslFeedback => Laws.RoundTrip.getTargetCslFeedback
    | .getLimitLow => Laws.RoundTrip.getLimitLow
    | .getLimitHigh => Laws.RoundTrip.getLimitHigh
    | .getProportionalGain => Laws.RoundTrip.getProportionalGain
    | .getDisableAngle => Laws.RoundTrip.getDisableAngle
    | .getMotorId => Laws.RoundTrip.getMotorId
    | .setMode m => Laws.RoundTrip.setMode m
    | .setDir d => Laws.RoundTrip.setDir d
    | .setTargetVoltage v => Laws.RoundTrip.setTargetVoltage v
    | .setTargetPosition v => Laws.RoundTrip.setTargetPosition v
    | .setTargetCslMode v => Laws.RoundTrip.setTargetCslMode v
    | .setTargetCslFeedback v => Laws.RoundTrip.setTargetCslFeedback v
    | .setLimitLow v => Laws.RoundTrip.setLimitLow v
    | .setLimitHigh v => Laws.RoundTrip.setLimitHigh v
    | .setProportionalGain v => Laws.RoundTrip.setProportionalGain v
    | .setDisableAngle v => Laws.RoundTrip.setDisableAngle v
    | .getsnapshot => Laws.RoundTrip.getsnapshot
    | .getstats => Laws.RoundTrip.getstats
    | .resetstats => Laws.RoundTrip.resetstats
  exact hrow hwf lit

/-! The round trip from a request: everything the decoder can answer, said once. -/

/-- `i` is a right reading of `r`: it stands for an encoding, and for this one, unless `r` leaves out the operand that
`i` takes (30_encoding.md R90, R91; log 17). -/
structure Reads (r : Request) (i : Instr) : Prop where
  wellFormed : i.WellFormed
  encodes : encode i = r ∨ (takesOperand i = true ∧ ∃ code, r = .hop code .absent)

/-- A well-formed answer is a right reading of its own encoding. -/
theorem reads_of_ok {i j : Instr} (hwf : j.WellFormed) (h : (Except.ok j : Except DecodeError Instr) = .ok i) :
    Reads (encode j) i := by
  cases h
  exact ⟨hwf, .inl rfl⟩

/-- An absent operand that stands for a default (R105; log 17). -/
theorem reads_default {code : List Byte} {i j : Instr} (hwf : j.WellFormed) (htakes : takesOperand j = true)
    (h : (Except.ok j : Except DecodeError Instr) = .ok i) : Reads (.hop code .absent) i := by
  cases h
  exact ⟨hwf, .inr ⟨htakes, code, rfl⟩⟩

theorem reads_of_error {e : DecodeError} {r : Request} {i : Instr} (h : Except.error e = Except.ok i) : Reads r i := by
  cases h

/-- One row of the decoder: it reads rightly if it does under its guard and the rows after it do. -/
theorem reads_of_ite {p : Prop} [Decidable p] {row others : Except DecodeError Instr} {r : Request} {i : Instr}
    (hrow : p → row = .ok i → Reads r i) (hothers : ¬p → others = .ok i → Reads r i)
    (h : (if p then row else others) = .ok i) : Reads r i := by
  by_cases hp : p
  · rw [if_pos hp] at h
    exact hrow hp h
  · rw [if_neg hp] at h
    exact hothers hp h

/-! Frames (R91 to R99). -/

theorem decodeTxPlain_reads {cmd id ck : Byte} {i : Instr} :
    decodeTxPlain cmd id ck = .ok i → Reads (.txf (framed [cmd, id, ck])) i := by
  unfold decodeTxPlain
  refine reads_of_ite (by rintro rfl; exact reads_of_ok (j := .pingreq id ck) rfl) fun _ => ?_
  refine reads_of_ite (by rintro rfl; exact reads_of_ok (j := .datareq id ck) rfl) fun _ => ?_
  refine reads_of_ite (by rintro rfl; exact reads_of_ok (j := .toggle id ck) rfl) fun _ => ?_
  exact reads_of_ite (fun _ => reads_of_error) fun _ => reads_of_error

theorem decodeTxVoltage_reads {cmd id mag ck : Byte} {i : Instr} :
    decodeTxVoltage cmd id mag ck = .ok i → Reads (.txf (framed [cmd, id, mag, ck])) i := by
  unfold decodeTxVoltage
  refine reads_of_ite ?_ fun _ => reads_of_ite ?_ fun _ => ?_
  · rintro rfl
    have hvalue (hmag : mag.toNat ≤ 128) : Instr.WellFormed (.setvPos id mag ck) := decide_eq_true hmag
    exact reads_of_ite (fun hmag => reads_of_ok (hvalue hmag)) fun _ => reads_of_error
  · rintro rfl
    have hvalue (hmag : mag.toNat ≤ 128) : Instr.WellFormed (.setvNeg id mag ck) := decide_eq_true hmag
    exact reads_of_ite (fun hmag => reads_of_ok (hvalue hmag)) fun _ => reads_of_error
  · exact reads_of_ite (fun _ => reads_of_error) fun _ => reads_of_error

theorem decodeTx_reads {bytes : List Byte} {i : Instr} : decodeTx bytes = .ok i → Reads (.txf bytes) i := by
  unfold decodeTx
  split
  next => exact reads_of_ite (by rintro ⟨rfl, rfl⟩; exact decodeTxPlain_reads) fun _ => reads_of_error
  next => exact reads_of_ite (by rintro ⟨rfl, rfl⟩; exact decodeTxVoltage_reads) fun _ => reads_of_error
  next => exact reads_of_error

/-- Splitting a word put together from two bytes, beside `wordOf_hiByte_loByte` (20_memory.md R75). -/
@[simp] theorem hiByte_wordOf (hi lo : Byte) : hiByte (wordOf hi lo) = hi := BitVec.extractLsb'_append_eq_left

@[simp] theorem loByte_wordOf (hi lo : Byte) : loByte (wordOf hi lo) = lo := BitVec.extractLsb'_append_eq_right

theorem encode_state_of_bytes (id p1 p0 c1 c0 b1 b0 v1 v0 t1 t0 ck : Byte) :
    encode (.state id (wordOf p1 p0) (wordOf c1 c0) (wordOf b1 b0) (wordOf v1 v0) (wordOf t1 t0) ck) =
      .rxf (framed [Cfg.cmdState, id, p1, p0, c1, c0, b1, b0, v1, v0, t1, t0, ck]) := by
  simp only [encode, stateBody, hiByte_wordOf, loByte_wordOf]

theorem decodeRxBody_reads {cmd : Byte} {rest : List Byte} {i : Instr} :
    decodeRxBody cmd rest = .ok i → Reads (.rxf (framed (cmd :: rest))) i := by
  unfold decodeRxBody
  refine reads_of_ite (fun hcmd => ?_) fun hstate => reads_of_ite (fun hcmd => ?_) fun hreply => ?_
  · rw [hcmd]
    split
    next => exact encode_state_of_bytes .. ▸ reads_of_ok rfl
    next => exact reads_of_error
  · rw [hcmd]
    split
    next id ck => exact reads_of_ok (j := .pingreply id ck) rfl
    next => exact reads_of_error
  · have hunknown : Instr.WellFormed (.rxunk cmd) := by simp [Instr.WellFormed, Instr.wellFormed, hstate, hreply]
    split
    next => exact reads_of_ok hunknown
    next => exact reads_of_error

theorem decodeRx_reads {bytes : List Byte} {i : Instr} : decodeRx bytes = .ok i → Reads (.rxf bytes) i := by
  unfold decodeRx
  split
  next => exact reads_of_ite (by rintro ⟨rfl, rfl⟩; exact decodeRxBody_reads) fun _ => reads_of_error
  next => exact reads_of_error

/-! Operands (R103): each form takes one kind of operand over. -/

theorem noOperand_reads {code : List Byte} {op : Operand} {i j : Instr} (henc : encode j = .hop code .absent)
    (hwf : j.WellFormed) (h : noOperand j op = .ok i) : Reads (.hop code op) i := by
  cases op with
  | absent => exact henc ▸ reads_of_ok hwf h
  | int n => cases h
  | num v => cases h

theorem timeoutOperand_reads {code : List Byte} {op : Operand} {default : Nat} {mk : Nat → Instr} {i : Instr}
    (henc : ∀ n : Nat, encode (mk n) = .hop code (.int n)) (hwf : ∀ n, (mk n).WellFormed)
    (htakes : ∀ n, takesOperand (mk n) = true) (h : timeoutOperand default mk op = .ok i) :
    Reads (.hop code op) i := by
  match op with
  | .absent => exact reads_default (hwf default) (htakes default) h
  | .int (.ofNat n) => exact henc n ▸ reads_of_ok (hwf n) h
  | .int (.negSucc n) => cases h
  | .num v => cases h

theorem numOperand_reads {code : List Byte} {op : Operand} {mk : F → Instr} {i : Instr}
    (henc : ∀ v, encode (mk v) = .hop code (.num v)) (hwf : ∀ v, (mk v).WellFormed)
    (htakes : ∀ v, takesOperand (mk v) = true) (h : numOperand mk op = .ok i) : Reads (.hop code op) i := by
  cases op with
  | absent => exact reads_default (hwf 0) (htakes 0) h
  | int n => cases h
  | num v => exact henc v ▸ reads_of_ok (hwf v) h

theorem modeOperand_reads {op : Operand} {i : Instr} (h : modeOperand op = .ok i) :
    Reads (.hop [0x05, 0x00] op) i := by
  cases op with
  | absent => exact reads_default (j := .setMode 0) rfl rfl h
  | int m => exact reads_of_ok (j := .setMode m) rfl h
  | num v => cases h

theorem dirOperand_reads {op : Operand} {i : Instr} (h : dirOperand op = .ok i) :
    Reads (.hop [0x05, 0x01] op) i := by
  cases op with
  | absent => exact reads_default (j := .setDir 1) rfl rfl h
  | int d => exact reads_of_ok (j := .setDir d) rfl h
  | num v => cases h

/-! Host operations (R103), a row for each code byte and each register of 10_state.md R36. -/

theorem decodeGet_reads {r : Byte} {op : Operand} {i : Instr} :
    decodeGet r op = .ok i → Reads (.hop [0x04, r] op) i := by
  unfold decodeGet
  -- the eleven registers
  iterate 11 refine reads_of_ite (by rintro rfl; exact noOperand_reads rfl rfl) fun _ => ?_
  exact reads_of_error

theorem decodeSet_reads {r : Byte} {op : Operand} {i : Instr} :
    decodeSet r op = .ok i → Reads (.hop [0x05, r] op) i := by
  unfold decodeSet
  refine reads_of_ite (by rintro rfl; exact modeOperand_reads) fun _ => ?_
  refine reads_of_ite (by rintro rfl; exact dirOperand_reads) fun _ => ?_
  -- the eight tunables
  iterate 8
    refine reads_of_ite (fun hreg => ?_) fun _ => ?_
    · rw [hreg]
      exact numOperand_reads (fun _ => rfl) (fun _ => rfl) fun _ => rfl
  exact reads_of_ite (fun _ => reads_of_error) fun _ => reads_of_error

theorem decodeHop1_reads {lit : Literals} {c : Byte} {op : Operand} {i : Instr} :
    decodeHop1 lit c op = .ok i → Reads (.hop [c] op) i := by
  unfold decodeHop1
  -- `PING` and `RUNCYCLE`
  iterate 2
    refine reads_of_ite (fun hcode => ?_) fun _ => ?_
    · rw [hcode]
      exact timeoutOperand_reads (fun _ => rfl) (fun _ => rfl) fun _ => rfl
  -- `EVALCTRL`, the two records and `RESETSTATS`
  iterate 4 refine reads_of_ite (by rintro rfl; exact noOperand_reads rfl rfl) fun _ => ?_
  exact reads_of_error

theorem decodeHop_reads {lit : Literals} {code : List Byte} {op : Operand} {i : Instr} :
    decodeHop lit code op = .ok i → Reads (.hop code op) i := by
  unfold decodeHop
  split
  next => exact decodeHop1_reads
  next =>
    refine reads_of_ite (by rintro rfl; exact decodeGet_reads) fun _ => ?_
    exact reads_of_ite (by rintro rfl; exact decodeSet_reads) fun _ => reads_of_error
  next => exact reads_of_error

/-- The inversion of `decode`: what it answers is a right reading of what was asked. -/
theorem decode_reads {lit : Literals} {r : Request} {i : Instr} (h : decode lit r = .ok i) : Reads r i := by
  cases r with
  | hop code op => exact decodeHop_reads h
  | txf bytes => exact decodeTx_reads h
  | rxf bytes => exact decodeRx_reads h

/-- Settles O2, by the inversion of `decode`. -/
theorem decodedInstructionsAreWellFormed : Obligations.DecodedInstructionsAreWellFormed := fun _ _ _ h =>
  (decode_reads h).wellFormed

/-- Settles O3, by the inversion of `decode`. -/
theorem instructionDeterminesItsRequest : Obligations.InstructionDeterminesItsRequest := by
  intro lit r i h hpresent
  obtain hencodes | ⟨htakes, code, habsent⟩ := (decode_reads h).encodes
  · exact hencodes
  · exact absurd habsent (hpresent htakes code)

/-- Settles O4: the decoder run on the nine requests. -/
theorem wordsDecodeAsTheSpecWritesThem : Obligations.WordsDecodeAsTheSpecWritesThem :=
  ⟨rfl, rfl, rfl, rfl, rfl, rfl, rfl, rfl, rfl⟩

/-! What the block transmits (R102). -/

/-- `TransportInv` for either set of frame kinds, with or without `TOGGLE`. -/
def SendsWholeFrames (toggle : Bool) (s : State) : Prop := TxIdle s ∧ FrameLog s.cfg toggle (s.txLog ++ s.txq)

theorem transportInv_iff (s : State) : TransportInv s ↔ SendsWholeFrames true s := Iff.rfl

/-- What the transmitter's invariant is about is the same in two states (10_state.md R42). -/
structure SameTransport (s t : State) : Prop where
  cfg : t.cfg = s.cfg
  connLost : t.connLost = s.connLost
  txq : t.txq = s.txq
  txLog : t.txLog = s.txLog

theorem SendsWholeFrames.of_same {toggle : Bool} {s t : State} (hs : SendsWholeFrames toggle s)
    (h : SameTransport s t) : SendsWholeFrames toggle t := by
  unfold SendsWholeFrames TxIdle at *
  rw [h.cfg, h.connLost, h.txq, h.txLog]
  exact hs

theorem OnlyReceives.sameTransport {s t : State} (h : OnlyReceives s t) : SameTransport s t := by
  rw [OnlyReceives] at h
  rw [h]
  exact ⟨rfl, rfl, rfl, rfl⟩

/-- Only the line operations touch what is sent (40_tx_encoder.md R120, R121, R130). -/
theorem sameTransport_of_not_isLineOperation {i : Instr} {s t : State} (hi : ¬IsLineOperation i)
    (h : exec i s = .next t) : SameTransport s t := by
  cases execEffect_of_next h with
  | usesLine _ _ hruns _ _ =>
    obtain ⟨bytes, -, hexec⟩ := exec_of_rxf (hruns.resolve_left hi) s
    obtain ⟨u, hu, -, htouches, -⟩ := receive_effect bytes s
    rw [hexec, hu] at h
    cases h
    rw [htouches]
    exact ⟨rfl, rfl, rfl, rfl⟩
  | evalctrl => exact ⟨evalControl_cfg s, evalControl_connLost s, evalControl_txq s, evalControl_txLog s⟩
  | keepsRegisters => exact ⟨rfl, rfl, rfl, rfl⟩
  | setMode => exact ⟨rfl, rfl, rfl, rfl⟩
  | setDir => exact ⟨rfl, rfl, rfl, rfl⟩
  | setTunable => exact ⟨rfl, rfl, rfl, rfl⟩

theorem sameTransport_finishPing (o : WaitOutcome) (s : State) : SameTransport s (finishPing o s) :=
  ⟨rfl, rfl, rfl, rfl⟩

theorem sameTransport_finishCycle (o : WaitOutcome) (s : State) : SameTransport s (finishCycle o s) :=
  ⟨rfl, rfl, rfl, rfl⟩

/-- A line operation whose frame is of an own kind adds that frame whole, sent or still queued behind the loss
(45_host_ops.md R221, R223). -/
theorem lineOperation_keeps_sendsWholeFrames {toggle : Bool} {cmd : Byte} {payload : List Byte} {timeout : Nat}
    {finish : WaitOutcome → State → State} {s t : State} (hs : SendsWholeFrames toggle s)
    (hkind : OwnKind toggle cmd payload) (hfinish : ∀ o u, SameTransport u (finish o u))
    (h : lineOperation (frame s.cfg cmd payload) timeout finish s = .next t) : SendsWholeFrames toggle t := by
  obtain ⟨hidle, hlog⟩ := hs
  obtain ⟨-, hop⟩ | ⟨hconn, hcases⟩ := lineOperation_cases (frame s.cfg cmd payload) timeout finish s
  · rw [hop] at h
    cases h
  obtain ⟨hsent, hlost⟩ := sendFrame_frameLog hkind (hidle hconn) hlog
  obtain ⟨u, hsend, hop⟩ | ⟨u, w, hsend, hwait, hop⟩ := hcases
  · rw [hop] at h
    cases h
    obtain ⟨hset, hwhole⟩ := hlost _ hsend
    exact ⟨fun hclear => absurd (hset.symm.trans hclear) nofun, hwhole⟩
  · rw [hop] at h
    cases h
    obtain ⟨hempty, hwhole⟩ := hsent _ hsend
    have hu : SendsWholeFrames toggle u := ⟨fun _ => hempty, hwhole⟩
    have hw := hu.of_same ((OnlyReceives.startWait u).trans hwait.receives).sameTransport
    exact hw.of_same (hfinish _ w)

/-- An instruction keeps what was transmitted whole, and adds no `TOGGLE` (40_tx_encoder.md R126). -/
theorem exec_keeps_sendsWholeFrames {toggle : Bool} {i : Instr} {s t : State} (hs : SendsWholeFrames toggle s)
    (h : exec i s = .next t) : SendsWholeFrames toggle t := by
  by_cases hi : IsLineOperation i
  · obtain ⟨timeout, rfl⟩ | ⟨timeout, rfl⟩ := hi
    · have hkind : OwnKind toggle Cfg.cmdPing [] := .inl ⟨rfl, .inl rfl⟩
      exact lineOperation_keeps_sendsWholeFrames hs hkind sameTransport_finishPing h
    · obtain ⟨cmd, payload, hkind, hframe⟩ := cycleFrame_kind s
      have hop : lineOperation (cycleFrame s) timeout finishCycle s = .next t := h
      rw [hframe] at hop
      exact lineOperation_keeps_sendsWholeFrames hs (hkind.of_false toggle) sameTransport_finishCycle hop
  · exact hs.of_same (sameTransport_of_not_isLineOperation hi h)

/-- Settles O15: fetching leaves the transmitter alone, and every instruction keeps its invariant. -/
theorem stepKeepsTransportInv : Obligations.StepKeepsTransportInv := by
  intro s t hs h
  rw [transportInv_iff] at hs ⊢
  obtain rfl | ⟨r, i, rows, requests, -, hexec⟩ := step_next_cases h
  · exact hs
  · have hfetched : SendsWholeFrames true { s with frameRows := rows, requests := requests } := hs
    exact exec_keeps_sendsWholeFrames hfetched hexec

end Sys2Proof.Machine
end

section
/-! Proofs of the encoder family (40_tx_encoder.md): the voltage and the payload byte of a `SETV` frame, the shape of a
frame, and who sends. -/

namespace Sys2Proof.Machine.Bin32

/-! A clamp between opposite bounds, and the magnitude of what it answers. -/

theorem natAbs_key (x : F) : (key x).natAbs = magBits x := by
  rw [key_eq]
  cases sign x <;> simp

theorem lt_neg_neg (a b : F) : lt (neg a) (neg b) = lt b a := by
  rw [Bool.eq_iff_iff, lt_iff, lt_iff, isNaN_neg, isNaN_neg, key_neg, key_neg, Int.neg_lt_neg_iff, and_left_comm]

/-- A clamp between opposite bounds commutes with the sign. -/
theorem clamp_neg {hi : F} (h : le (neg hi) hi = true) (x : F) :
    clamp (neg x) (neg hi) hi = neg (clamp x (neg hi) hi) := by
  have habove : lt hi (neg x) = lt x (neg hi) := by rw [← lt_neg_neg, neg_neg]
  rw [clamp_of_le h, clamp_of_le h, habove, lt_neg_neg]
  by_cases hlow : lt x (neg hi) = true
  · have hnot : lt hi x = false := by
      rw [le_iff] at h
      rw [lt_iff] at hlow
      rw [← Bool.not_eq_true, lt_iff]
      omega
    rw [if_pos hlow, if_pos hlow, hnot, if_neg Bool.false_ne_true, neg_neg]
  · rw [if_neg hlow, if_neg hlow, apply_ite neg]

/-- What a clamp between finite opposite bounds answers is finite, and no larger than a bound. -/
theorem clamp_neg_bound {x hi : F} (h : le (neg hi) hi = true) (hfin : isFinite hi = true) (hx : isNaN x = false) :
    isFinite (clamp x (neg hi) hi) = true ∧ magBits (clamp x (neg hi) hi) ≤ magBits hi := by
  obtain ⟨hlow, hhigh⟩ := clamp_mem h hx
  refine ⟨isFinite_of_le_of_le hlow hhigh (by rw [isFinite_neg, hfin]) hfin, ?_⟩
  have hkeylow := ((le_iff _ _).mp hlow).2.2
  have hkeyhigh := ((le_iff _ _).mp hhigh).2.2
  rw [key_neg] at hkeylow
  rw [← natAbs_key, ← natAbs_key hi]
  omega

theorem units_le_units {x y : F} (h : magBits x ≤ magBits y) : units x ≤ units y := by
  rw [units_eq, units_eq]
  exact unitsOf_le_iff.mpr h

/-- A product with one factor made no larger, of like signs and in range: it is non-negative and no larger. -/
theorem mul_bound {a b c : F} (ha : isFinite a = true) (hc : isFinite c = true) (hsign : sign a = sign c)
    (hab : magBits a ≤ magBits b) (hrange : roundBits (units b * units c) (2 ^ 149) < infBits) :
    isFinite (mul a c) = true ∧ sign (mul a c) = false ∧
      magBits (mul a c) ≤ roundBits (units b * units c) (2 ^ 149) := by
  have hle : roundBits (units a * units c) (2 ^ 149) ≤ roundBits (units b * units c) (2 ^ 149) :=
    roundBits_mono (Nat.two_pow_pos 149) (Nat.mul_le_mul_right _ (units_le_units hab))
  have hin := hle.trans_lt hrange
  have hbits : roundBits (units a * units c) (2 ^ 149) < 2 ^ 31 := hin.trans (by decide)
  rw [mul_eq_pack ha hc hin, isFinite_iff, sign_pack hbits, magBits_pack hbits, hsign, bne_self_eq_false]
  exact ⟨hin, rfl, hle⟩

/-- The nearest integer of a finite non-negative number lies between 0 and that of a larger one (00_scope.md R16). -/
theorem roundHafz_bound {x y : F} (hfin : isFinite x = true) (hsign : sign x = false) (h : magBits x ≤ magBits y) :
    0 ≤ roundHafz x ∧ roundHafz x ≤ nearestUp y := by
  have hround : roundHafz x = nearestUp x := by
    rw [roundHafz, if_pos hfin, hsign, if_neg Bool.false_ne_true]
  have hup : nearestUp x ≤ nearestUp y :=
    Nat.div_le_div_right (Nat.add_le_add_right (Nat.mul_le_mul_left 2 (units_le_units h)) _)
  rw [hround]
  exact ⟨Int.natCast_nonneg _, Int.ofNat_le.mpr hup⟩

end Sys2Proof.Machine.Bin32

namespace Sys2Proof.Machine

/-! The direction's sign as a number (10_state.md R27). -/

theorem dirF_eq_toF_ite (d : Direction) : dirF d = Bin32.toF (if d = .plus then 1 else -1) := by
  cases d <;> rfl

theorem isFinite_dirF (d : Direction) : Bin32.isFinite (dirF d) = true := by
  cases d <;> decide

theorem units_dirF (d : Direction) : Bin32.units (dirF d) = 2 ^ 149 := by
  cases d <;> decide

theorem sign_dirF (d : Direction) : Bin32.sign (dirF d) = decide (d = .minus) := by
  cases d <;> decide

/-- Multiplying by the direction keeps or flips the sign, exactly (R123). -/
theorem mul_dirF {x : F} (hx : Bin32.isFinite x = true) (d : Direction) :
    Bin32.mul x (dirF d) = if d = .minus then Bin32.neg x else x := by
  rw [Bin32.mul_unit hx (isFinite_dirF d) (units_dirF d), sign_dirF]
  simp only [decide_eq_true_eq]

/-! The voltage and the payload of a `SETV` frame, with the source's literals. -/

theorem neg_source_vEncodeLimit : Bin32.neg Literals.source.vEncodeLimit = Bin32.decimal (-5) 10 := by decide

theorem source_limits_ordered :
    Bin32.le (Bin32.neg Literals.source.vEncodeLimit) Literals.source.vEncodeLimit = true := by decide

theorem isFinite_source_vEncodeLimit : Bin32.isFinite Literals.source.vEncodeLimit = true := by decide

theorem isFinite_source_magScale : Bin32.isFinite Literals.source.magScale = true := by decide

/-- The clamp limit scaled, 0.5 times 255.0, is 127.5. -/
theorem roundBits_limit_magScale :
    Bin32.roundBits (Bin32.units Literals.source.vEncodeLimit * Bin32.units Literals.source.magScale) (2 ^ 149) =
      Bin32.magBits (Bin32.decimal 1275 10) := by decide

/-- 127.5 rounds away from zero (R124). -/
theorem nearestUp_scaled_limit : Bin32.nearestUp (Bin32.decimal 1275 10) = 128 := by decide

/-- `EncodeSetV`'s voltage, as R123 writes it. -/
theorem encodedVoltage_source (d : Direction) (v : F) :
    encodedVoltage Literals.source d v =
      Bin32.mul (Bin32.clamp v (Bin32.decimal (-5) 10) (Bin32.decimal 5 10))
        (Bin32.toF (if d = .plus then 1 else -1)) := by
  rw [encodedVoltage, neg_source_vEncodeLimit, source_vEncodeLimit, dirF_eq_toF_ite]

/-- The voltage of `EncodeSetV` before the direction is applied (R123). -/
def clampedVoltage (v : F) : F :=
  Bin32.clamp v (Bin32.neg Literals.source.vEncodeLimit) Literals.source.vEncodeLimit

theorem encodedVoltage_eq_mul (d : Direction) (v : F) :
    encodedVoltage Literals.source d v = Bin32.mul (clampedVoltage v) (dirF d) := by
  rw [encodedVoltage, clampedVoltage]

theorem clampedVoltage_neg (v : F) : clampedVoltage (Bin32.neg v) = Bin32.neg (clampedVoltage v) :=
  Bin32.clamp_neg source_limits_ordered v

theorem clampedVoltage_bound {v : F} (hv : Bin32.isNaN v = false) :
    Bin32.isFinite (clampedVoltage v) = true ∧
      Bin32.magBits (clampedVoltage v) ≤ Bin32.magBits Literals.source.vEncodeLimit :=
  Bin32.clamp_neg_bound source_limits_ordered isFinite_source_vEncodeLimit hv

/-- With a voltage that is no NaN the direction only chooses the sign of the clamped voltage. -/
theorem encodedVoltage_source_eq_ite {v : F} (hv : Bin32.isNaN v = false) (d : Direction) :
    encodedVoltage Literals.source d v = if d = .minus then Bin32.neg (clampedVoltage v) else clampedVoltage v := by
  obtain ⟨hfin, -⟩ := clampedVoltage_bound hv
  rw [encodedVoltage_eq_mul, mul_dirF hfin]

theorem encodedVoltage_source_bound {v : F} (hv : Bin32.isNaN v = false) (d : Direction) :
    Bin32.isFinite (encodedVoltage Literals.source d v) = true ∧
      Bin32.magBits (encodedVoltage Literals.source d v) ≤ Bin32.magBits Literals.source.vEncodeLimit := by
  rw [encodedVoltage_source_eq_ite hv]
  split
  · rw [Bin32.isFinite_neg, Bin32.magBits_neg]
    exact clampedVoltage_bound hv
  · exact clampedVoltage_bound hv

/-- Opposite voltages under opposite directions are encoded from one and the same voltage (R129 (d)). -/
theorem encodedVoltage_source_opposite {v : F} (hv : Bin32.isNaN v = false) (d : Direction) :
    encodedVoltage Literals.source (oppositeDir d) (Bin32.neg v) = encodedVoltage Literals.source d v := by
  have hnv : Bin32.isNaN (Bin32.neg v) = false := by rw [Bin32.isNaN_neg, hv]
  rw [encodedVoltage_source_eq_ite hv, encodedVoltage_source_eq_ite hnv, clampedVoltage_neg]
  cases d with
  | plus => rw [oppositeDir, if_pos rfl, if_neg nofun, Bin32.neg_neg]
  | minus => rw [oppositeDir, if_neg nofun, if_pos rfl]

/-- `round_hafz(abs(vp) * 255.0)` of R123, the number that becomes the payload byte. -/
def payloadNumber (vp : F) : Int :=
  Bin32.roundHafz (Bin32.mul (Bin32.abs vp) (Bin32.decimal 255 1))

theorem magOf_source (vp : F) : magOf Literals.source vp = payloadByte (payloadNumber vp) := by
  rw [magOf, payloadNumber, source_magScale]

/-- The payload's range (R124). -/
theorem payloadNumber_bound {v : F} (hv : Bin32.isNaN v = false) (d : Direction) :
    0 ≤ payloadNumber (encodedVoltage Literals.source d v) ∧
      payloadNumber (encodedVoltage Literals.source d v) ≤ 128 := by
  obtain ⟨hfin, hmag⟩ := encodedVoltage_source_bound hv d
  have hlimit := roundBits_limit_magScale
  obtain ⟨hprod, hsign, hbits⟩ := Bin32.mul_bound (a := Bin32.abs (encodedVoltage Literals.source d v))
    (b := Literals.source.vEncodeLimit) (c := Literals.source.magScale) (by rw [Bin32.isFinite_abs, hfin])
    isFinite_source_magScale (by rw [Bin32.sign_abs]; decide) (by rw [Bin32.magBits_abs]; exact hmag)
    (by rw [hlimit]; decide)
  rw [hlimit] at hbits
  have hround := Bin32.roundHafz_bound hprod hsign hbits
  rw [nearestUp_scaled_limit, source_magScale] at hround
  exact hround

theorem magOf_source_of_not_isNaN {v : F} (hv : Bin32.isNaN v = false) (d : Direction) :
    magOf Literals.source (encodedVoltage Literals.source d v) =
      BitVec.ofInt 8 (payloadNumber (encodedVoltage Literals.source d v)) := by
  obtain ⟨hlow, hhigh⟩ := payloadNumber_bound hv d
  rw [magOf_source, payloadByte_of_le hlow (hhigh.trans (by decide))]

/-- The command byte of a `SETV` frame carries the sign, -0.0 counting as non-negative (R123). -/
theorem setV_command (vp : F) :
    (if nonNegative vp then Cfg.cmdSetVPos else Cfg.cmdSetVNeg) =
      if Bin32.le (Bin32.decimal 0 1) vp then (0xB0 : Byte) else 0xB1 := by
  have hzero : Bin32.decimal 0 1 = 0 := by decide
  rw [hzero]
  rfl

theorem encodeSetV_source {cfg : Cfg} (h : SourceLiterals cfg) (d : Direction) (v : F) :
    encodeSetV cfg d v =
      frame cfg (if Bin32.le (Bin32.decimal 0 1) (encodedVoltage Literals.source d v) then 0xB0 else 0xB1)
        [magOf Literals.source (encodedVoltage Literals.source d v)] := by
  rw [SourceLiterals] at h
  rw [encodeSetV, h, ← setV_command]

/-! The obligations. -/

/-- Settles O11: the frame with the source's numbers put in, and the payload's range where the voltage is no NaN. -/
theorem setVEncodesClampedVoltage : Obligations.SetVEncodesClampedVoltage := by
  intro cfg d v hsource
  dsimp only
  rw [← encodedVoltage_source, encodeSetV_source hsource]
  refine ⟨⟨_, rfl⟩, fun hv => ?_⟩
  rw [magOf_source_of_not_isNaN hv, payloadNumber]

/-- Settles O12: 0.5 times 255.0 is 127.5, which rounds to 128, and rounding keeps the order below it. -/
theorem setVPayloadIsAtMost128 : Obligations.SetVPayloadIsAtMost128 := by
  intro d v hv
  dsimp only
  rw [← encodedVoltage_source, ← payloadNumber, magOf_source_of_not_isNaN hv]
  obtain ⟨hlow, hhigh⟩ := payloadNumber_bound hv d
  refine ⟨hlow, hhigh, ?_⟩
  rw [BitVec.toNat_ofInt]
  omega

/-- Settles O13: clamp and direction both commute with the sign, so that one voltage is encoded. -/
theorem setVIsSymmetricInDirection : Obligations.SetVIsSymmetricInDirection := by
  intro cfg d v hsource hv
  rw [encodeSetV_source hsource, encodeSetV_source hsource, encodedVoltage_source_opposite hv]

/-- Settles O16: every instruction keeps a transmission of whole frames without `TOGGLE`, and what is no line operation
leaves the transport alone. -/
theorem nothingSendsAToggle : Obligations.NothingSendsAToggle := by
  intro i s t h
  constructor
  · intro hidle hlog
    obtain ⟨-, hlog'⟩ := exec_keeps_sendsWholeFrames ⟨hidle, hlog⟩ h
    exact hlog'
  · intro hchanged
    by_contra hi
    have hsame := sameTransport_of_not_isLineOperation hi h
    exact hchanged.elim (· hsame.txLog) (· hsame.txq)

/-- Settles O10: `frame` is R122's byte list as it is built, the sync pair fed before the body. -/
theorem frameIsSyncBodyTrailer : Obligations.FrameIsSyncBodyTrailer := fun _ _ _ => rfl

/-- Settles O14, row by row: each is `formFrame` of its encoder rule's frame (R120 to R126). -/
theorem outboundRowsFormTheirFrame : Obligations.OutboundRowsFormTheirFrame :=
  fun _ _ _ _ => ⟨rfl, rfl, rfl, rfl, rfl⟩

end Sys2Proof.Machine
end

section
/-! Proofs of the decoder family (41_rx_decoder.md): what a decode step answers by parse state and head byte, the
conversion of the words of a `STATE` body, and how a drain ends. -/

namespace Sys2Proof.Machine.Bin32

/-! Integers and quotients that binary32 represents exactly. -/

/-- An integer of at most 24 bits is a number of type `F` (00_scope.md R15). -/
theorem toF_exact {n : Int} (hn : n.natAbs < 2 ^ 24) :
    isFinite (toF n) = true ∧ sign (toF n) = decide (n < 0) ∧ units (toF n) = n.natAbs * 2 ^ 149 := by
  unfold toF
  exact rounded_exact Nat.one_pos (Nat.mul_one _).symm hn (by decide)

/-- A quotient of at most 24 significant bits, in range, is exact. -/
theorem div_exact {a b : F} {m e : Nat} (ha : isFinite a = true) (hb : isFinite b = true) (hpos : 0 < units b)
    (hquot : units a * 2 ^ 149 = m * 2 ^ e * units b) (hm : m < 2 ^ 24) (he : e ≤ 253) :
    isFinite (div a b) = true ∧ sign (div a b) = (sign a != sign b) ∧ units (div a b) = m * 2 ^ e := by
  have hne : (units b != 0) = true := bne_iff_ne.mpr hpos.ne'
  unfold div
  rw [ha, hb, hne, Bool.and_self, Bool.and_self, if_pos rfl]
  exact rounded_exact hpos hquot hm he

/-- The value of a number whose sign and magnitude are those of an integer. -/
theorem value_of_sign_units {x : F} {n : Int} {c : Nat} (hsign : sign x = decide (n < 0))
    (hunits : units x = n.natAbs * c) : value x = n * c := by
  rw [value_eq, hsign, hunits, Nat.cast_mul]
  by_cases hn : n < 0
  · rw [decide_eq_true hn, if_pos rfl, Int.ofNat_natAbs_of_nonpos hn.le, Int.neg_mul, Int.neg_neg]
  · rw [decide_eq_false hn, if_neg Bool.false_ne_true, Int.natAbs_of_nonneg (Int.not_lt.mp hn)]

end Sys2Proof.Machine.Bin32

namespace Sys2Proof.Machine

/-! The conversions of the five words (R150). -/

theorem source_posZero : Literals.source.posZero = 512 := rfl

theorem isFinite_source_posScale : Bin32.isFinite Literals.source.posScale = true := by decide

theorem sign_source_posScale : Bin32.sign Literals.source.posScale = false := by decide

theorem units_source_posScale : Bin32.units Literals.source.posScale = 2 ^ 158 := by decide

/-- Dividing a difference of words by 512 is exact: its bits stay, the exponent goes down by 9. -/
theorem div_source_posScale_exact {n : Int} (hn : n.natAbs < 2 ^ 24) :
    Bin32.isFinite (Bin32.div (Bin32.toF n) Literals.source.posScale) = true ∧
      Bin32.value (Bin32.div (Bin32.toF n) Literals.source.posScale) = n * ((2 ^ 140 : Nat) : Int) := by
  obtain ⟨hfin, hsign, hunits⟩ := Bin32.toF_exact hn
  have hquot : Bin32.units (Bin32.toF n) * 2 ^ 149 =
      n.natAbs * 2 ^ 140 * Bin32.units Literals.source.posScale := by
    have hpow : 2 ^ 149 * 2 ^ 149 = 2 ^ 140 * 2 ^ 158 := by norm_num
    rw [hunits, units_source_posScale, Nat.mul_assoc, Nat.mul_assoc, hpow]
  obtain ⟨hfin', hsign', hunits'⟩ := Bin32.div_exact hfin isFinite_source_posScale
    (by rw [units_source_posScale]; exact Nat.two_pow_pos 158) hquot hn (by decide)
  rw [hsign, sign_source_posScale, Bool.bne_false] at hsign'
  exact ⟨hfin', Bin32.value_of_sign_units hsign' hunits'⟩

theorem s16_eq_toInt (w : Word) : s16 w = w.toInt := by
  rw [s16, BitVec.toInt_eq_toNat_cond]
  split <;> split <;> omega

/-- What a commit writes, with the conversions of R150 written out. -/
theorem commit_snap_conversions (s : State) :
    (commit s).snap =
      { s.snap with
        position :=
          Bin32.mul (Bin32.div (Bin32.toF ((s.stg.w0.toNat : Int) - s.cfg.lit.posZero)) s.cfg.lit.posScale)
            (Bin32.toF (if s.dir = .plus then 1 else -1))
        current := Bin32.mul (Bin32.toF s.stg.w1.toNat) s.cfg.currentScale
        backEmfVoltage := Bin32.div (Bin32.toF ((s.stg.w2.toNat : Int) - s.cfg.lit.posZero)) s.cfg.lit.posScale
        supplyVoltage := Bin32.mul (Bin32.toF s.stg.w3.toNat) s.cfg.voltageScale
        temperatureC := Bin32.div (Bin32.toF s.stg.w4.toInt) s.cfg.lit.tempDiv } := by
  rw [commit_snap, newPosition, newCurrent, newBackEmf, newSupply, newTemperature, signedCentered, signedCentered,
    dirF_eq_toF_ite, s16_eq_toInt, u16, u16, u16, u16]

/-! The decode step, one equation per parse state and head of the queue. -/

theorem terminal_iff (p : ParseState) : p.terminal = true ↔ p = .completed ∨ p = .invalid := by
  cases p <;> simp [ParseState.terminal]

/-- A terminal state stays (R156). -/
theorem decodeStep_of_terminal {s : State} (hps : s.ps.terminal = true) : decodeStep s = some (.done, s) := by
  obtain hps | hps := (terminal_iff s.ps).mp hps <;> simp only [decodeStep, hps]

/-- An empty queue is waited on (R142, R144, R146). -/
theorem decodeStep_of_empty {s : State} (hps : s.ps.terminal = false) (hq : s.rxq = []) :
    decodeStep s = some (.pending, s) := by
  have hempty := qEmpty_of_nil hq
  cases hp : s.ps with
  | awaitFirstSync => simp only [decodeStep, hp, hempty, if_true]
  | awaitSecondSync => simp only [decodeStep, hp, hempty, if_true]
  | processing => simp only [decodeStep, hp, hempty, if_true]
  | completed => rw [hp] at hps; cases hps
  | invalid => rw [hp] at hps; cases hps

section
variable {s : State} {b : Byte} {rest : List Byte}

/-- The search for the first sync byte skips any other (R142). -/
theorem decodeStep_skips_first (hps : s.ps = .awaitFirstSync) (hq : s.rxq = b :: rest) (hb : b ≠ 0xFF) :
    decodeStep s = some (.more, { s with rxq := rest }) := by
  have hne : ¬b = Cfg.syncByte := hb
  simp only [decodeStep, hps, qEmpty_of_cons hq, qFront_of_cons hq, qPop_of_cons hq, Bool.false_eq_true, if_false,
    if_neg hne, Option.map_some]

/-- The first sync byte resets the accumulator and is fed to it as a sync byte (R143, R157). -/
theorem decodeStep_takes_first (hps : s.ps = .awaitFirstSync) (hq : s.rxq = 0xFF :: rest) :
    decodeStep s =
      some (.more,
        { s with
          rxq := rest
          ps := .awaitSecondSync
          ckAcc := (ckOf s.cfg.ck).sync (ckOf s.cfg.ck).init }) := by
  have heq : (0xFF : Byte) = Cfg.syncByte := rfl
  have hreset : (ckReset s).rxq = 0xFF :: rest := hq
  simp only [decodeStep, hps, qEmpty_of_cons hq, qFront_of_cons hq, qSync_of_cons hreset, Bool.false_eq_true, if_false,
    if_pos heq, Option.map_some]
  rfl

/-- Anything but the second sync byte sends the search back to the first (R145). -/
theorem decodeStep_falls_back (hps : s.ps = .awaitSecondSync) (hq : s.rxq = b :: rest) (hb : b ≠ 0xFF) :
    decodeStep s = some (.more, { s with rxq := rest, ps := .awaitFirstSync }) := by
  have hne : ¬b = Cfg.syncByte := hb
  simp only [decodeStep, hps, qEmpty_of_cons hq, qFront_of_cons hq, qPop_of_cons hq, Bool.false_eq_true, if_false,
    if_neg hne, Option.map_some]

/-- The second sync byte starts the body (R144, R157). -/
theorem decodeStep_takes_second (hps : s.ps = .awaitSecondSync) (hq : s.rxq = 0xFF :: rest) :
    decodeStep s =
      some (.more, { s with rxq := rest, ps := .processing, ckAcc := (ckOf s.cfg.ck).sync s.ckAcc }) := by
  have heq : (0xFF : Byte) = Cfg.syncByte := rfl
  simp only [decodeStep, hps, qEmpty_of_cons hq, qFront_of_cons hq, qSync_of_cons hq, Bool.false_eq_true, if_false,
    if_pos heq, Option.map_some]
  rfl

/-- In `Processing` the head of the queue is the command byte (R147). -/
theorem decodeStep_of_command (hps : s.ps = .processing) (hq : s.rxq = b :: rest) :
    decodeStep s = processCommand b s := by
  simp only [decodeStep, hps, qEmpty_of_cons hq, qFront_of_cons hq, Bool.false_eq_true, if_false]

end

/-! The three kinds of body (R148, R153, R155). -/

theorem processCommand_state (s : State) :
    processCommand 0x80 s =
      if qLen s < 13 then some (.pending, s) else (takeState s).map fun s1 => (.done, stateVerdict s1) := rfl

theorem processCommand_pingReply (s : State) :
    processCommand 0xE1 s =
      if qLen s < 3 then some (.pending, s)
      else (takePingReply s).map fun r => (.done, pingReplyVerdict r.1 r.2) := rfl

theorem processCommand_unknown {c : Byte} (h80 : c ≠ 0x80) (hE1 : c ≠ 0xE1) (s : State) :
    processCommand c s = some (.done, { s with ps := .invalid }) :=
  (if_neg h80).trans (if_neg hE1)

/-- A whole `STATE` body of five words is taken into `STG` (R148, R149). -/
theorem processCommand_of_stateBody {s : State} {id ck : Byte} {w0 w1 w2 w3 w4 : Word} {rest : List Byte}
    (hq : s.rxq = stateBody id w0 w1 w2 w3 w4 ck ++ rest) :
    processCommand 0x80 s =
      some (.done, stateVerdict
        { s with
          rxq := rest
          ckAcc := ckFeedAll (ckOf s.cfg.ck) s.ckAcc (stateBody id w0 w1 w2 w3 w4 ck)
          stg := { id := id, w0 := w0, w1 := w1, w2 := w2, w3 := w3, w4 := w4 } }) := by
  have hlen : ¬qLen s < 13 := by
    rw [qLen, hq, List.length_append]
    exact Nat.not_lt.mpr (Nat.le_add_right 13 rest.length)
  rw [processCommand_state, if_neg hlen, takeState_eq hq]
  simp only [wordOf_hiByte_loByte, Option.map_some]
  rfl

/-- A whole `PINGREPLY` body is taken (R153). -/
theorem processCommand_of_pingReplyBody {s : State} {id ck : Byte} {rest : List Byte}
    (hq : s.rxq = 0xE1 :: id :: ck :: rest) :
    processCommand 0xE1 s =
      some (.done, pingReplyVerdict id
        { s with rxq := rest, ckAcc := ckFeedAll (ckOf s.cfg.ck) s.ckAcc [0xE1, id, ck] }) := by
  have hlen : ¬qLen s < 3 := by
    rw [qLen, hq]
    exact Nat.not_lt.mpr (Nat.le_add_left 3 rest.length)
  rw [processCommand_pingReply, if_neg hlen, takePingReply_eq hq, Option.map_some]
  rfl

theorem stateVerdict_of_good {s : State} (h : s.stg.id = s.cfg.motorId ∧ ckValid s = true) :
    stateVerdict s = { s with snap := (commit s).snap, ps := .completed } := by
  obtain ⟨-, -, hverdict⟩ | ⟨hbad, -⟩ := stateVerdict_cases s
  · exact hverdict
  · exact absurd h hbad

theorem stateVerdict_of_bad {s : State} (h : ¬(s.stg.id = s.cfg.motorId ∧ ckValid s = true)) :
    stateVerdict s = { s with ps := .invalid } := if_neg h

theorem pingReplyVerdict_eq (id : Byte) (s : State) :
    pingReplyVerdict id s =
      { s with ps := if id = s.cfg.motorId ∧ ckValid s = true then .completed else .invalid } := by
  obtain ⟨hid, hck, hverdict⟩ | ⟨hbad, hverdict⟩ := pingReplyVerdict_cases id s
  · rw [hverdict, if_pos ⟨hid, hck⟩]
  · rw [hverdict, if_neg hbad]

/-! The obligations. -/

/-- Settles O23, from everything a drain can do. -/
theorem drainAlwaysEnds : Obligations.DrainAlwaysEnds := by
  intro s
  obtain ⟨p, t, hdrain, heffect⟩ := drain_effect s
  exact ⟨p, t, hdrain, heffect.stops, heffect.done.trans (terminal_iff t.ps), heffect.pending, heffect.consumes⟩

/-- Settles O24, by induction on the garbage: each of its bytes is one step that answers `More`. -/
theorem garbageBeforeAFrameIsDiscarded : Obligations.GarbageBeforeAFrameIsDiscarded := by
  intro s garbage rest hps hgarbage hq
  induction garbage generalizing s with
  | nil =>
    rw [List.nil_append] at hq
    rw [← hq]
  | cons b garbage ih =>
    obtain ⟨hb, hgarbage⟩ := List.forall_mem_cons.mp hgarbage
    calc drain s = drain { s with rxq := garbage ++ rest } := drain_of_more (decodeStep_skips_first hps hq hb)
      _ = drain { s with rxq := rest } := ih _ hps hgarbage rfl

/-- Settles O26: `w - 512` fits 24 bits, and dividing by 512 moves the exponent alone. -/
theorem signedCenteredIsExact : Obligations.SignedCenteredIsExact := by
  intro w
  have hsmall : ((w.toNat : Int) - 512).natAbs < 2 ^ 24 := by
    have := w.isLt
    omega
  obtain ⟨hfin, hvalue⟩ := div_source_posScale_exact hsmall
  have hsc : signedCentered Literals.source w =
      Bin32.div (Bin32.toF ((w.toNat : Int) - 512)) Literals.source.posScale := by
    rw [signedCentered, u16, source_posZero]
  have hscale : (512 : Int) * ((2 ^ 140 : Nat) : Int) = 2 ^ 149 := by norm_num
  rw [hsc, hvalue, Int.mul_left_comm, hscale]
  exact ⟨hfin, rfl⟩

/-- Settles O18, rule by rule. -/
theorem syncSearchFollowsItsRules : Obligations.SyncSearchFollowsItsRules := by
  intro s b rest
  have hempty (p : ParseState) (hp : p.terminal = false) (hps : s.ps = p) (hq : s.rxq = []) :
      decodeStep s = some (.pending, s) := decodeStep_of_empty (by rw [hps, hp]) hq
  exact ⟨hempty .awaitFirstSync rfl, decodeStep_skips_first, decodeStep_takes_first, hempty .awaitSecondSync rfl,
    decodeStep_takes_second, decodeStep_falls_back⟩

/-- Settles O19: the body is taken whole, and its verdict is a commit with R150's conversions or the rejection. -/
theorem stateBodyIsCommittedOrRejected : Obligations.StateBodyIsCommittedOrRejected := by
  intro s short rest id ck w0 w1 w2 w3 w4 hps
  constructor
  · intro hq hshort
    have hlen : qLen s < 13 := by rw [qLen, hq]; exact hshort
    rw [decodeStep_of_command hps hq, processCommand_state, if_pos hlen]
  · intro hq
    have hcommand : s.rxq = 0x80 :: ((stateBody id w0 w1 w2 w3 w4 ck).tail ++ rest) := hq
    have hstep := (decodeStep_of_command hps hcommand).trans (processCommand_of_stateBody hq)
    dsimp only
    constructor
    · intro hgood
      rw [hstep, stateVerdict_of_good hgood, commit_snap_conversions]
    · intro hbad
      rw [hstep, stateVerdict_of_bad hbad]

/-- Settles O20: the body is taken whole and judged by identifier and checksum. -/
theorem pingReplyBodyIsJudged : Obligations.PingReplyBodyIsJudged := by
  intro s short rest id ck hps
  constructor
  · intro hq hshort
    have hlen : qLen s < 3 := by rw [qLen, hq]; exact hshort
    rw [decodeStep_of_command hps hq, processCommand_pingReply, if_pos hlen]
  · intro hq
    rw [decodeStep_of_command hps hq, processCommand_of_pingReplyBody hq, pingReplyVerdict_eq]
    rfl

/-- Settles O21, rule by rule. -/
theorem parseEndsAsTheRulesSay : Obligations.ParseEndsAsTheRulesSay := by
  intro s b rest
  refine ⟨fun hps hq => ?_, fun hps hq h80 hE1 => ?_, fun hps => ?_⟩
  · exact decodeStep_of_empty (by rw [hps]; rfl) hq
  · rw [decodeStep_of_command hps hq, processCommand_unknown h80 hE1]
  · exact decodeStep_of_terminal ((terminal_iff s.ps).mpr hps)

end Sys2Proof.Machine
end

section
/-! Proofs of the wait loop family (42_wait_loop.md): silent polls, the poll that brings a frame, and what the loop as a
whole can do. -/

namespace Sys2Proof.Machine

/-! The outcome reads the parse state (R175). -/

theorem classify_eq_success_iff (p : ParseState) : classify p = .success ↔ p = .completed := by
  cases p <;> simp [classify]

theorem classify_eq_invalidFrame_iff (p : ParseState) : classify p = .invalidFrame ↔ p = .invalid := by
  cases p <;> simp [classify]

theorem classify_eq_timeout_iff (p : ParseState) :
    classify p = .timeout ↔ p = .awaitFirstSync ∨ p = .awaitSecondSync ∨ p = .processing := by
  cases p <;> simp [classify]

theorem terminal_of_classify_eq_timeout {p : ParseState} (h : classify p = .timeout) : p.terminal = false := by
  cases p <;> simp [classify, ParseState.terminal] at h ⊢

/-! One poll (20_memory.md R71). -/

/-- A poll at which LINE has nothing to append. -/
theorem poll_of_silent {s : State} (h : s.lineChunks.head?.getD [] = []) :
    poll s = { s with lineChunks := s.lineChunks.tail } := by
  have hchunk : pollChunk s = [] := List.prefix_nil.mp (h ▸ pollChunk_prefix s)
  rw [poll, hchunk, List.append_nil]

/-- A poll whose chunk finds room. -/
theorem poll_of_hasRoom {s : State} {chunk : List Byte} {later : List (List Byte)}
    (hchunks : s.lineChunks = chunk :: later) (hroom : HasRoom s chunk.length) :
    poll s = { s with rxq := s.rxq ++ chunk, lineChunks := later } := by
  rw [poll, pollChunk_of_hasRoom hchunks hroom, hchunks, List.tail_cons]

/-! Silent polls (R180). -/

/-- Of what LINE holds for the coming polls, the first `polls` chunks are empty. -/
def SilentFor (polls : Nat) (chunks : List (List Byte)) : Prop := ∀ chunk ∈ chunks.take polls, chunk = []

theorem SilentFor.of_le {m n : Nat} {chunks : List (List Byte)} (h : SilentFor n chunks) (hmn : m ≤ n) :
    SilentFor m chunks :=
  fun chunk hmem => h chunk (List.take_subset_take_left _ hmn hmem)

theorem SilentFor.drop {m n : Nat} {chunks : List (List Byte)} (h : SilentFor (n + m) chunks) :
    SilentFor n (chunks.drop m) := by
  intro chunk hmem
  rw [List.take_drop, Nat.add_comm] at hmem
  exact h chunk (List.mem_of_mem_drop hmem)

theorem SilentFor.head {polls : Nat} {chunks : List (List Byte)} (h : SilentFor (polls + 1) chunks) :
    chunks.head?.getD [] = [] := by
  cases chunks with
  | nil => rfl
  | cons chunk later => exact h chunk List.mem_cons_self

theorem silentFor_replicate_append (k : Nat) (rest : List (List Byte)) :
    SilentFor k (List.replicate k [] ++ rest) := by
  intro chunk hmem
  rw [List.take_left' List.length_replicate] at hmem
  exact List.eq_of_mem_replicate hmem

section
variable {s : State}

/-- A silent poll of an empty queue leaves the drain waiting. -/
theorem drain_poll_of_silent (hps : s.ps.terminal = false) (hq : s.rxq = [])
    (hsilent : s.lineChunks.head?.getD [] = []) :
    drain (poll s) = some (.pending, { s with lineChunks := s.lineChunks.tail }) := by
  rw [poll_of_silent hsilent]
  exact drain_of_empty hps hq

/-- Silent polls of an empty queue are waited out one by one, and change nothing else. -/
theorem waitLoop_of_silentFor (k left : Nat) (hps : s.ps.terminal = false) (hq : s.rxq = [])
    (hsilent : SilentFor k s.lineChunks) :
    waitLoop (left + k) s =
      waitLoop left { s with elapsed := s.elapsed + k, lineChunks := s.lineChunks.drop k } := by
  induction k generalizing s with
  | zero => rfl
  | succ k ih =>
    have hpoll := drain_poll_of_silent hps hq hsilent.head
    calc waitLoop (left + k + 1) s
        = waitLoop (left + k) { s with elapsed := s.elapsed + 1, lineChunks := s.lineChunks.tail } :=
          waitLoop_of_pending hpoll
      _ = waitLoop left
            { s with elapsed := s.elapsed + 1 + k, lineChunks := s.lineChunks.tail.drop k } :=
          ih (s := { s with elapsed := s.elapsed + 1, lineChunks := s.lineChunks.tail }) hps hq
            (List.drop_one ▸ hsilent.drop)
      _ = _ := by rw [List.drop_tail, Nat.add_assoc, Nat.add_comm 1 k]

end

/-! The poll that brings a frame (R173). -/

section
variable {s : State} {later : List (List Byte)} {id ck cmd : Byte} {w0 w1 w2 w3 w4 : Word}

/-- A frame that finds room behind a queue without sync bytes is parsed from its body on (41_rx_decoder.md R142,
R165). -/
theorem drain_poll_of_framed {body : List Byte} (hps : s.ps = .awaitFirstSync) (hq : ∀ b ∈ s.rxq, b ≠ 0xFF)
    (hchunks : s.lineChunks = framed body :: later) (hroom : HasRoom s (framed body).length) :
    drain (poll s) =
      drain
        { s with
          ps := .processing, rxq := body, ckAcc := ckBodyStart (ckOf s.cfg.ck), lineChunks := later } := by
  rw [poll_of_hasRoom hchunks hroom]
  calc drain { s with rxq := s.rxq ++ framed body, lineChunks := later }
      = drain { s with rxq := framed body, lineChunks := later } :=
        garbageBeforeAFrameIsDiscarded _ s.rxq (framed body) hps hq rfl
    _ = _ := drain_of_sync_pair hps rfl

/-- The state in which a `STATE` body has been taken, before its verdict. -/
def stateTaken (s : State) (id : Byte) (w0 w1 w2 w3 w4 : Word) (ck : Byte) : State :=
  { s with
    rxq := []
    ckAcc := ckFeedAll (ckOf s.cfg.ck) (ckBodyStart (ckOf s.cfg.ck)) (stateBody id w0 w1 w2 w3 w4 ck)
    stg := { id := id, w0 := w0, w1 := w1, w2 := w2, w3 := w3, w4 := w4 } }

/-- A `STATE` frame is taken whole and judged (R149). -/
theorem drain_poll_of_stateFrame (hps : s.ps = .awaitFirstSync) (hq : ∀ b ∈ s.rxq, b ≠ 0xFF)
    (hchunks : s.lineChunks = framed (stateBody id w0 w1 w2 w3 w4 ck) :: later) (hroom : HasRoom s 15) :
    drain (poll s) =
      some (.done, stateVerdict
        { stateTaken s id w0 w1 w2 w3 w4 ck with ps := .processing, lineChunks := later }) := by
  rw [drain_poll_of_framed hps hq hchunks hroom]
  exact drain_of_ne_more
    ((decodeStep_of_command rfl rfl).trans (processCommand_of_stateBody (List.append_nil _).symm)) nofun

/-- A `STATE` frame of this motor whose checksum validates is committed (R151). -/
theorem drain_poll_of_good_stateFrame (hps : s.ps = .awaitFirstSync) (hq : ∀ b ∈ s.rxq, b ≠ 0xFF)
    (hchunks : s.lineChunks = framed (stateBody id w0 w1 w2 w3 w4 ck) :: later) (hroom : HasRoom s 15)
    (hgood : id = s.cfg.motorId ∧ ckValid (stateTaken s id w0 w1 w2 w3 w4 ck) = true) :
    drain (poll s) =
      some (.done,
        { stateTaken s id w0 w1 w2 w3 w4 ck with
          ps := .completed
          lineChunks := later
          snap :=
            { s.snap with
              position := newPosition s.cfg.lit s.dir w0
              current := newCurrent s.cfg w1
              backEmfVoltage := newBackEmf s.cfg.lit w2
              supplyVoltage := newSupply s.cfg w3
              temperatureC := newTemperature s.cfg.lit w4 } }) := by
  rw [drain_poll_of_stateFrame hps hq hchunks hroom, stateVerdict_of_good hgood, commit_snap]
  simp only [stateTaken]

/-- Any other `STATE` frame is rejected (R152). -/
theorem drain_poll_of_bad_stateFrame (hps : s.ps = .awaitFirstSync) (hq : ∀ b ∈ s.rxq, b ≠ 0xFF)
    (hchunks : s.lineChunks = framed (stateBody id w0 w1 w2 w3 w4 ck) :: later) (hroom : HasRoom s 15)
    (hbad : ¬(id = s.cfg.motorId ∧ ckValid (stateTaken s id w0 w1 w2 w3 w4 ck) = true)) :
    drain (poll s) =
      some (.done, { stateTaken s id w0 w1 w2 w3 w4 ck with ps := .invalid, lineChunks := later }) := by
  rw [drain_poll_of_stateFrame hps hq hchunks hroom, stateVerdict_of_bad hbad]

/-- A `PINGREPLY` frame is taken whole and judged (R153, R154). -/
theorem drain_poll_of_pingReplyFrame (hps : s.ps = .awaitFirstSync) (hq : ∀ b ∈ s.rxq, b ≠ 0xFF)
    (hchunks : s.lineChunks = framed (pingReplyBody id ck) :: later) (hroom : HasRoom s 5) :
    let a := ckFeedAll (ckOf s.cfg.ck) (ckBodyStart (ckOf s.cfg.ck)) (pingReplyBody id ck)
    drain (poll s) =
      some (.done,
        { s with
          ps := if id = s.cfg.motorId ∧ (ckOf s.cfg.ck).valid a = true then .completed else .invalid
          rxq := []
          ckAcc := a
          lineChunks := later }) := by
  rw [drain_poll_of_framed hps hq hchunks hroom, drain_of_pingReply_body rfl rfl, pingReplyVerdict_eq]
  rfl

/-- An unrecognised command byte ends the parse and stays in the queue (R155). -/
theorem drain_poll_of_unknownFrame (hps : s.ps = .awaitFirstSync) (hq : ∀ b ∈ s.rxq, b ≠ 0xFF)
    (hchunks : s.lineChunks = framed [cmd] :: later) (hroom : HasRoom s 3) (h80 : cmd ≠ 0x80) (hE1 : cmd ≠ 0xE1) :
    drain (poll s) =
      some (.done,
        { s with ps := .invalid, rxq := [cmd], ckAcc := ckBodyStart (ckOf s.cfg.ck), lineChunks := later }) := by
  rw [drain_poll_of_framed hps hq hchunks hroom]
  exact drain_of_unknown_command rfl rfl h80 hE1

end

/-! The wait as a whole. -/

/-- A wait at its poll `k`, when the polls before it have brought nothing (R174, R180). -/
def atPoll (k : Nat) (s : State) : State :=
  { startWait s with elapsed := k, lineChunks := s.lineChunks.drop k }

theorem waitResponse_of_silentFor {timeout k : Nat} {s : State} (hk : k ≤ timeout) (hq : s.rxq = [])
    (hsilent : SilentFor k s.lineChunks) :
    waitResponse timeout s = (waitLoop (timeout - k) (atPoll k s)).map fun t => (classify t.ps, t) := by
  have hskip := waitLoop_of_silentFor (s := startWait s) k (timeout - k) rfl hq hsilent
  rw [Nat.sub_add_cancel hk, startWait_elapsed, Nat.zero_add, startWait_lineChunks] at hskip
  rw [waitResponse, hskip, atPoll]

/-- A chunk after `k` empty ones that ends the parse ends the wait, within the budget (R173). -/
theorem waitResponse_of_done_at_poll {timeout k : Nat} {s t : State} {chunk : List Byte} {later : List (List Byte)}
    (hk : k ≤ timeout) (hq : s.rxq = []) (hchunks : s.lineChunks = List.replicate k [] ++ chunk :: later)
    (hdone : drain (poll (atPoll k s)) = some (.done, t)) : waitResponse timeout s = some (classify t.ps, t) := by
  rw [waitResponse_of_silentFor hk hq (hchunks ▸ silentFor_replicate_append k _), waitLoop_of_done hdone,
    Option.map_some]

theorem atPoll_lineChunks {k : Nat} {s : State} {chunks : List (List Byte)}
    (h : s.lineChunks = List.replicate k [] ++ chunks) : (atPoll k s).lineChunks = chunks := by
  rw [atPoll, h, List.drop_left' List.length_replicate]

theorem formatOf_of_encode_rxf {i : Instr} {bytes : List Byte} (h : encode i = .rxf bytes) : formatOf i = .rxf := by
  cases i <;> simp only [encode, reduceCtorEq] at h <;> rfl

/-! The obligations. -/

/-- Settles O27, from everything a wait loop can do, started with `ELAPSED` 0. -/
theorem waitEndsWithinItsBudget : Obligations.WaitEndsWithinItsBudget := by
  intro timeout s
  obtain ⟨t, hwait, heffect⟩ := waitResponse_effect timeout s
  have hbudget := heffect.elapsed_le
  have hexhausted := heffect.exhausted
  have hpolls := heffect.polls
  have hstream := heffect.stream
  simp only [startWait_elapsed, Nat.zero_add, Nat.sub_zero, startWait_lineChunks, startWait_cfg, startWait_rxq]
    at hbudget hexhausted hpolls hstream
  exact ⟨classify t.ps, t, hwait, classify_eq_success_iff t.ps, classify_eq_invalidFrame_iff t.ps,
    classify_eq_timeout_iff t.ps, hbudget, fun htimeout => hexhausted (terminal_of_classify_eq_timeout htimeout),
    hpolls, (OnlyReceives.startWait s).trans heffect.receives, hstream, fun cap hcap => heffect.room cap hcap⟩

/-- Settles O28: the polls before the last are waited out, and at the last one the drain waits with no budget left. -/
theorem silenceTimesOut : Obligations.SilenceTimesOut := by
  intro timeout s hq hchunks
  have hsilent : SilentFor (1 + timeout) s.lineChunks := Nat.add_comm timeout 1 ▸ hchunks
  have hlast := drain_poll_of_silent (s := atPoll timeout s) rfl hq hsilent.drop.head
  rw [waitResponse_of_silentFor le_rfl hq (hsilent.of_le (Nat.le_add_left timeout 1)), Nat.sub_self, waitLoop, hlast,
    atPoll, List.tail_drop]
  rfl

/-- Settles O29: `k` silent polls are waited out, the next one brings the frame, and taking it leaves the queue empty
as it was. -/
theorem replyAtPollKEndsTheWait : Obligations.ReplyAtPollKEndsTheWait := by
  intro timeout k s ck w0 w1 w2 w3 w4 later hk hq
  have hnosync : ∀ b ∈ s.rxq, b ≠ 0xFF := by simp [hq]
  constructor
  · intro hroom hchunks hvalid
    have hdone := drain_poll_of_pingReplyFrame (s := atPoll k s) rfl hnosync (atPoll_lineChunks hchunks) hroom
    rw [waitResponse_of_done_at_poll hk hq hchunks hdone, if_pos ⟨rfl, hvalid⟩, ← hq]
    rfl
  · intro hroom hchunks hvalid
    have hdone := drain_poll_of_good_stateFrame (s := atPoll k s) rfl hnosync (atPoll_lineChunks hchunks) hroom
      ⟨rfl, hvalid⟩
    rw [waitResponse_of_done_at_poll hk hq hchunks hdone, stateTaken, ← hq]
    rfl

/-- Settles O22: a row is the reception of its bytes, which always answers; behind a queue without sync bytes the poll
brings the frame, and its drain ends the parse. -/
theorem inboundRowsRunTheDecoder : Obligations.InboundRowsRunTheDecoder := by
  constructor
  · intro s i bytes hencode
    obtain ⟨bytes', hencode', hexec⟩ := exec_of_rxf (formatOf_of_encode_rxf hencode) s
    obtain rfl : bytes = bytes' := by simpa using hencode.symm.trans hencode'
    obtain ⟨t, hnext, hwait, -⟩ := receive_effect bytes s
    exact ⟨_, t, hwait, hexec.trans hnext⟩
  · intro s id ck cmd w0 w1 w2 w3 w4 hq
    refine ⟨fun hroom hgood => ?_, fun hroom hbad => ?_, fun hroom => ?_, fun hroom h80 hE1 => ?_⟩
    · exact receive_of_done (drain_poll_of_good_stateFrame rfl hq rfl hroom hgood)
    · exact receive_of_done (drain_poll_of_bad_stateFrame rfl hq rfl hroom hbad)
    · exact receive_of_done (drain_poll_of_pingReplyFrame rfl hq rfl hroom)
    · exact receive_of_done (drain_poll_of_unknownFrame rfl hq rfl hroom h80 hE1)

end Sys2Proof.Machine
end

section
/-! Proofs of the control law family (43_control_law.md): what an evaluation answers, mode by mode in the terms of the
pseudocode, and the arithmetic behind the bounds and the bumpless re-entry of csl. -/

namespace Sys2Proof.Machine.Bin32

/-! Zero, and the clamp of a number already between its bounds. -/

/-- The literal 0.0 is the number whose bits are all zero. -/
theorem decimal_zero : decimal 0 1 = 0 := by decide

theorem rounded_zero {neg : Bool} {den : Nat} {other : F} (hden : 0 < den) :
    rounded neg 0 den other = pack neg 0 := by
  have hbits := roundBits_zero hden
  rw [rounded_eq_pack (by rw [hbits]; decide), hbits]

/-- A number and its negation cancel to +0.0, of whatever sign they are. -/
theorem add_neg_self {x : F} (hx : isFinite x = true) : add (neg x) x = 0 := by
  have hvalue : value (neg x) + value x = 0 := by rw [value_neg, Int.add_left_neg]
  have hsign : (sign (neg x) && sign x) = false := by rw [sign_neg, Bool.not_and_self]
  have hfin : (isFinite (neg x) && isFinite x) = true := by rw [isFinite_neg, hx, Bool.and_self]
  simp only [add, hfin, hvalue, hsign, if_true]
  exact rounded_zero Nat.one_pos

/-- A non-negative number times +0.0 is +0.0. -/
theorem mul_zero_of_sign {c : F} (hc : isFinite c = true) (hsign : sign c = false) : mul c 0 = 0 := by
  have hbits : roundBits (units c * units 0) (2 ^ 149) = 0 := by
    rw [show units 0 = 0 by decide, Nat.mul_zero, roundBits_zero (Nat.two_pow_pos 149)]
  rw [mul_eq_pack hc (by decide) (by rw [hbits]; decide), hbits, hsign]
  decide

/-- A factor of magnitude at most 1 keeps a product in range. -/
theorem roundBits_mul_lt_infBits {c x : F} (hc : units c ≤ 2 ^ 149) (hx : isFinite x = true) :
    roundBits (units c * units x) (2 ^ 149) < infBits := by
  have hself : roundBits (units x * 2 ^ 149) (1 * 2 ^ 149) = magBits x := by
    rw [roundBits_mul _ _ _ (Nat.two_pow_pos 149), units_eq, roundBits_unitsOf]
  calc roundBits (units c * units x) (2 ^ 149)
      ≤ roundBits (units x * 2 ^ 149) (1 * 2 ^ 149) := by
        rw [Nat.one_mul, Nat.mul_comm (units x)]
        exact roundBits_mono (Nat.two_pow_pos 149) (Nat.mul_le_mul_right _ hc)
    _ = magBits x := hself
    _ < infBits := (isFinite_iff x).mp hx

theorem le_of_le_of_le {a b c : F} (hab : le a b = true) (hbc : le b c = true) : le a c = true := by
  rw [le_iff] at *
  exact ⟨hab.1, hbc.2.1, hab.2.2.trans hbc.2.2⟩

/-- A clamp changes nothing between its bounds (00_scope.md R16). -/
theorem clamp_eq_self {x lo hi : F} (hlo : le lo x = true) (hhi : le x hi = true) : clamp x lo hi = x := by
  rw [clamp_of_le (le_of_le_of_le hlo hhi), not_lt_of_le hhi, not_lt_of_le hlo, if_neg Bool.false_ne_true,
    if_neg Bool.false_ne_true]

end Sys2Proof.Machine.Bin32

namespace Sys2Proof.Machine

/-! One evaluation, in the terms of the pseudocode (R185). -/

/-- `CTRL` after an evaluation in the mode `m`: the integral outside `Position` and the filter outside csl are reset
(R189 to R195). -/
def lawCtrl (s : State) (m : Mode) : Ctrl :=
  match m with
  | .disabled | .voltage => { s.ctrl with integralError := Bin32.decimal 0 1, z := lawTrack s }
  | .position =>
    let e := Bin32.sub s.ctrl.targetPosition s.snap.position
    { s.ctrl with
      integralError := Bin32.clamp (Bin32.add s.ctrl.integralError e) s.ctrl.limitLow s.ctrl.limitHigh
      targetVoltage := Bin32.mul s.ctrl.proportionalGain e
      z := lawTrack s }
  | .currentShapingLimiter =>
    let u := Bin32.clamp (lawSum s) s.ctrl.limitLow s.ctrl.limitHigh
    { s.ctrl with
      integralError := Bin32.decimal 0 1
      z := Bin32.add (lawTrack s) (Bin32.mul (lawGf s) u)
      targetVoltage := Bin32.mul s.cfg.lit.cslOutGain u }

/-- The state after an evaluation: the safety disable chooses the mode, and the mode chooses the law. -/
def lawState (s : State) : State :=
  { s with mode := disabledMode s, ctrl := lawCtrl s (disabledMode s), result := .none }

/-- The evaluator runs the law of its mode: the Position part leaves alone what the csl part reads. -/
theorem evalControl_ctrl_eq_lawCtrl (s : State) : (evalControl s).ctrl = lawCtrl s (disabledMode s) := by
  rw [evalControl_ctrl]
  cases disabledMode s <;> simp only [lawCtrl, Bin32.decimal_zero] <;> rfl

theorem exec_evalctrl_of_limitsOrdered {s : State} (h : LimitsOrdered s) :
    exec .evalctrl s = .next (lawState s) := by
  have hexec : exec .evalctrl s = .next { evalControl s with result := .none } := if_pos h
  rw [hexec, lawState, ← evalControl_ctrl_eq_lawCtrl]
  rfl

theorem exec_evalctrl_of_not_limitsOrdered {s : State} (h : ¬LimitsOrdered s) :
    exec .evalctrl s = .refused .limitsInverted :=
  if_neg h

/-- An evaluation that goes on had ordered limits (R186), and went to `lawState`. -/
theorem exec_evalctrl_next {s t : State} (h : exec .evalctrl s = .next t) : LimitsOrdered s ∧ t = lawState s := by
  by_cases hord : LimitsOrdered s
  · rw [exec_evalctrl_of_limitsOrdered hord] at h
    cases h
    exact ⟨hord, rfl⟩
  · rw [exec_evalctrl_of_not_limitsOrdered hord] at h
    cases h

@[simp] theorem lawState_mode (s : State) : (lawState s).mode = disabledMode s := rfl

@[simp] theorem lawState_ctrl (s : State) : (lawState s).ctrl = lawCtrl s (disabledMode s) := rfl

theorem disabledMode_of_beyond {s : State} (h : BeyondDisableAngle s) : disabledMode s = .disabled := if_pos h

theorem disabledMode_of_not_beyond {s : State} (h : ¬BeyondDisableAngle s) : disabledMode s = s.mode := if_neg h

/-- Inside the angle an evaluation keeps the mode and runs its law. -/
theorem lawState_of_not_beyond {s : State} (h : ¬BeyondDisableAngle s) :
    lawState s = { s with ctrl := lawCtrl s s.mode, result := .none } := by
  rw [lawState, disabledMode_of_not_beyond h]

/-- Whatever the mode, its law writes three registers at most (R197 (f)). -/
theorem lawCtrl_touches (s : State) (m : Mode) :
    lawCtrl s m =
      { s.ctrl with
        targetVoltage := (lawCtrl s m).targetVoltage
        integralError := (lawCtrl s m).integralError
        z := (lawCtrl s m).z } := by
  cases m <;> rfl

theorem lawCtrl_integralError_of_ne {m : Mode} (h : m ≠ .position) (s : State) :
    (lawCtrl s m).integralError = Bin32.decimal 0 1 := by
  cases m with
  | position => exact absurd rfl h
  | disabled => rfl
  | voltage => rfl
  | currentShapingLimiter => rfl

theorem lawCtrl_z_of_ne {m : Mode} (h : m ≠ .currentShapingLimiter) (s : State) : (lawCtrl s m).z = lawTrack s := by
  cases m with
  | currentShapingLimiter => exact absurd rfl h
  | disabled => rfl
  | voltage => rfl
  | position => rfl

/-! The output gain 0.75 (R194), and a filter that sits on `gi * p`. -/

theorem isFinite_source_cslOutGain : Bin32.isFinite Literals.source.cslOutGain = true := by decide

theorem sign_source_cslOutGain : Bin32.sign Literals.source.cslOutGain = false := by decide

theorem units_source_cslOutGain_le : Bin32.units Literals.source.cslOutGain ≤ 2 ^ 149 := by decide

/-- Scaling by 0.75 keeps the order of finite numbers, and none of them leaves the range. -/
theorem mul_cslOutGain_le {x y : F} (hx : Bin32.isFinite x = true) (hy : Bin32.isFinite y = true)
    (h : Bin32.le x y = true) :
    Bin32.le (Bin32.mul Literals.source.cslOutGain x) (Bin32.mul Literals.source.cslOutGain y) = true :=
  Bin32.mul_le_mul_left isFinite_source_cslOutGain sign_source_cslOutGain hx hy
    (Bin32.roundBits_mul_lt_infBits units_source_cslOutGain_le hx)
    (Bin32.roundBits_mul_lt_infBits units_source_cslOutGain_le hy) h

/-- The one-sided clamps pull `z` towards `gi * p`, and leave it there (R192). -/
theorem lawFilter_of_tracking {s : State} (h : s.ctrl.z = lawTrack s) : lawFilter s = lawTrack s := by
  simp only [lawFilter, h, Bin32.fmin, Bin32.fmax, ite_self]

/-- Where the filter sits on `gi * p`, the csl law commands zero voltage (R195). -/
theorem lawCtrl_csl_targetVoltage_of_tracking {s : State} (hlit : SourceLiterals s.cfg) (hz : s.ctrl.z = lawTrack s)
    (hfin : Bin32.isFinite (lawTrack s) = true) (hlo : Bin32.le s.ctrl.limitLow 0 = true)
    (hhi : Bin32.le 0 s.ctrl.limitHigh = true) : (lawCtrl s .currentShapingLimiter).targetVoltage = 0 := by
  have hsum : lawSum s = 0 := by rw [lawSum, lawFilter_of_tracking hz, Bin32.add_neg_self hfin]
  rw [SourceLiterals] at hlit
  simp only [lawCtrl, hsum, Bin32.clamp_eq_self hlo hhi, hlit]
  exact Bin32.mul_zero_of_sign isFinite_source_cslOutGain sign_source_cslOutGain

/-! The next evaluation reads what the last one left: selector, gains, position, limits and angle are the same. -/

section
variable (s : State) (m : Mode)

theorem lawTrack_after_evaluation : lawTrack { lawState s with mode := m } = lawTrack s := by
  rw [lawState, lawCtrl_touches]
  rfl

theorem limitsOrdered_after_evaluation : LimitsOrdered { lawState s with mode := m } ↔ LimitsOrdered s := by
  rw [lawState, lawCtrl_touches]
  rfl

theorem beyondDisableAngle_after_evaluation :
    BeyondDisableAngle { lawState s with mode := m } ↔ BeyondDisableAngle s := by
  rw [lawState, lawCtrl_touches]
  rfl

theorem lawState_limitLow : (lawState s).ctrl.limitLow = s.ctrl.limitLow := by
  rw [lawState_ctrl, lawCtrl_touches]

theorem lawState_limitHigh : (lawState s).ctrl.limitHigh = s.ctrl.limitHigh := by
  rw [lawState_ctrl, lawCtrl_touches]

end

/-! The obligations. -/

/-- Settles O44: the mode is that of the safety disable, and the law of the mode writes three registers of `CTRL`. -/
theorem evalctrlTouchesFourRegisters : Obligations.EvalctrlTouchesFourRegisters := by
  intro s
  refine ⟨exec_evalctrl_of_not_limitsOrdered, fun hord => ?_⟩
  refine ⟨disabledMode s, (lawState s).ctrl.targetVoltage, (lawState s).ctrl.integralError, (lawState s).ctrl.z,
    (disabledMode_cases s).symm.imp_right And.right, ?_⟩
  rw [lawState_ctrl, ← lawCtrl_touches, exec_evalctrl_of_limitsOrdered hord, lawState]

/-- Settles O45: beyond the angle the law of `Disabled` runs, whatever the mode was. -/
theorem safetyDisableForcesDisabled : Obligations.SafetyDisableForcesDisabled := by
  intro s hord hbeyond
  rw [exec_evalctrl_of_limitsOrdered hord, lawState, disabledMode_of_beyond hbeyond, lawCtrl]

/-- Settles O46: the two modes have one law, which computes no voltage. -/
theorem voltageAndDisabledKeepTheTarget : Obligations.VoltageAndDisabledKeepTheTarget := by
  intro s hord hinside hmode
  rw [exec_evalctrl_of_limitsOrdered hord, lawState_of_not_beyond hinside]
  obtain hvoltage | hdisabled := hmode
  · rw [hvoltage, lawCtrl]
  · rw [hdisabled, lawCtrl]

/-- Settles O47: inside the angle the evaluation runs the law of the mode it found, here that of `Position`. -/
theorem positionLawIsProportional : Obligations.PositionLawIsProportional := by
  intro s hord hinside hmode
  rw [exec_evalctrl_of_limitsOrdered hord, lawState_of_not_beyond hinside, hmode, lawCtrl]

/-- Settles O48: as for `Position`, with the source's 0.75 for the output gain of csl. -/
theorem cslLawFollowsItsRules : Obligations.CslLawFollowsItsRules := by
  intro s hlit hord hinside hmode
  rw [SourceLiterals] at hlit
  rw [exec_evalctrl_of_limitsOrdered hord, lawState_of_not_beyond hinside, hmode, lawCtrl, hlit, source_cslOutGain]

/-- Settles O49: every law but that of `Position` zeroes the integral, every law but that of csl re-seeds the filter. -/
theorem inactiveMemoryIsReset : Obligations.InactiveMemoryIsReset := by
  intro s t h
  obtain ⟨-, rfl⟩ := exec_evalctrl_next h
  exact ⟨fun hmode => lawCtrl_integralError_of_ne hmode s, fun hmode => lawCtrl_z_of_ne hmode s⟩

/-- Settles O50: the integral of the Position law is clamped between limits that the evaluation found ordered. -/
theorem integralStaysWithinLimits : Obligations.IntegralStaysWithinLimits := by
  intro s t h hmode hnan
  obtain ⟨hord, rfl⟩ := exec_evalctrl_next h
  rw [lawState_mode] at hmode
  rw [lawState_ctrl, hmode, lawCtrl]
  exact Bin32.clamp_mem hord hnan

/-- Settles O51: the control value lies between the limits, and scaling by 0.75 keeps the order. -/
theorem cslVoltageStaysWithinLimits : Obligations.CslVoltageStaysWithinLimits := by
  intro s t hlit h hmode hflo hfhi hnan
  obtain ⟨hord, rfl⟩ := exec_evalctrl_next h
  rw [SourceLiterals] at hlit
  rw [lawState_mode] at hmode
  rw [lawState_ctrl, hmode, lawCtrl, hlit, ← source_cslOutGain]
  obtain ⟨hlo, hhi⟩ := Bin32.clamp_mem hord hnan
  have hfin := Bin32.isFinite_of_le_of_le hlo hhi hflo hfhi
  exact ⟨mul_cslOutGain_le hflo hfin hlo, mul_cslOutGain_le hfin hfhi hhi⟩

/-- Settles O52: the first evaluation leaves the filter on `gi * p`, so that the control value of the second one is
zero. -/
theorem reenteringCslDoesNotKick : Obligations.ReenteringCslDoesNotKick := by
  intro s t hlit h hmode hinside hfin hlo hhi
  obtain ⟨hord, rfl⟩ := exec_evalctrl_next h
  rw [Bin32.decimal_zero] at hlo hhi ⊢
  have hord' := (limitsOrdered_after_evaluation s .currentShapingLimiter).mpr hord
  have hinside' := (beyondDisableAngle_after_evaluation s .currentShapingLimiter).not.mpr hinside
  have htrack := lawTrack_after_evaluation s .currentShapingLimiter
  refine ⟨_, exec_evalctrl_of_limitsOrdered hord', disabledMode_of_not_beyond hinside', ?_⟩
  rw [lawState_of_not_beyond hinside']
  refine lawCtrl_csl_targetVoltage_of_tracking hlit ?_ (by rw [htrack, hfin]) ?_ ?_
  · rw [htrack]
    exact lawCtrl_z_of_ne hmode s
  · rw [lawState_limitLow, hlo]
  · rw [lawState_limitHigh, hhi]

end Sys2Proof.Machine
end

section
/-! Proofs of the statistics family (44_statistics.md): what one update does to the record, which instructions write
it, and the facts of R215. -/

namespace Sys2Proof.Machine

/-! One update (R211). -/

section

variable (lit : Literals) (elapsed : Nat) (timedOut invalid : Bool) (r : Stat)

theorem statsUpdate_errorCount_ge : r.errorCount ≤ (statsUpdate lit elapsed timedOut invalid r).errorCount := by
  cases invalid with
  | false => exact le_rfl
  | true => exact Nat.le_succ _

theorem statsUpdate_timeoutCount_ge : r.timeoutCount ≤ (statsUpdate lit elapsed timedOut invalid r).timeoutCount := by
  cases timedOut with
  | false => exact le_rfl
  | true => exact Nat.le_succ _

theorem statsUpdate_maxResponseTimeMicros_ge :
    r.maxResponseTimeMicros ≤ (statsUpdate lit elapsed timedOut invalid r).maxResponseTimeMicros :=
  le_max_left _ _

theorem statsUpdate_last_le_max :
    (statsUpdate lit elapsed timedOut invalid r).lastResponseTimeMicros ≤
      (statsUpdate lit elapsed timedOut invalid r).maxResponseTimeMicros :=
  le_max_right _ _

end

/-- The cycle succeeded exactly when it is not faulted (R213). -/
theorem finishCycle_faulted_eq_false_iff (o : WaitOutcome) (s : State) :
    (finishCycle o s).stat.faulted = false ↔ o = .success := by
  cases o with
  | success => exact iff_of_true rfl rfl
  | timeout => exact iff_of_false nofun nofun
  | invalidFrame => exact iff_of_false nofun nofun

/-- A cycle counts a failure once, as an error or as a timeout (R213). -/
theorem finishCycle_failures (o : WaitOutcome) (s : State) :
    (finishCycle o s).stat.errorCount + (finishCycle o s).stat.timeoutCount =
      s.stat.errorCount + s.stat.timeoutCount + (if (finishCycle o s).stat.faulted then 1 else 0) := by
  cases o with
  | success => rfl
  | timeout => rfl
  | invalidFrame => exact Nat.add_right_comm _ _ _

/-! Who writes the record (R215 (e)). -/

/-- A send that raises leaves the connection lost (40_tx_encoder.md R128). -/
theorem connLost_of_sendFrame_lost {bytes : List Byte} {s t : State} (h : sendFrame bytes s = .lost t) :
    t.connLost = true := by
  obtain ⟨n, -, ⟨-, hsend⟩ | ⟨-, hsend⟩⟩ := sendFrame_cases bytes s
  · rw [hsend] at h
    cases h
  · rw [hsend] at h
    cases h
    rfl

/-- The record up to the end of a line operation: a send that raises, and the wait after one that does not, leave it
alone, and the wait stays within its budget. -/
theorem lineOperation_stat {bytes : List Byte} {timeout : Nat} {finish : WaitOutcome → State → State} {s t : State}
    (h : lineOperation bytes timeout finish s = .next t) :
    (t.connLost = true ∧ t.stat = s.stat) ∨
      ∃ w, w.stat = s.stat ∧ w.elapsed ≤ timeout ∧ t = finish (classify w.ps) w := by
  obtain ⟨-, hop⟩ | ⟨-, ⟨u, hsend, hop⟩ | ⟨u, w, hsend, hwait, hop⟩⟩ := lineOperation_cases bytes timeout finish s
  · rw [hop] at h
    cases h
  · rw [hop] at h
    cases h
    have htouches := sendFrame_touches bytes s t (.inr hsend)
    exact .inl ⟨connLost_of_sendFrame_lost hsend, by rw [htouches]⟩
  · rw [hop] at h
    cases h
    have hsent := sendFrame_touches bytes s u (.inl hsend)
    have hreceives : w = _ := (OnlyReceives.startWait u).trans hwait.receives
    have hbudget := hwait.elapsed_le
    rw [startWait_elapsed, Nat.zero_add] at hbudget
    exact .inr ⟨w, by rw [hreceives, hsent], hbudget, rfl⟩

theorem exec_ping_stat {timeout : Nat} {s t : State} (h : exec (.ping timeout) s = .next t) : t.stat = s.stat := by
  obtain ⟨-, hstat⟩ | ⟨w, hstat, -, rfl⟩ := lineOperation_stat h
  · exact hstat
  · exact (finishPing_stat _ w).trans hstat

/-- A cycle either loses the connection, or ends its wait within the budget. -/
theorem exec_runcycle_cases {timeout : Nat} {s t : State} (h : exec (.runcycle timeout) s = .next t) :
    (t.connLost = true ∧ t.stat = s.stat) ∨
      ∃ w, w.stat = s.stat ∧ w.elapsed ≤ timeout ∧ t = finishCycle (classify w.ps) w :=
  lineOperation_stat h

theorem exec_rxf_stat {i : Instr} {s t : State} (hi : formatOf i = .rxf) (h : exec i s = .next t) :
    t.stat = s.stat := by
  obtain ⟨bytes, -, hexec⟩ := exec_of_rxf hi s
  obtain ⟨u, hu, -, htouches, -⟩ := receive_effect bytes s
  rw [hexec, hu] at h
  cases h
  rw [htouches]

theorem exec_setter_stat {r : Tunable} {v : F} {s t : State} (h : exec (r.setter v) s = .next t) :
    t.stat = s.stat := by
  rw [exec_setter] at h
  obtain ⟨-, hwrite⟩ | ⟨-, hwrite⟩ := writeNum_cases v (r.put v) s <;> rw [hwrite] at h <;> cases h
  rfl

theorem execSetMode_stat {m : Int} {s t : State} (h : execSetMode m s = .next t) : t.stat = s.stat := by
  unfold execSetMode at h
  split at h <;> cases h
  rfl

theorem execSetDir_stat {d : Int} {s t : State} (h : execSetDir d s = .next t) : t.stat = s.stat := by
  unfold execSetDir at h
  split at h <;> cases h
  rfl

theorem exec_evalctrl_stat {s t : State} (h : exec .evalctrl s = .next t) : t.stat = s.stat := by
  obtain ⟨-, rfl⟩ := exec_evalctrl_next h
  rfl

/-- The host operations that leave the record alone: all but `RUNCYCLE` and `RESETSTATS`. -/
theorem exec_hop_stat {i : Instr} {s t : State} (hi : formatOf i = .hop) (hcycle : ∀ n, i ≠ .runcycle n)
    (hreset : i ≠ .resetstats) (h : exec i s = .next t) : t.stat = s.stat := by
  cases i <;> simp only [formatOf, reduceCtorEq] at hi
  case runcycle n => exact absurd rfl (hcycle n)
  case resetstats => exact absurd rfl hreset
  case ping => exact exec_ping_stat h
  case evalctrl => exact exec_evalctrl_stat h
  case setMode => exact execSetMode_stat h
  case setDir => exact execSetDir_stat h
  case setTargetVoltage => exact exec_setter_stat (r := .targetVoltage) h
  case setTargetPosition => exact exec_setter_stat (r := .targetPosition) h
  case setTargetCslMode => exact exec_setter_stat (r := .targetCslMode) h
  case setTargetCslFeedback => exact exec_setter_stat (r := .targetCslFeedback) h
  case setLimitLow => exact exec_setter_stat (r := .limitLow) h
  case setLimitHigh => exact exec_setter_stat (r := .limitHigh) h
  case setProportionalGain => exact exec_setter_stat (r := .proportionalGain) h
  case setDisableAngle => exact exec_setter_stat (r := .disableAngle) h
  -- the eleven reads and the two records answer the state with a result
  all_goals
    cases h
    rfl

theorem exec_stat_of_ne {i : Instr} {s t : State} (hcycle : ∀ n, i ≠ .runcycle n) (hreset : i ≠ .resetstats)
    (h : exec i s = .next t) : t.stat = s.stat := by
  cases hi : formatOf i with
  | txf =>
    obtain ⟨cmd, payload, -, hexec⟩ := exec_of_txf hi s
    rw [hexec] at h
    cases h
    rfl
  | rxf => exact exec_rxf_stat hi h
  | hop => exact exec_hop_stat hi hcycle hreset h

/-- Everything an instruction that goes on can do to the record. -/
theorem exec_stat_cases {i : Instr} {s t : State} (h : exec i s = .next t) :
    t.stat = s.stat ∨ (i = .resetstats ∧ t.stat = zeroStat) ∨
      ∃ n, i = .runcycle n ∧ t.stat = statsUpdate t.cfg.lit t.elapsed (classify t.ps == .timeout)
        (classify t.ps == .invalidFrame) s.stat := by
  by_cases hreset : i = .resetstats
  · subst hreset
    cases h
    exact .inr (.inl ⟨rfl, rfl⟩)
  by_cases hcycle : ∃ n, i = .runcycle n
  · obtain ⟨n, rfl⟩ := hcycle
    obtain ⟨-, hstat⟩ | ⟨w, hstat, -, rfl⟩ := exec_runcycle_cases h
    · exact .inl hstat
    · refine .inr (.inr ⟨n, rfl, ?_⟩)
      rw [finishCycle_stat, finishCycle_cfg, finishCycle_elapsed, finishCycle_ps, hstat]
  · exact .inl (exec_stat_of_ne (not_exists.mp hcycle) hreset h)

/-- The bound of R215 (c) over one instruction: an update takes the maximum with what it records. -/
theorem exec_keeps_statInv {i : Instr} {s t : State} (hs : StatInv s) (h : exec i s = .next t) : StatInv t := by
  unfold StatInv at *
  obtain hsame | ⟨-, hzero⟩ | ⟨n, -, hupdate⟩ := exec_stat_cases h
  · rw [hsame]
    exact hs
  · rw [hzero]
    exact le_rfl
  · rw [hupdate]
    exact statsUpdate_last_le_max ..

/-! The obligations. -/

/-- Settles O36: the zero record is all zeros, the average's 0.0 among them. -/
theorem resetstatsZeroesTheRecord : Obligations.ResetstatsZeroesTheRecord := by
  intro s
  rw [Bin32.decimal_zero]
  rfl

/-- Settles O37: with the connection up the cycle ended its wait, whose outcome tells both the failure to count and
whether the parse completed. -/
theorem cycleCountsItsOutcome : Obligations.CycleCountsItsOutcome := by
  intro timeout s t h hup
  obtain ⟨hlost, -⟩ | ⟨w, hstat, hbudget, rfl⟩ := exec_runcycle_cases h
  · exact absurd (hlost.symm.trans hup) nofun
  have hfaulted := (finishCycle_faulted_eq_false_iff (classify w.ps) w).trans (classify_eq_success_iff w.ps)
  exact ⟨hstat ▸ finishCycle_failures (classify w.ps) w, hfaulted, rfl, hbudget, rfl⟩

/-- Settles O38: but for `RESETSTATS` the record changes by an update only, which lowers neither a counter nor the
maximum. -/
theorem statisticsOnlyGrow : Obligations.StatisticsOnlyGrow := by
  intro i s t h hreset
  obtain hsame | ⟨hi, -⟩ | ⟨n, hi, hupdate⟩ := exec_stat_cases h
  · rw [hsame]
    exact ⟨fun hne => absurd rfl hne, le_rfl, le_rfl, le_rfl⟩
  · exact absurd hi hreset
  · rw [hupdate]
    exact ⟨fun _ => ⟨n, hi⟩, statsUpdate_errorCount_ge .., statsUpdate_timeoutCount_ge ..,
      statsUpdate_maxResponseTimeMicros_ge ..⟩

/-- Settles O39: fetching leaves the record alone, and every instruction keeps the bound. -/
theorem stepKeepsStatInv : Obligations.StepKeepsStatInv := by
  intro s t hs h
  obtain rfl | ⟨r, i, rows, requests, -, hexec⟩ := step_next_cases h
  · exact hs
  · have hfetched : StatInv { s with frameRows := rows, requests := requests } := hs
    exact exec_keeps_statInv hfetched hexec

end Sys2Proof.Machine
end

section
/-! Proofs of the host operations family (45_host_ops.md): the ways a line operation ends, what the operations that do
not use the line do, and what is refused before anything is executed. -/

namespace Sys2Proof.Machine

/-! The ways a line operation ends (R220 to R224). -/

section

variable {bytes : List Byte} {timeout : Nat} {finish : WaitOutcome → State → State} {s t : State}

/-- The gate (R220). -/
theorem lineOperation_of_connLost (h : s.connLost = true) :
    lineOperation bytes timeout finish s = .refused .connectionLost := if_pos h

/-- A send that raises ends the operation, with no wait (R223). -/
theorem lineOperation_of_sendFrame_lost (hup : s.connLost = false) (hsend : sendFrame bytes s = .lost t) :
    lineOperation bytes timeout finish s = .next t := by
  simp only [lineOperation, hup, hsend, Bool.false_eq_true, if_false]

/-- A frame accepted whole is followed by one wait and the operation's end (R221, R224). -/
theorem lineOperation_of_waitResponse {o : WaitOutcome} (hup : s.connLost = false) (hq : s.txq = [])
    (haccepts : AcceptsAll s bytes.length) (hwait : waitResponse timeout (afterSend bytes s) = some (o, t)) :
    lineOperation bytes timeout finish s = .next (finish o t) := by
  simp only [lineOperation, hup, sendFrame_of_acceptsAll hq haccepts, hwait, Bool.false_eq_true, if_false]

end

theorem AcceptsAll.of_le {s : State} {m n : Nat} (h : AcceptsAll s n) (hmn : m ≤ n) : AcceptsAll s m :=
  fun k hk => hmn.trans (h k hk)

theorem exec_ping (timeout : Nat) (s : State) :
    exec (.ping timeout) s = lineOperation (frame s.cfg 0xE0 []) timeout finishPing s := rfl

/-- A cycle sends `DATAREQ` in `Disabled` mode and the target voltage in every other (R222). -/
theorem cycleFrame_eq_ite (s : State) :
    cycleFrame s =
      if s.mode = .disabled then frame s.cfg 0xC0 [] else encodeSetV s.cfg s.dir s.ctrl.targetVoltage := by
  unfold cycleFrame
  cases s.mode with
  | disabled => rfl
  | voltage => rfl
  | position => rfl
  | currentShapingLimiter => rfl

theorem exec_runcycle (timeout : Nat) (s : State) :
    exec (.runcycle timeout) s =
      lineOperation
        (if s.mode = .disabled then frame s.cfg 0xC0 [] else encodeSetV s.cfg s.dir s.ctrl.targetVoltage)
        timeout finishCycle s := by
  rw [← cycleFrame_eq_ite]
  rfl

/-- A cycle's frame has at most the six bytes of `SETV` (30_encoding.md R94, R95). -/
theorem cycleFrame_length_le (s : State) : (cycleFrame s).length ≤ 6 := by
  obtain ⟨cmd, payload, hkind, hframe⟩ := cycleFrame_kind s
  rw [hframe, frame_length]
  obtain ⟨hlen, -⟩ | ⟨hlen, -⟩ := hkind <;> omega

/-- The six statistics after a wait, by its outcome (44_statistics.md R211, R212). -/
theorem statsUpdate_of_outcome (lit : Literals) (elapsed : Nat) (o : WaitOutcome) (r : Stat) :
    statsUpdate lit elapsed (o == .timeout) (o == .invalidFrame) r =
      { errorCount := r.errorCount + (if o = .invalidFrame then 1 else 0)
        timeoutCount := r.timeoutCount + (if o = .timeout then 1 else 0)
        faulted := decide (o = .timeout ∨ o = .invalidFrame)
        lastResponseTimeMicros := elapsed
        avgResponseTimeMicros :=
          Bin32.add (Bin32.mul lit.emaKeep r.avgResponseTimeMicros) (Bin32.mul lit.emaAlpha (Bin32.toF elapsed))
        maxResponseTimeMicros := max r.maxResponseTimeMicros elapsed } := by
  unfold statsUpdate nextAverage
  cases o with
  | success => rfl
  | timeout => rfl
  | invalidFrame => rfl

/-- Settles O30: the gate, the raise, and the wait that follows a frame of five bytes accepted whole. -/
theorem pingSendsAndWaits : Obligations.PingSendsAndWaits := by
  intro timeout s
  rw [exec_ping]
  refine ⟨lineOperation_of_connLost, fun _ => lineOperation_of_sendFrame_lost, fun hup hq haccepts => ?_⟩
  obtain ⟨t, hwait, heffect⟩ := waitResponse_effect timeout (afterSend (frame s.cfg 0xE0 []) s)
  exact ⟨classify t.ps, t, hwait, (OnlyReceives.startWait _).trans heffect.receives,
    lineOperation_of_waitResponse hup hq haccepts hwait⟩

/-- Settles O31: the gate, the raise, and the wait that follows the cycle's frame accepted whole, from whose outcome
and length the statistics are updated. -/
theorem runcycleSendsWaitsAndCounts : Obligations.RuncycleSendsWaitsAndCounts := by
  intro timeout s
  dsimp only
  rw [exec_runcycle, ← cycleFrame_eq_ite]
  refine ⟨lineOperation_of_connLost, fun _ => lineOperation_of_sendFrame_lost, fun hup hq haccepts => ?_⟩
  obtain ⟨t, hwait, heffect⟩ := waitResponse_effect timeout (afterSend (cycleFrame s) s)
  have hreceives : OnlyReceives (afterSend (cycleFrame s) s) t :=
    (OnlyReceives.startWait _).trans heffect.receives
  have hcfg : t.cfg = s.cfg := by rw [hreceives]; rfl
  have hstat : t.stat = s.stat := by rw [hreceives]; rfl
  refine ⟨classify t.ps, t, hwait, hreceives, ?_⟩
  rw [lineOperation_of_waitResponse hup hq haccepts hwait, ← hcfg, ← hstat, ← statsUpdate_of_outcome, finishCycle]

/-- Settles O32: a partial send raises, and the raise is the whole of the operation. -/
theorem partialSendRaisesConnectionLost : Obligations.PartialSendRaisesConnectionLost := by
  intro timeout n s hup hq hn
  dsimp only
  rw [exec_ping, exec_runcycle]
  refine ⟨fun hlt => ?_, fun hlt => ?_⟩
  · have hshort : n < (frame s.cfg 0xE0 []).length := hlt
    exact lineOperation_of_sendFrame_lost hup (sendFrame_of_partial hq hn hshort)
  · exact lineOperation_of_sendFrame_lost hup (sendFrame_of_partial hq hn hlt)

/-- Settles O34: the wait accepts a valid frame of either kind at poll `k`, and each operation ends with its own
answer to that success. -/
theorem frameOfTheOtherKindIsAccepted : Obligations.FrameOfTheOtherKindIsAccepted := by
  intro timeout k s ck w0 w1 w2 w3 w4 later hk hup hq hrxq
  dsimp only
  constructor
  · intro haccepts hroom hchunks hvalid
    obtain ⟨hreply, -⟩ :=
      replyAtPollKEndsTheWait timeout k (afterSend (cycleFrame s) s) ck w0 w1 w2 w3 w4 later hk hrxq
    have hwhole := haccepts.of_le (cycleFrame_length_le s)
    exact ⟨_, lineOperation_of_waitResponse (finish := finishCycle) hup hq hwhole (hreply hroom hchunks hvalid),
      (finishCycle_faulted_eq_false_iff _ _).mpr rfl, rfl, rfl, rfl⟩
  · intro haccepts hroom hchunks hvalid
    obtain ⟨-, hstate⟩ :=
      replyAtPollKEndsTheWait timeout k (afterSend (frame s.cfg 0xE0 []) s) ck w0 w1 w2 w3 w4 later hk hrxq
    exact ⟨_, lineOperation_of_waitResponse (finish := finishPing) hup hq haccepts (hstate hroom hchunks hvalid),
      rfl, rfl, rfl⟩

/-! The operations that do not use the line (R231 to R245). -/

section

variable (r : Tunable) {v : F} (s : State)

/-- The `SET` of a tunable takes a finite value exactly (R232). -/
theorem exec_setter_of_finite (h : Bin32.isFinite v = true) :
    exec (r.setter v) s = .next { s with ctrl := r.put v s.ctrl, result := .none } :=
  (exec_setter r v s).trans (if_pos h)

/-- The `SET` of a tunable refuses a NaN and an infinity (R232). -/
theorem exec_setter_of_not_finite (h : Bin32.isFinite v = false) : exec (r.setter v) s = .refused .illegalValue := by
  rw [exec_setter]
  exact if_neg (ne_true_of_eq_false h)

end

/-- `SET MODE` of a legal number writes that mode (R231). -/
theorem exec_setMode_of_some {m : Int} {mode : Mode} (h : modeOfNumber m = some mode) (s : State) :
    exec (.setMode m) s = .next { s with mode := mode, result := .none } := by
  simp only [exec, execSetMode, h]

theorem exec_setMode_of_none {m : Int} (h : modeOfNumber m = none) (s : State) :
    exec (.setMode m) s = .refused .illegalValue := by
  simp only [exec, execSetMode, h]

theorem modeOfNumber_eq_none {m : Int} (h : m < 0 ∨ 3 < m) : modeOfNumber m = none := by
  cases hm : modeOfNumber m with
  | none => rfl
  | some mode =>
    obtain ⟨hlow, hhigh⟩ := modeOfNumber_range hm
    omega

/-- `SET DIR` of a legal sign writes that sign (R233). -/
theorem exec_setDir_of_some {d : Int} {dir : Direction} (h : dirOfInt d = some dir) (s : State) :
    exec (.setDir d) s = .next { s with dir := dir, result := .none } := by
  simp only [exec, execSetDir, h]

theorem exec_setDir_of_none {d : Int} (h : dirOfInt d = none) (s : State) :
    exec (.setDir d) s = .refused .illegalValue := by
  simp only [exec, execSetDir, h]

theorem dirOfInt_eq_none {d : Int} (hplus : d ≠ 1) (hminus : d ≠ -1) : dirOfInt d = none := by
  rw [dirOfInt, if_neg hplus, if_neg hminus]

theorem dirInt_eq_ite (d : Direction) : dirInt d = if d = .plus then 1 else -1 := by
  cases d <;> rfl

/-- Settles O55, from everything an instruction can do: what uses the line is a line operation or a frame row. -/
theorem otherOperationsLeaveTheLineAlone : Obligations.OtherOperationsLeaveTheLineAlone := by
  intro i s t hhop hline h
  cases execEffect_of_next h with
  | usesLine _ _ hruns _ _ =>
    have hrxf := hruns.resolve_left hline
    exact absurd (hhop.symm.trans hrxf) nofun
  | evalctrl => rfl
  | keepsRegisters => rfl
  | setMode => rfl
  | setDir => rfl
  | setTunable => rfl

/-! The gate (R220): no meaning but that of a line operation reads `CONNLOST`. -/

theorem exec_of_isLineOperation_of_connLost {i : Instr} {s : State} (hi : IsLineOperation i)
    (h : s.connLost = true) : exec i s = .refused .connectionLost := by
  obtain ⟨timeout, rfl⟩ | ⟨timeout, rfl⟩ := hi
  · exact lineOperation_of_connLost h
  · exact lineOperation_of_connLost h

section

variable (s : State) (b : Bool)

theorem exec_rxf_connLost {i : Instr} (hi : formatOf i = .rxf) :
    exec i { s with connLost := b } = withConnLost b (exec i s) := by
  obtain ⟨bytes, hbytes, hexec⟩ := exec_of_rxf hi s
  obtain ⟨bytes', hbytes', hexec'⟩ := exec_of_rxf hi { s with connLost := b }
  cases hbytes.symm.trans hbytes'
  rw [hexec, hexec', receive_connLost]

theorem exec_txf_connLost {i : Instr} (hi : formatOf i = .txf) :
    exec i { s with connLost := b } = withConnLost b (exec i s) := by
  cases i <;> simp only [formatOf, reduceCtorEq] at hi <;> rfl

theorem exec_setter_connLost (r : Tunable) (v : F) :
    exec (r.setter v) { s with connLost := b } = withConnLost b (exec (r.setter v) s) := by
  cases h : Bin32.isFinite v with
  | true =>
    rw [exec_setter_of_finite r _ h, exec_setter_of_finite r _ h]
    rfl
  | false =>
    rw [exec_setter_of_not_finite r _ h, exec_setter_of_not_finite r _ h]
    rfl

theorem exec_setMode_connLost (m : Int) :
    exec (.setMode m) { s with connLost := b } = withConnLost b (exec (.setMode m) s) := by
  cases h : modeOfNumber m with
  | none =>
    rw [exec_setMode_of_none h, exec_setMode_of_none h]
    rfl
  | some mode =>
    rw [exec_setMode_of_some h, exec_setMode_of_some h]
    rfl

theorem exec_setDir_connLost (d : Int) :
    exec (.setDir d) { s with connLost := b } = withConnLost b (exec (.setDir d) s) := by
  cases h : dirOfInt d with
  | none =>
    rw [exec_setDir_of_none h, exec_setDir_of_none h]
    rfl
  | some dir =>
    rw [exec_setDir_of_some h, exec_setDir_of_some h]
    rfl

theorem exec_evalctrl_connLost :
    exec .evalctrl { s with connLost := b } = withConnLost b (exec .evalctrl s) := by
  by_cases h : LimitsOrdered s
  · have h' : LimitsOrdered { s with connLost := b } := h
    rw [exec_evalctrl_of_limitsOrdered h, exec_evalctrl_of_limitsOrdered h']
    rfl
  · have h' : ¬LimitsOrdered { s with connLost := b } := h
    rw [exec_evalctrl_of_not_limitsOrdered h, exec_evalctrl_of_not_limitsOrdered h']
    rfl

theorem exec_hop_connLost {i : Instr} (hi : formatOf i = .hop) (hline : ¬IsLineOperation i) :
    exec i { s with connLost := b } = withConnLost b (exec i s) := by
  cases i <;> simp only [formatOf, reduceCtorEq] at hi
  case ping timeout => exact absurd (.inl ⟨timeout, rfl⟩) hline
  case runcycle timeout => exact absurd (.inr ⟨timeout, rfl⟩) hline
  case evalctrl => exact exec_evalctrl_connLost s b
  case setMode m => exact exec_setMode_connLost s b m
  case setDir d => exact exec_setDir_connLost s b d
  case setTargetVoltage v => exact exec_setter_connLost s b .targetVoltage v
  case setTargetPosition v => exact exec_setter_connLost s b .targetPosition v
  case setTargetCslMode v => exact exec_setter_connLost s b .targetCslMode v
  case setTargetCslFeedback v => exact exec_setter_connLost s b .targetCslFeedback v
  case setLimitLow v => exact exec_setter_connLost s b .limitLow v
  case setLimitHigh v => exact exec_setter_connLost s b .limitHigh v
  case setProportionalGain v => exact exec_setter_connLost s b .proportionalGain v
  case setDisableAngle v => exact exec_setter_connLost s b .disableAngle v
  -- the eleven reads, the two records and `RESETSTATS`
  all_goals rfl

/-- Everything but a line operation does the same whatever `CONNLOST` holds. -/
theorem exec_connLost {i : Instr} (hline : ¬IsLineOperation i) :
    exec i { s with connLost := b } = withConnLost b (exec i s) := by
  cases hi : formatOf i with
  | txf => exact exec_txf_connLost s b hi
  | rxf => exact exec_rxf_connLost s b hi
  | hop => exact exec_hop_connLost s b hi hline

end

/-- What goes on while the connection is lost leaves the transport as it was. -/
theorem sameTransport_of_connLost {i : Instr} {s t : State} (hlost : s.connLost = true) (h : exec i s = .next t) :
    SameTransport s t := by
  refine sameTransport_of_not_isLineOperation (fun hi => ?_) h
  rw [exec_of_isLineOperation_of_connLost hi hlost] at h
  cases h

/-- Settles O33: the gate refuses the line operations, no other meaning reads the flag, and what goes on behind it
touches neither the flag nor the transmitter. -/
theorem lostConnectionGatesTheLineOperations : Obligations.LostConnectionGatesTheLineOperations := by
  refine ⟨fun timeout s h => ?_, fun i s b => exec_connLost s b, fun s t h hlost => ?_⟩
  · exact ⟨lineOperation_of_connLost h, lineOperation_of_connLost h⟩
  · obtain rfl | ⟨_, i, rows, requests, -, hexec⟩ := step_next_cases h
    · exact ⟨hlost, rfl, rfl⟩
    · have hsame := sameTransport_of_connLost (s := { s with frameRows := rows, requests := requests }) hlost hexec
      exact ⟨hsame.connLost.trans hlost, hsame.txLog, hsame.txq⟩

/-! The registers (R230 to R242). -/

/-- HOST's next operation is refused where it does not decode. -/
theorem step_of_nextRequest_of_error {s : State} {r : HostRequest} {e : DecodeError} (h : NextRequest s r)
    (hdecode : decode s.cfg.lit r.request = .error e) : step s = .refused (refusalOf e) := by
  rw [step_of_nextRequest h, hdecode]

theorem step_of_nextRequest_of_ok {s : State} {r : HostRequest} {i : Instr} (h : NextRequest s r)
    (hdecode : decode s.cfg.lit r.request = .ok i) : step s = exec i { s with requests := s.requests.tail } :=
  (stepRunsTheDecodedInstruction s i).1 r h hdecode

section

variable {r : Byte} (hr : 10 < r.toNat) (op : Operand)

include hr

theorem ne_of_ten_lt {c : Byte} (hc : c.toNat ≤ 10) : r ≠ c := by
  rintro rfl
  omega

theorem decodeGet_of_ten_lt : decodeGet r op = .error .noSuchRegister := by
  unfold decodeGet
  -- the eleven registers
  iterate 11
    refine (if_neg (ne_of_ten_lt hr ?_)).trans ?_
    · decide
  rfl

theorem decodeSet_of_ten_lt : decodeSet r op = .error .noSuchRegister := by
  unfold decodeSet
  -- the eleven registers
  iterate 11
    refine (if_neg (ne_of_ten_lt hr ?_)).trans ?_
    · decide
  rfl

end

/-- Settles O7: neither request decodes. -/
theorem identifierIsReadOnly : Obligations.IdentifierIsReadOnly := by
  intro s r op
  exact ⟨fun hnext => step_of_nextRequest_of_error hnext rfl,
    fun hr hnext => step_of_nextRequest_of_error hnext (decodeSet_of_ten_lt hr op)⟩

/-- Settles O40: each row is `answer` of its register, and a register above 10 does not decode. -/
theorem getAnswersTheRegister : Obligations.GetAnswersTheRegister := by
  intro s
  rw [← dirInt_eq_ite]
  exact ⟨rfl, rfl, rfl, rfl, rfl, rfl, rfl, rfl, rfl, rfl, rfl,
    fun r op hr hnext => step_of_nextRequest_of_error hnext (decodeGet_of_ten_lt hr op)⟩

/-- Settles O41, tunable by tunable. -/
theorem setTakesFiniteValues : Obligations.SetTakesFiniteValues := by
  intro s v
  dsimp only
  constructor
  · intro hfinite
    have htakes (r : Tunable) := exec_setter_of_finite r s hfinite
    exact ⟨htakes .targetVoltage, htakes .targetPosition, htakes .targetCslMode, htakes .targetCslFeedback,
      htakes .limitLow, htakes .limitHigh, htakes .proportionalGain, htakes .disableAngle⟩
  · intro hfinite
    have hrefuses : ∀ i ∈ [Tunable.targetVoltage, .targetPosition, .targetCslMode, .targetCslFeedback, .limitLow,
        .limitHigh, .proportionalGain, .disableAngle].map (·.setter v), exec i s = .refused .illegalValue :=
      List.forall_mem_map.mpr fun r _ => exec_setter_of_not_finite r s hfinite
    exact hrefuses

/-- Settles O42: the legal numbers one by one, every other integer refused by the operation, and a value of `F` by the
decoder. -/
theorem setModeAndSetDirTakeLegalValues : Obligations.SetModeAndSetDirTakeLegalValues := by
  intro s m d
  have hmode (hm : m < 0 ∨ 3 < m) (u : State) : exec (.setMode m) u = .refused .illegalValue :=
    exec_setMode_of_none (modeOfNumber_eq_none hm) u
  have hdir (hplus : d ≠ 1) (hminus : d ≠ -1) (u : State) : exec (.setDir d) u = .refused .illegalValue :=
    exec_setDir_of_none (dirOfInt_eq_none hplus hminus) u
  refine ⟨exec_setMode_of_some rfl s, exec_setMode_of_some rfl s, exec_setMode_of_some rfl s,
    exec_setMode_of_some rfl s, fun hm => hmode hm s, exec_setDir_of_some rfl s, exec_setDir_of_some rfl s,
    fun hplus hminus => hdir hplus hminus s, fun op hnext hop => ?_, fun op hnext hop => ?_⟩
  · obtain ⟨rfl, hm⟩ | ⟨v, rfl⟩ := hop
    · rw [step_of_nextRequest_of_ok (i := .setMode m) hnext rfl, hmode hm]
    · exact step_of_nextRequest_of_error hnext rfl
  · obtain ⟨rfl, hplus, hminus⟩ | ⟨v, rfl⟩ := hop
    · rw [step_of_nextRequest_of_ok (i := .setDir d) hnext rfl, hdir hplus hminus]
    · exact step_of_nextRequest_of_error hnext rfl

/-- Settles O43: both records are answered as they stand, the undefined `outputVoltage` drawn afresh. -/
theorem recordsAreCopied : Obligations.RecordsAreCopied :=
  fun s => ⟨⟨Config.anyF s.freeCount, rfl⟩, rfl⟩

end Sys2Proof.Machine
end

section
/-! Proofs of the reset family (70_reset_and_hazards.md): the idle block, and what creation leaves. -/

namespace Sys2Proof.Machine

/-! The idle block (R303). -/

theorem fetch_of_idle {s : State} (hrows : s.frameRows = []) (hrequests : s.requests = []) : fetch s = none := by
  simp only [fetch, hrows, hrequests]

theorem step_of_fetch_eq_none {s : State} (h : fetch s = none) : step s = .next s := by
  simp only [step, h]

/-! Creation (R300, R301): each invariant holds of what `State.create` makes, of any configuration. -/

section

variable (cfg : Cfg) (rst : Rst) (rxq : List Byte) (ckAcc : Nat)

theorem create_txq : (State.create cfg rst rxq ckAcc).txq = [] := rfl

theorem create_txLog : (State.create cfg rst rxq ckAcc).txLog = [] := rfl

theorem create_stat :
    (State.create cfg rst rxq ckAcc).stat =
      { errorCount := 0, timeoutCount := 0, lastResponseTimeMicros := 0,
        avgResponseTimeMicros := Bin32.decimal 0 1, maxResponseTimeMicros := 0, faulted := false } := by
  rw [Bin32.decimal_zero]
  rfl

/-- The tunables are those of `RST` and of the instance; the controller memory is 0.0 (R301). -/
theorem create_ctrl :
    (State.create cfg rst rxq ckAcc).ctrl =
      { targetVoltage := rst.targetVoltage, targetPosition := rst.targetPosition,
        targetCslMode := rst.targetCslMode, targetCslFeedback := rst.targetCslFeedback,
        limitLow := rst.limitLow, limitHigh := rst.limitHigh, proportionalGain := rst.proportionalGain,
        disableAngle := cfg.lit.disableAngleDefault, integralError := Bin32.decimal 0 1, z := Bin32.decimal 0 1 } := by
  rw [Bin32.decimal_zero]
  rfl

theorem create_disableAngle_of_sourceLiterals (h : SourceLiterals cfg) :
    (State.create cfg rst rxq ckAcc).ctrl.disableAngle = Bin32.decimal 90 100 := by
  rw [create_ctrl, show cfg.lit = Literals.source from h]
  exact source_disableAngleDefault

/-- Nothing is queued and nothing was sent: the empty log is a log of whole frames. -/
theorem create_transportInv : TransportInv (State.create cfg rst rxq ckAcc) := by
  refine ⟨fun _ => create_txq cfg rst rxq ckAcc, ?_⟩
  rw [create_txLog, create_txq]
  exact .nil

theorem create_statInv : StatInv (State.create cfg rst rxq ckAcc) := by
  rw [StatInv, create_stat]

end

/-- `TunablesFinite` over the list of the seven registers it speaks of. -/
theorem tunablesFinite_iff_forall_mem (s : State) :
    TunablesFinite s ↔
      ∀ v ∈ [s.ctrl.targetPosition, s.ctrl.targetCslMode, s.ctrl.targetCslFeedback, s.ctrl.limitLow,
        s.ctrl.limitHigh, s.ctrl.proportionalGain, s.ctrl.disableAngle], Bin32.isFinite v = true := by
  simp [TunablesFinite]

/-- What `RST_TEST` and the source's default angle leave in the tunables is finite (R302). -/
theorem reset_tunablesFinite : TunablesFinite State.reset :=
  (tunablesFinite_iff_forall_mem _).mpr (List.all_eq_true.mp (by decide))

/-! The obligations. -/

/-- Settles O6: with neither a frame row nor an operation of HOST nothing is fetched. -/
theorem idleBlockDoesNothing : Obligations.IdleBlockDoesNothing :=
  fun _ hrows hrequests => step_of_fetch_eq_none (fetch_of_idle hrows hrequests)

/-- Settles O58: creation establishes the two invariants whatever it is given, and makes the tunables finite when the
values it copies into them are. -/
theorem resetHasTheInvariants : Obligations.ResetHasTheInvariants := by
  refine ⟨⟨create_transportInv .., create_statInv .., reset_tunablesFinite⟩, fun cfg rst rxq ckAcc => ?_⟩
  refine ⟨create_transportInv .., create_statInv .., fun hfinite => ?_⟩
  rw [tunablesFinite_iff_forall_mem, create_ctrl]
  exact hfinite

/-- Settles O59: the control registers and the statistics by their own lemmas, every other register as `State.create`
writes it. -/
theorem resetLeavesTheseValues : Obligations.ResetLeavesTheseValues := by
  intro cfg rst rxq ckAcc
  exact ⟨rfl, rfl, rfl, create_ctrl .., create_disableAngle_of_sourceLiterals cfg rst rxq ckAcc,
    rfl, rfl, rfl, rfl, rfl, create_stat .., rfl, create_txq .., create_txLog .., rfl, rfl⟩

end Sys2Proof.Machine
end
